-- ==== Sys2Proof/Word.lean ====
section
/-!
DEFINITION. The plain word types of the machine (00_scope.md R10, R19): a byte is 8 bits, a linear
address and a general register 64 bits, a vector register is kept in 512 bits.
-/
namespace Sys2Proof

/-- One byte of memory or of an instruction (00_scope.md R19). -/
abbrev Byte := BitVec 8

/-- A linear address, an effective address or an instruction pointer (20_memory.md R50, 10_state.md R31). -/
abbrev Addr := BitVec 64

/-- A general register (10_state.md R33). -/
abbrev Quad := BitVec 64

/-- Storage of one vector register: `MAXVL` is at most 512 (00_scope.md R5). -/
abbrev Vec := BitVec 512

end Sys2Proof
end

