-- ==== Sys2Proof/Config.lean ====
section
/-!
DEFINITION. What an implementation or a platform fixes (00_scope.md R5 to R9, 92_eei_decisions.md, the
table of open parameters), as plain data that State carries, and the two choices that the spec leaves
free (93_implementation_defined.md U9, U10) as constants with no body.
-/
namespace Sys2Proof

/-- The operating mode (00_scope.md R7). `realAddress` is the mode after reset (10_state.md R44), which
the spec leaves out of its decoder (00_scope.md, out of scope). -/
inductive Mode where
  | mode64
  | mode32
  | realAddress
  deriving DecidableEq, Repr

/-- The values of `MAXVL` (00_scope.md R5). -/
inductive MaxVl where
  | bits128
  | bits256
  | bits512
  deriving DecidableEq, Repr

/-- `MAXVL` as a number of bits (00_scope.md R5). -/
def MaxVl.bits : MaxVl → Nat
  | .bits128 => 128
  | .bits256 => 256
  | .bits512 => 512

/-- The set `Features` of 00_scope.md R6: one flag for each CPUID feature flag (10_state.md R41). -/
structure Features where
  mmx : Bool
  sse2 : Bool
  avx : Bool
  avx2 : Bool
  avx512f : Bool
  avx512bw : Bool
  avx512vl : Bool
  deriving DecidableEq, Repr

/-- Who accesses memory: the two classes of privilege that `Translate` tells apart
(10_state.md R38, 20_memory.md R70). -/
inductive Privilege where
  | user
  | supervisor
  deriving DecidableEq, Repr

/-- What `Translate` does with the bytes of one range for one class of privilege (20_memory.md R70):
maps them, the first byte of the range to the physical address `phys`, or faults. `other` holds bits
31:3 of the error code, which are the translation's business. -/
inductive PageAction where
  | maps (phys : Addr)
  | faults (present : Bool) (other : BitVec 29)
  deriving DecidableEq, Repr

/-- A range of linear addresses, both ends included. -/
structure AddrRange where
  first : Nat
  last : Nat
  deriving DecidableEq, Repr

/-- Membership of an address in a range. -/
def AddrRange.contains (r : AddrRange) (a : Nat) : Bool :=
  decide (r.first ≤ a) && decide (a ≤ r.last)

/-- One entry of the parameter `Translate` (20_memory.md R70; DESIGN CHOICE, log 10). -/
structure PageRange where
  range : AddrRange
  user : PageAction
  supervisor : PageAction
  deriving DecidableEq, Repr

/-- The open parameters of the spec (92_eei_decisions.md, last table) but for the launch state, which
is State itself. No step changes them (log 7). -/
structure Params where
  /-- `MAXVL` (00_scope.md R5). -/
  maxVl : MaxVl
  /-- `Features` (00_scope.md R6). -/
  features : Features
  /-- `VA_BITS` (00_scope.md R9). -/
  vaBits : Nat
  /-- `Translate`: the first range that holds an address decides (20_memory.md R70). -/
  pages : List PageRange
  /-- `Mapped`: the ordinary readable bytes (20_memory.md R64). -/
  mapped : List AddrRange
  deriving DecidableEq, Repr

/-- The `MAXVL` of a processor with these features (00_scope.md R5, 93_implementation_defined.md G2); none
where R5 names no value, without `SSE2` and `AVX`. -/
def Features.maxVl (f : Features) : Option MaxVl :=
  if f.avx512f then some .bits512
  else if f.avx then some .bits256
  else if f.sse2 then some .bits128
  else none

/-- `MAXVL` is at least what `Features` need (00_scope.md R6), with the implications between the flags of
93_implementation_defined.md G2. -/
def Params.needsMet (p : Params) : Bool :=
  (!p.features.avx512f || decide (p.maxVl = .bits512)) &&
  (!p.features.avx || decide (p.maxVl ≠ .bits128)) &&
  (!p.features.avx2 || p.features.avx) &&
  (!p.features.avx512bw || p.features.avx512f) &&
  (!p.features.avx512vl || p.features.avx512f)

/-- `Features` and `MAXVL` are those of one processor: the needs of 00_scope.md R6 are met, and `MAXVL` is
the width that R5 gives (log 31). -/
def Params.consistent (p : Params) : Bool :=
  p.needsMet && p.features.maxVl.all fun v => decide (v = p.maxVl)

/-- Free choice U9 (93_implementation_defined.md; 60_exceptions.md R231): does the `n`-th misaligned
broadcast read under alignment checking raise #AC(0)? Nothing constrains it (log 13). -/
opaque Config.bcstMisalignedFaults : Nat → Bool

/-- Free choice U10 (93_implementation_defined.md; 20_memory.md R55): in 64-bit mode, does a
non-canonical operand under an `SS` override raise #SS(0) (true) or #GP(0) (false)? Nothing
constrains it (log 14). -/
opaque Config.ssOverrideRaisesSs : Nat → Bool

end Sys2Proof
end

