-- ==== Sys2Proof/Syntax.lean ====
section
/-!
DEFINITION. The 28 instruction forms, one constructor for each row of spec/opcode_table.json
(30_encoding.md R81), with their operands as the encoding holds them (R84 to R87, R93 to R98, R100,
R101, R105). Bits that the encoding stores inverted are held un-inverted.
-/
namespace Sys2Proof

/-- Segment registers an override can name (30_encoding.md R94). -/
inductive SegReg where
  | cs
  | ss
  | ds
  | es
  | fs
  | gs
  deriving DecidableEq, Repr

/-- One byte that may stand before the opcode or before a VEX or EVEX escape
(30_encoding.md R94, R96). A REX byte that is not the last of them is ignored (R96; log 17). -/
inductive LeadByte where
  /-- `66`. -/
  | opSize
  /-- `67`. -/
  | addrSize
  /-- `2E 36 3E 26 64 65`. -/
  | seg (s : SegReg)
  /-- `F0`. -/
  | lock
  /-- `F2`. -/
  | repne
  /-- `F3`. -/
  | rep
  /-- `40` to `4F`, 64-bit mode only. -/
  | rex (w r x b : Bool)
  deriving DecidableEq, Repr

/-- The lane width, told by the opcode byte alone (30_encoding.md R83). -/
inductive Lane where
  | byte
  | word
  | dword
  | qword
  deriving DecidableEq, Repr

/-- The width of a lane in bits (30_encoding.md R83). -/
def Lane.bits : Lane → Nat
  | .byte => 8
  | .word => 16
  | .dword => 32
  | .qword => 64

/-- The vector lengths of VEX and EVEX forms (30_encoding.md R91, R92). -/
inductive VecLen where
  | vl128
  | vl256
  | vl512
  deriving DecidableEq, Repr

/-- The vector length in bits. -/
def VecLen.bits : VecLen → Nat
  | .vl128 => 128
  | .vl256 => 256
  | .vl512 => 512

/-- The displacement of a memory operand that has a base register (30_encoding.md R95, R98):
none for `mod = 00`, one byte for `mod = 01`, four for `mod = 10`. -/
inductive Disp where
  | noDisp
  | disp8 (d : BitVec 8)
  | disp32 (d : BitVec 32)
  deriving DecidableEq, Repr

/-- A memory operand as ModRM, SIB and displacement write it (30_encoding.md R98). Register fields
are the three encoded bits; the extension bits stand in the lead bytes or the VEX or EVEX fields. -/
inductive MemOperand where
  /-- `rm` names the base register; `rm` is not `100`, nor `101` without a displacement. -/
  | base (rm : BitVec 3) (disp : Disp)
  /-- `mod = 00`, `rm = 101`: RIP-relative in 64-bit mode, a plain `disp32` in 32-bit mode. -/
  | relative (d : BitVec 32)
  /-- A SIB byte with a base register; the base is not `101` without a displacement. -/
  | sib (scale : BitVec 2) (index base : BitVec 3) (disp : Disp)
  /-- `mod = 00`, SIB base `101`: no base register. -/
  | sibNoBase (scale : BitVec 2) (index : BitVec 3) (d : BitVec 32)
  deriving DecidableEq, Repr

/-- The `r/m` operand: a register field or memory (30_encoding.md R93). -/
inductive RmOperand where
  | reg (rm : BitVec 3)
  | mem (m : MemOperand)
  deriving DecidableEq, Repr

/-- A VEX header without `L`, `pp` and map, which the row fixes (30_encoding.md R100 to R102): the
two-byte or the three-byte spelling. -/
inductive Vex where
  | two (r : Bool) (vvvv : BitVec 4)
  | three (r x b w : Bool) (vvvv : BitVec 4)
  deriving DecidableEq, Repr

/-- The fields of an EVEX header that the row does not fix (30_encoding.md R105, R108, R109). -/
structure Evex where
  r : Bool
  x : Bool
  b : Bool
  /-- `R'`. -/
  rHi : Bool
  w : Bool
  vvvv : BitVec 4
  /-- `z`: zeroing-masking. -/
  z : Bool
  /-- `b` of `P2`, the broadcast bit `EVEX.b`. -/
  bcst : Bool
  /-- `V'`. -/
  vHi : Bool
  aaa : BitVec 3
  deriving DecidableEq, Repr

/-- The instruction forms (30_encoding.md R81). `reg` is the field ModRM.reg. -/
inductive Instr where
  /-- Row 1: `PADDB mm, mm/m64`. -/
  | paddbMm (lead : List LeadByte) (reg : BitVec 3) (rm : RmOperand)
  /-- Row 2: `PADDW mm, mm/m64`. -/
  | paddwMm (lead : List LeadByte) (reg : BitVec 3) (rm : RmOperand)
  /-- Row 3: `PADDD mm, mm/m64`. -/
  | padddMm (lead : List LeadByte) (reg : BitVec 3) (rm : RmOperand)
  /-- Row 4: `PADDQ mm, mm/m64`. -/
  | paddqMm (lead : List LeadByte) (reg : BitVec 3) (rm : RmOperand)
  /-- Row 5: `PADDB xmm1, xmm2/m128`. -/
  | paddbXmm (lead : List LeadByte) (reg : BitVec 3) (rm : RmOperand)
  /-- Row 6: `PADDW xmm1, xmm2/m128`. -/
  | paddwXmm (lead : List LeadByte) (reg : BitVec 3) (rm : RmOperand)
  /-- Row 7: `PADDD xmm1, xmm2/m128`. -/
  | padddXmm (lead : List LeadByte) (reg : BitVec 3) (rm : RmOperand)
  /-- Row 8: `PADDQ xmm1, xmm2/m128`. -/
  | paddqXmm (lead : List LeadByte) (reg : BitVec 3) (rm : RmOperand)
  /-- Row 9: `VPADDB xmm1, xmm2, xmm3/m128`, VEX. -/
  | vpaddbVexXmm (lead : List LeadByte) (vex : Vex) (reg : BitVec 3) (rm : RmOperand)
  /-- Row 10: `VPADDW xmm1, xmm2, xmm3/m128`, VEX. -/
  | vpaddwVexXmm (lead : List LeadByte) (vex : Vex) (reg : BitVec 3) (rm : RmOperand)
  /-- Row 11: `VPADDD xmm1, xmm2, xmm3/m128`, VEX. -/
  | vpadddVexXmm (lead : List LeadByte) (vex : Vex) (reg : BitVec 3) (rm : RmOperand)
  /-- Row 12: `VPADDQ xmm1, xmm2, xmm3/m128`, VEX. -/
  | vpaddqVexXmm (lead : List LeadByte) (vex : Vex) (reg : BitVec 3) (rm : RmOperand)
  /-- Row 13: `VPADDB ymm1, ymm2, ymm3/m256`, VEX. -/
  | vpaddbVexYmm (lead : List LeadByte) (vex : Vex) (reg : BitVec 3) (rm : RmOperand)
  /-- Row 14: `VPADDW ymm1, ymm2, ymm3/m256`, VEX. -/
  | vpaddwVexYmm (lead : List LeadByte) (vex : Vex) (reg : BitVec 3) (rm : RmOperand)
  /-- Row 15: `VPADDD ymm1, ymm2, ymm3/m256`, VEX. -/
  | vpadddVexYmm (lead : List LeadByte) (vex : Vex) (reg : BitVec 3) (rm : RmOperand)
  /-- Row 16: `VPADDQ ymm1, ymm2, ymm3/m256`, VEX. -/
  | vpaddqVexYmm (lead : List LeadByte) (vex : Vex) (reg : BitVec 3) (rm : RmOperand)
  /-- Row 17: `VPADDB xmm1 k1 z, xmm2, xmm3/m128`, EVEX. -/
  | vpaddbEvexXmm (lead : List LeadByte) (evex : Evex) (reg : BitVec 3) (rm : RmOperand)
  /-- Row 18: `VPADDW xmm1 k1 z, xmm2, xmm3/m128`, EVEX. -/
  | vpaddwEvexXmm (lead : List LeadByte) (evex : Evex) (reg : BitVec 3) (rm : RmOperand)
  /-- Row 19: `VPADDD xmm1 k1 z, xmm2, xmm3/m128/m32bcst`, EVEX. -/
  | vpadddEvexXmm (lead : List LeadByte) (evex : Evex) (reg : BitVec 3) (rm : RmOperand)
  /-- Row 20: `VPADDQ xmm1 k1 z, xmm2, xmm3/m128/m64bcst`, EVEX. -/
  | vpaddqEvexXmm (lead : List LeadByte) (evex : Evex) (reg : BitVec 3) (rm : RmOperand)
  /-- Row 21: `VPADDB ymm1 k1 z, ymm2, ymm3/m256`, EVEX. -/
  | vpaddbEvexYmm (lead : List LeadByte) (evex : Evex) (reg : BitVec 3) (rm : RmOperand)
  /-- Row 22: `VPADDW ymm1 k1 z, ymm2, ymm3/m256`, EVEX. -/
  | vpaddwEvexYmm (lead : List LeadByte) (evex : Evex) (reg : BitVec 3) (rm : RmOperand)
  /-- Row 23: `VPADDD ymm1 k1 z, ymm2, ymm3/m256/m32bcst`, EVEX. -/
  | vpadddEvexYmm (lead : List LeadByte) (evex : Evex) (reg : BitVec 3) (rm : RmOperand)
  /-- Row 24: `VPADDQ ymm1 k1 z, ymm2, ymm3/m256/m64bcst`, EVEX. -/
  | vpaddqEvexYmm (lead : List LeadByte) (evex : Evex) (reg : BitVec 3) (rm : RmOperand)
  /-- Row 25: `VPADDB zmm1 k1 z, zmm2, zmm3/m512`, EVEX. -/
  | vpaddbEvexZmm (lead : List LeadByte) (evex : Evex) (reg : BitVec 3) (rm : RmOperand)
  /-- Row 26: `VPADDW zmm1 k1 z, zmm2, zmm3/m512`, EVEX. -/
  | vpaddwEvexZmm (lead : List LeadByte) (evex : Evex) (reg : BitVec 3) (rm : RmOperand)
  /-- Row 27: `VPADDD zmm1 k1 z, zmm2, zmm3/m512/m32bcst`, EVEX. -/
  | vpadddEvexZmm (lead : List LeadByte) (evex : Evex) (reg : BitVec 3) (rm : RmOperand)
  /-- Row 28: `VPADDQ zmm1 k1 z, zmm2, zmm3/m512/m64bcst`, EVEX. -/
  | vpaddqEvexZmm (lead : List LeadByte) (evex : Evex) (reg : BitVec 3) (rm : RmOperand)
  deriving DecidableEq, Repr

/-- A form with its class, lane width and vector length as data, so that what the 28 forms share
(their layout in bytes, their length, their well-formedness) is said once. -/
inductive Shape where
  /-- Rows 1 to 8; `wide` tells the `66` forms (rows 5 to 8). -/
  | legacy (wide : Bool) (l : Lane) (lead : List LeadByte) (reg : BitVec 3) (rm : RmOperand)
  /-- Rows 9 to 16; `wide` is `VEX.L`. -/
  | vex (wide : Bool) (l : Lane) (lead : List LeadByte) (v : Vex) (reg : BitVec 3) (rm : RmOperand)
  /-- Rows 17 to 28. -/
  | evex (vl : VecLen) (l : Lane) (lead : List LeadByte) (e : Evex) (reg : BitVec 3) (rm : RmOperand)
  deriving DecidableEq, Repr

/-- The shape of each row (30_encoding.md R81, R119). -/
def Instr.shape (i : Instr) : Shape :=
  match i with
  | .paddbMm lead reg rm => .legacy false .byte lead reg rm
  | .paddwMm lead reg rm => .legacy false .word lead reg rm
  | .padddMm lead reg rm => .legacy false .dword lead reg rm
  | .paddqMm lead reg rm => .legacy false .qword lead reg rm
  | .paddbXmm lead reg rm => .legacy true .byte lead reg rm
  | .paddwXmm lead reg rm => .legacy true .word lead reg rm
  | .padddXmm lead reg rm => .legacy true .dword lead reg rm
  | .paddqXmm lead reg rm => .legacy true .qword lead reg rm
  | .vpaddbVexXmm lead vex reg rm => .vex false .byte lead vex reg rm
  | .vpaddwVexXmm lead vex reg rm => .vex false .word lead vex reg rm
  | .vpadddVexXmm lead vex reg rm => .vex false .dword lead vex reg rm
  | .vpaddqVexXmm lead vex reg rm => .vex false .qword lead vex reg rm
  | .vpaddbVexYmm lead vex reg rm => .vex true .byte lead vex reg rm
  | .vpaddwVexYmm lead vex reg rm => .vex true .word lead vex reg rm
  | .vpadddVexYmm lead vex reg rm => .vex true .dword lead vex reg rm
  | .vpaddqVexYmm lead vex reg rm => .vex true .qword lead vex reg rm
  | .vpaddbEvexXmm lead evex reg rm => .evex .vl128 .byte lead evex reg rm
  | .vpaddwEvexXmm lead evex reg rm => .evex .vl128 .word lead evex reg rm
  | .vpadddEvexXmm lead evex reg rm => .evex .vl128 .dword lead evex reg rm
  | .vpaddqEvexXmm lead evex reg rm => .evex .vl128 .qword lead evex reg rm
  | .vpaddbEvexYmm lead evex reg rm => .evex .vl256 .byte lead evex reg rm
  | .vpaddwEvexYmm lead evex reg rm => .evex .vl256 .word lead evex reg rm
  | .vpadddEvexYmm lead evex reg rm => .evex .vl256 .dword lead evex reg rm
  | .vpaddqEvexYmm lead evex reg rm => .evex .vl256 .qword lead evex reg rm
  | .vpaddbEvexZmm lead evex reg rm => .evex .vl512 .byte lead evex reg rm
  | .vpaddwEvexZmm lead evex reg rm => .evex .vl512 .word lead evex reg rm
  | .vpadddEvexZmm lead evex reg rm => .evex .vl512 .dword lead evex reg rm
  | .vpaddqEvexZmm lead evex reg rm => .evex .vl512 .qword lead evex reg rm

/-- The row of a shape: the inverse of `Instr.shape`. -/
def Shape.instr : Shape → Instr
  | .legacy false .byte lead reg rm => .paddbMm lead reg rm
  | .legacy false .word lead reg rm => .paddwMm lead reg rm
  | .legacy false .dword lead reg rm => .padddMm lead reg rm
  | .legacy false .qword lead reg rm => .paddqMm lead reg rm
  | .legacy true .byte lead reg rm => .paddbXmm lead reg rm
  | .legacy true .word lead reg rm => .paddwXmm lead reg rm
  | .legacy true .dword lead reg rm => .padddXmm lead reg rm
  | .legacy true .qword lead reg rm => .paddqXmm lead reg rm
  | .vex false .byte lead v reg rm => .vpaddbVexXmm lead v reg rm
  | .vex false .word lead v reg rm => .vpaddwVexXmm lead v reg rm
  | .vex false .dword lead v reg rm => .vpadddVexXmm lead v reg rm
  | .vex false .qword lead v reg rm => .vpaddqVexXmm lead v reg rm
  | .vex true .byte lead v reg rm => .vpaddbVexYmm lead v reg rm
  | .vex true .word lead v reg rm => .vpaddwVexYmm lead v reg rm
  | .vex true .dword lead v reg rm => .vpadddVexYmm lead v reg rm
  | .vex true .qword lead v reg rm => .vpaddqVexYmm lead v reg rm
  | .evex .vl128 .byte lead e reg rm => .vpaddbEvexXmm lead e reg rm
  | .evex .vl128 .word lead e reg rm => .vpaddwEvexXmm lead e reg rm
  | .evex .vl128 .dword lead e reg rm => .vpadddEvexXmm lead e reg rm
  | .evex .vl128 .qword lead e reg rm => .vpaddqEvexXmm lead e reg rm
  | .evex .vl256 .byte lead e reg rm => .vpaddbEvexYmm lead e reg rm
  | .evex .vl256 .word lead e reg rm => .vpaddwEvexYmm lead e reg rm
  | .evex .vl256 .dword lead e reg rm => .vpadddEvexYmm lead e reg rm
  | .evex .vl256 .qword lead e reg rm => .vpaddqEvexYmm lead e reg rm
  | .evex .vl512 .byte lead e reg rm => .vpaddbEvexZmm lead e reg rm
  | .evex .vl512 .word lead e reg rm => .vpaddwEvexZmm lead e reg rm
  | .evex .vl512 .dword lead e reg rm => .vpadddEvexZmm lead e reg rm
  | .evex .vl512 .qword lead e reg rm => .vpaddqEvexZmm lead e reg rm

end Sys2Proof
end

