-- ==== Sys2Proof/Machine/Fields.lean ====
section
/-!
DEFINITION. The checks on single fields of an encoding that well-formedness and the decoder share:
30_encoding.md R97, R104, R108 to R110, R112 and, for 32-bit mode, R118.
-/
namespace Sys2Proof

/-- Does a memory operand stand in the `r/m` place? -/
def RmOperand.isMem : RmOperand → Bool
  | .reg _ => false
  | .mem _ => true

/-- The bytes that make any legacy form #UD (30_encoding.md R97, 60_exceptions.md R213). -/
def LeadByte.forbidden : LeadByte → Bool
  | .lock => true
  | .repne => true
  | .rep => true
  | _ => false

/-- The only bytes that may precede a VEX or EVEX header (30_encoding.md R104, R110). -/
def LeadByte.beforeVex : LeadByte → Bool
  | .addrSize => true
  | .seg _ => true
  | _ => false

/-- `66` is among the lead bytes (30_encoding.md R97). -/
def hasOpSize (lead : List LeadByte) : Bool :=
  lead.any fun p => decide (p = .opSize)

/-- `67` is among the lead bytes (30_encoding.md R99). -/
def hasAddrSize (lead : List LeadByte) : Bool :=
  lead.any fun p => decide (p = .addrSize)

/-- EVEX: zeroing needs a writemask (30_encoding.md R108). -/
def Evex.maskOk (e : Evex) : Bool :=
  !e.z || decide (e.aaa ≠ 0#3)

/-- EVEX: the `W` bit fits the row (30_encoding.md R112). -/
def Evex.wOk (l : Lane) (e : Evex) : Bool :=
  match l with
  | .byte => true
  | .word => true
  | .dword => !e.w
  | .qword => e.w

/-- EVEX: VPADDB and VPADDW have no broadcast (30_encoding.md R109, 60_exceptions.md R222). -/
def Evex.nbOk (l : Lane) (e : Evex) : Bool :=
  match l with
  | .byte => !e.bcst
  | .word => !e.bcst
  | .dword => true
  | .qword => true

/-- The lead bytes that 32-bit mode admits: there is no REX there, and `67` would select 16-bit addressing
(30_encoding.md R118). -/
def LeadByte.in32 : LeadByte → Bool
  | .rex _ _ _ _ => false
  | .addrSize => false
  | _ => true

/-- The lead bytes, extension bits and `vvvv` that 32-bit mode admits (30_encoding.md R118): no REX, no
`67`, and every high register bit stored as 1. -/
def Shape.mode32Ok : Shape → Bool
  | .legacy _ _ lead _ _ => lead.all LeadByte.in32
  | .vex _ _ lead v _ _ => lead.all LeadByte.in32 && match v with
      | .two r vvvv => !r && !vvvv.getLsbD 3
      | .three r x b _ vvvv => !r && !x && !b && !vvvv.getLsbD 3
  | .evex _ _ lead e _ _ => lead.all LeadByte.in32 &&
      (!e.r && !e.x && !e.b && !e.rHi && !e.vHi && !e.vvvv.getLsbD 3)

end Sys2Proof
end

