-- ==== Sys2Proof/WellFormed.lean ====
section
/-!
DEFINITION. Which terms of `Instr` some encoding of the spec spells: the conditions of 30_encoding.md
R94 to R98, R104, R108 to R110, R112 on the fields. The 15-byte limit (R113) is `Instr.fits`, beside
the length, in Decode.lean.
-/
namespace Sys2Proof

/-- A memory operand that ModRM and SIB can write (30_encoding.md R98): `rm = 100` calls a SIB byte,
and `101` without a displacement means another form. -/
def MemOperand.wellFormed : MemOperand → Bool
  | .base rm disp => decide (rm ≠ 4#3) && (decide (disp ≠ .noDisp) || decide (rm ≠ 5#3))
  | .relative _ => true
  | .sib _ _ bs disp => decide (disp ≠ .noDisp) || decide (bs ≠ 5#3)
  | .sibNoBase _ _ _ => true

/-- A register operand is always well-formed. -/
def RmOperand.wellFormed : RmOperand → Bool
  | .reg _ => true
  | .mem m => m.wellFormed

/-- Well-formedness of a shape, class by class. -/
def Shape.wellFormed : Shape → Bool
  | .legacy wide _ lead _ rm =>
      decide (hasOpSize lead = wide) && lead.all (fun p => !p.forbidden) && rm.wellFormed
  | .vex _ _ lead _ _ rm => lead.all LeadByte.beforeVex && rm.wellFormed
  | .evex _ l lead e _ rm =>
      lead.all LeadByte.beforeVex && e.wOk l && e.maskOk && e.nbOk l &&
        (!e.bcst || rm.isMem) && rm.wellFormed

/-- An instruction that the encoding rules of the spec can write, its length apart. -/
def Instr.wellFormed (i : Instr) : Bool :=
  i.shape.wellFormed

/-- The encodings that `m` admits: all of them in 64-bit mode, those of 30_encoding.md R118 in 32-bit
mode, none in real-address mode. -/
def Instr.admitted (m : Mode) (i : Instr) : Bool :=
  match m with
  | .mode64 => true
  | .mode32 => i.shape.mode32Ok
  | .realAddress => false

end Sys2Proof
end

