-- ==== Sys2Proof/Decode.lean ====
section
/-!
DEFINITION. The decoder, total on every byte run (30_encoding.md R93 to R114, R118), the encoder written
from the same rules, the length of an instruction (R113), and the reading of a word of
spec/opcode_table.json.
-/
namespace Sys2Proof

/-- What the decode procedure says of a byte run (30_encoding.md R114). -/
inductive Decoded where
  /-- One of the 28 forms, and the bytes after it. -/
  | form (i : Instr) (rest : List Byte)
  /-- #UD from the instruction's bits. -/
  | ud
  /-- A form longer than 15 bytes: #GP(0). -/
  | tooLong
  /-- Bytes of some other instruction of the architecture: refused. -/
  | notAForm
  /-- A 32-bit-mode encoding the spec leaves open (30_encoding.md R118): refused. -/
  | mode32Encoding
  /-- The run ends before the instruction does. -/
  | outOfBytes
  deriving DecidableEq, Repr

/-! ## Lead bytes -/

/-- The lead byte a byte stands for in a mode (30_encoding.md R94, R96); REX exists in 64-bit mode only
(R96, R118). -/
def leadByte? (m : Mode) (b : Byte) : Option LeadByte :=
  if b = 0x66#8 then some .opSize
  else if b = 0x67#8 then some .addrSize
  else if b = 0x2E#8 then some (.seg .cs)
  else if b = 0x36#8 then some (.seg .ss)
  else if b = 0x3E#8 then some (.seg .ds)
  else if b = 0x26#8 then some (.seg .es)
  else if b = 0x64#8 then some (.seg .fs)
  else if b = 0x65#8 then some (.seg .gs)
  else if b = 0xF0#8 then some .lock
  else if b = 0xF2#8 then some .repne
  else if b = 0xF3#8 then some .rep
  else if b.extractLsb' 4 4 = 4#4 ∧ m = .mode64 then
    some (.rex (b.getLsbD 3) (b.getLsbD 2) (b.getLsbD 1) (b.getLsbD 0))
  else none

/-- The byte of a segment override (30_encoding.md R94). -/
def SegReg.byte : SegReg → Byte
  | .cs => 0x2E#8
  | .ss => 0x36#8
  | .ds => 0x3E#8
  | .es => 0x26#8
  | .fs => 0x64#8
  | .gs => 0x65#8

/-- The byte of a lead byte (30_encoding.md R94, R96). -/
def LeadByte.byte : LeadByte → Byte
  | .opSize => 0x66#8
  | .addrSize => 0x67#8
  | .seg s => s.byte
  | .lock => 0xF0#8
  | .repne => 0xF2#8
  | .rep => 0xF3#8
  | .rex w r x b => 4#4 ++ BitVec.ofBool w ++ BitVec.ofBool r ++ BitVec.ofBool x ++ BitVec.ofBool b

/-- The lead bytes at the start of a run and what follows them (30_encoding.md R114 steps 1 and 2). A REX
byte counts as a lead byte wherever it stands, so that a later lead byte makes it ignored (R96; log 17). -/
def scanLead (m : Mode) : List Byte → List LeadByte × List Byte
  | [] => ([], [])
  | b :: t =>
    match leadByte? m b with
    | some p => (p :: (scanLead m t).1, (scanLead m t).2)
    | none => ([], b :: t)

/-! ## Opcode, ModRM, SIB, displacement -/

/-- The four opcode bytes (30_encoding.md R83). -/
def lane? (op : Byte) : Option Lane :=
  if op = 0xFC#8 then some .byte
  else if op = 0xFD#8 then some .word
  else if op = 0xFE#8 then some .dword
  else if op = 0xD4#8 then some .qword
  else none

/-- The opcode byte of a lane width (30_encoding.md R83). -/
def Lane.opcode : Lane → Byte
  | .byte => 0xFC#8
  | .word => 0xFD#8
  | .dword => 0xFE#8
  | .qword => 0xD4#8

/-- Four bytes, the least significant first (30_encoding.md R95). -/
def takeDisp32 : List Byte → Option (BitVec 32 × List Byte)
  | b0 :: b1 :: b2 :: b3 :: t => some (b3 ++ b2 ++ b1 ++ b0, t)
  | _ => none

/-- The displacement that `mod` calls for, `mod` not 11 (30_encoding.md R98, R113). -/
def takeDisp (md : BitVec 2) (t : List Byte) : Option (Disp × List Byte) :=
  if md = 0#2 then some (.noDisp, t)
  else if md = 1#2 then
    match t with
    | b :: t' => some (.disp8 b, t')
    | [] => none
  else
    match takeDisp32 t with
    | some (d, t') => some (.disp32 d, t')
    | none => none

/-- ModRM byte, SIB byte and displacement (30_encoding.md R93, R98): the field `reg`, the `r/m` operand
and the bytes after them. -/
def parseModRm : List Byte → Option (BitVec 3 × RmOperand × List Byte)
  | [] => none
  | mb :: t =>
    let md := mb.extractLsb' 6 2
    let reg := mb.extractLsb' 3 3
    let rm := mb.extractLsb' 0 3
    if md = 3#2 then some (reg, .reg rm, t)
    else if rm = 4#3 then
      match t with
      | [] => none
      | sb :: t' =>
        let scale := sb.extractLsb' 6 2
        let index := sb.extractLsb' 3 3
        let base := sb.extractLsb' 0 3
        if md = 0#2 ∧ base = 5#3 then
          match takeDisp32 t' with
          | some (d, rest) => some (reg, .mem (.sibNoBase scale index d), rest)
          | none => none
        else
          match takeDisp md t' with
          | some (d, rest) => some (reg, .mem (.sib scale index base d), rest)
          | none => none
    else if md = 0#2 ∧ rm = 5#3 then
      match takeDisp32 t with
      | some (d, rest) => some (reg, .mem (.relative d), rest)
      | none => none
    else
      match takeDisp md t with
      | some (d, rest) => some (reg, .mem (.base rm d), rest)
      | none => none

/-! ## Encoder -/

/-- A displacement's four bytes (30_encoding.md R95). -/
def disp32Bytes (d : BitVec 32) : List Byte :=
  [d.extractLsb' 0 8, d.extractLsb' 8 8, d.extractLsb' 16 8, d.extractLsb' 24 8]

/-- The `mod` field of a displacement beside a base register (30_encoding.md R98). -/
def Disp.mod : Disp → BitVec 2
  | .noDisp => 0#2
  | .disp8 _ => 1#2
  | .disp32 _ => 2#2

/-- The bytes of a displacement (30_encoding.md R95). -/
def Disp.bytes : Disp → List Byte
  | .noDisp => []
  | .disp8 d => [d]
  | .disp32 d => disp32Bytes d

/-- The byte with fields of 2, 3 and 3 bits, most significant first: ModRM and SIB
(30_encoding.md R93, R98). -/
def fields233 (hi : BitVec 2) (mid lo : BitVec 3) : Byte :=
  hi ++ mid ++ lo

/-- ModRM, SIB and displacement bytes of an operand (30_encoding.md R93, R98). -/
def RmOperand.bytes (reg : BitVec 3) : RmOperand → List Byte
  | .reg rm => [fields233 3#2 reg rm]
  | .mem (.base rm d) => fields233 d.mod reg rm :: d.bytes
  | .mem (.relative d) => fields233 0#2 reg 5#3 :: disp32Bytes d
  | .mem (.sib sc ix bs d) => fields233 d.mod reg 4#3 :: fields233 sc ix bs :: d.bytes
  | .mem (.sibNoBase sc ix d) => fields233 0#2 reg 4#3 :: fields233 sc ix 5#3 :: disp32Bytes d

/-- The VEX bytes before the opcode, with `mmmmm = 00001` and `pp = 01`
(30_encoding.md R100 to R102). -/
def Vex.bytes (wide : Bool) : Vex → List Byte
  | .two r vvvv =>
      [0xC5#8, BitVec.ofBool (!r) ++ ~~~vvvv ++ BitVec.ofBool wide ++ 1#2]
  | .three r x b w vvvv =>
      [0xC4#8, BitVec.ofBool (!r) ++ BitVec.ofBool (!x) ++ BitVec.ofBool (!b) ++ 1#5,
        BitVec.ofBool w ++ ~~~vvvv ++ BitVec.ofBool wide ++ 1#2]

/-- The two bits `L'L` of a vector length (30_encoding.md R106). -/
def VecLen.ll : VecLen → BitVec 2
  | .vl128 => 0#2
  | .vl256 => 1#2
  | .vl512 => 2#2

/-- The EVEX bytes before the opcode, with `mm = 01`, `pp = 01` (30_encoding.md R105, R106). -/
def Evex.bytes (vl : VecLen) (e : Evex) : List Byte :=
  [0x62#8,
    BitVec.ofBool (!e.r) ++ BitVec.ofBool (!e.x) ++ BitVec.ofBool (!e.b) ++ BitVec.ofBool (!e.rHi) ++ 1#4,
    BitVec.ofBool e.w ++ ~~~e.vvvv ++ 5#3,
    BitVec.ofBool e.z ++ vl.ll ++ BitVec.ofBool e.bcst ++ BitVec.ofBool (!e.vHi) ++ e.aaa]

/-- The bytes of a shape in increasing address order (30_encoding.md R93). -/
def Shape.encode : Shape → List Byte
  | .legacy _ l lead reg rm =>
      lead.map LeadByte.byte ++ (0x0F#8 :: l.opcode :: rm.bytes reg)
  | .vex wide l lead v reg rm =>
      lead.map LeadByte.byte ++ (v.bytes wide ++ (l.opcode :: rm.bytes reg))
  | .evex vl l lead e reg rm =>
      lead.map LeadByte.byte ++ (e.bytes vl ++ (l.opcode :: rm.bytes reg))

/-- The bytes of an instruction (30_encoding.md R93): its words are bytes. -/
def encode (i : Instr) : List Byte :=
  i.shape.encode

/-! ## Length -/

/-- The bytes of a displacement, counted (30_encoding.md R113). -/
def Disp.length : Disp → Nat
  | .noDisp => 0
  | .disp8 _ => 1
  | .disp32 _ => 4

/-- ModRM, SIB and displacement, counted (30_encoding.md R113). -/
def RmOperand.length : RmOperand → Nat
  | .reg _ => 1
  | .mem (.base _ d) => 1 + d.length
  | .mem (.relative _) => 1 + 4
  | .mem (.sib _ _ _ d) => 1 + 1 + d.length
  | .mem (.sibNoBase _ _ _) => 1 + 1 + 4

/-- The length of a legacy form: lead bytes, `0F`, opcode, the rest (30_encoding.md R113). -/
def legacyLength (lead : List LeadByte) (rm : RmOperand) : Nat :=
  lead.length + 2 + rm.length

/-- The length of a VEX form: lead bytes, 2 or 3 VEX bytes, opcode, the rest (30_encoding.md R113). -/
def vexLength (lead : List LeadByte) (v : Vex) (rm : RmOperand) : Nat :=
  lead.length + (match v with | .two _ _ => 2 | .three _ _ _ _ _ => 3) + 1 + rm.length

/-- The length of an EVEX form: lead bytes, 4 EVEX bytes, opcode, the rest (30_encoding.md R113). -/
def evexLength (lead : List LeadByte) (rm : RmOperand) : Nat :=
  lead.length + 4 + 1 + rm.length

/-- The length of a shape in bytes. -/
def Shape.length : Shape → Nat
  | .legacy _ _ lead _ rm => legacyLength lead rm
  | .vex _ _ lead v _ rm => vexLength lead v rm
  | .evex _ _ lead _ _ rm => evexLength lead rm

/-- The length of an instruction in bytes (30_encoding.md R113). -/
def Instr.length (i : Instr) : Nat :=
  i.shape.length

/-- No instruction is longer than this many bytes (30_encoding.md R113). -/
def maxLength : Nat := 15

/-- The 15-byte limit (30_encoding.md R113). -/
def Instr.fits (i : Instr) : Bool :=
  decide (i.length ≤ maxLength)

/-! ## Decoder -/

/-- The last step of decoding: the length limit (30_encoding.md R114 step 5). -/
def Shape.finish (sh : Shape) (rest : List Byte) : Decoded :=
  if sh.length ≤ maxLength then .form sh.instr rest else .tooLong

/-- A legacy form, after the `0F` (30_encoding.md R97, R114 step 3). The #UD of a prefix needs the opcode
byte and no byte after it, while the #GP(0) of the length needs every byte of the form, also where fewer
already settle it (DESIGN CHOICE, log 35); in 32-bit mode the refusal of R118 comes before the length limit of
R113 (DESIGN CHOICE, log 37). -/
def decodeLegacy (m : Mode) (lead : List LeadByte) : List Byte → Decoded
  | [] => .outOfBytes
  | op :: t =>
    match lane? op with
    | none => .notAForm
    | some l =>
      if m = .mode32 ∧ hasAddrSize lead then .mode32Encoding
      else if lead.any LeadByte.forbidden then .ud
      else
        match parseModRm t with
        | none => .outOfBytes
        | some (reg, rm, rest) => (Shape.legacy (hasOpSize lead) l lead reg rm).finish rest

/-- A VEX form, after its header: `wide` is `L`, `mapOk` says that the map and `pp` are those of the
rows (30_encoding.md R102, R104, R114 step 3). In 32-bit mode the #UD of a forbidden lead byte comes before
the refusal of R118 (DESIGN CHOICE, log 34), and that refusal before the length limit of R113 (DESIGN CHOICE,
log 37). The #GP(0) of the length needs every byte of the form, also where fewer already settle it (DESIGN
CHOICE, log 35). -/
def decodeVex (m : Mode) (lead : List LeadByte) (v : Vex) (wide mapOk : Bool) (op : Byte)
    (t : List Byte) : Decoded :=
  if ¬ lead.all LeadByte.beforeVex then .ud
  else if ¬ mapOk then .notAForm
  else
    match lane? op with
    | none => .notAForm
    | some l =>
      if m = .mode32 ∧ ¬ (Shape.vex wide l lead v 0#3 (.reg 0#3)).mode32Ok then .mode32Encoding
      else
        match parseModRm t with
        | none => .outOfBytes
        | some (reg, rm, rest) => (Shape.vex wide l lead v reg rm).finish rest

/-- In 32-bit mode `C4`, `C5` and `62` are LES, LDS and BOUND unless the two top bits of the next byte
are ones (30_encoding.md R118). -/
def otherIn32 (m : Mode) (b : Byte) : Bool :=
  decide (m = .mode32) && decide (b.extractLsb' 6 2 ≠ 3#2)

/-- After `C5` (30_encoding.md R100). No verdict before the opcode byte is there (DESIGN CHOICE, log 35). -/
def decodeVex2 (m : Mode) (lead : List LeadByte) : List Byte → Decoded
  | b1 :: op :: t =>
    if otherIn32 m b1 then .notAForm
    else
      decodeVex m lead (.two (!b1.getLsbD 7) (~~~(b1.extractLsb' 3 4))) (b1.getLsbD 2)
        (decide (b1.extractLsb' 0 2 = 1#2)) op t
  | _ => .outOfBytes

/-- After `C4` (30_encoding.md R101). No verdict before the opcode byte is there (DESIGN CHOICE, log 35). -/
def decodeVex3 (m : Mode) (lead : List LeadByte) : List Byte → Decoded
  | b1 :: b2 :: op :: t =>
    if otherIn32 m b1 then .notAForm
    else
      decodeVex m lead
        (.three (!b1.getLsbD 7) (!b1.getLsbD 6) (!b1.getLsbD 5) (b2.getLsbD 7)
          (~~~(b2.extractLsb' 3 4)))
        (b2.getLsbD 2) (decide (b1.extractLsb' 0 5 = 1#5 ∧ b2.extractLsb' 0 2 = 1#2)) op t
  | _ => .outOfBytes

/-- The vector length of `L'L` (30_encoding.md R106). -/
def vecLen? (ll : BitVec 2) : Option VecLen :=
  if ll = 0#2 then some .vl128
  else if ll = 1#2 then some .vl256
  else if ll = 2#2 then some .vl512
  else none

/-- An EVEX form whose row is known up to its length (30_encoding.md R106 to R112, R114 step 3). In 32-bit
mode the refusal of R118 comes before the #UD of these fields (DESIGN CHOICE, log 21) and before the length
limit of R113 (DESIGN CHOICE, log 37). The #GP(0) of the length needs every byte of the form, also where fewer
already settle it (DESIGN CHOICE, log 35). -/
def decodeEvexFields (m : Mode) (lead : List LeadByte) (ll : BitVec 2) (l : Lane) (e : Evex)
    (t : List Byte) : Decoded :=
  if m = .mode32 ∧ ¬ (Shape.evex .vl128 l lead e 0#3 (.reg 0#3)).mode32Ok then .mode32Encoding
  else
    match vecLen? ll with
    | none => .ud
    | some vl =>
      if ¬ e.wOk l then .ud
      else if ¬ e.maskOk then .ud
      else if ¬ e.nbOk l then .ud
      else
        match parseModRm t with
        | none => .outOfBytes
        | some (reg, rm, rest) =>
          if e.bcst ∧ ¬ rm.isMem then .ud
          else (Shape.evex vl l lead e reg rm).finish rest

/-- After `62` (30_encoding.md R105, R106, R110, R114 step 3). In 32-bit mode the #UD of a forbidden lead
byte and of the reserved bits comes before the refusal of R118 (DESIGN CHOICE, log 34); in either mode no
verdict is given before the opcode byte is there (DESIGN CHOICE, log 35). -/
def decodeEvex (m : Mode) (lead : List LeadByte) : List Byte → Decoded
  | p0 :: p1 :: p2 :: op :: t =>
    if otherIn32 m p0 then .notAForm
    else if ¬ lead.all LeadByte.beforeVex then .ud
    else if p0.extractLsb' 2 2 ≠ 0#2 ∨ ¬ p1.getLsbD 2 then .ud
    else if p0.extractLsb' 0 2 ≠ 1#2 ∨ p1.extractLsb' 0 2 ≠ 1#2 then .notAForm
    else
      match lane? op with
      | none => .notAForm
      | some l =>
        decodeEvexFields m lead (p2.extractLsb' 5 2) l
          { r := !p0.getLsbD 7, x := !p0.getLsbD 6, b := !p0.getLsbD 5, rHi := !p0.getLsbD 4,
            w := p1.getLsbD 7, vvvv := ~~~(p1.extractLsb' 3 4),
            z := p2.getLsbD 7, bcst := p2.getLsbD 4, vHi := !p2.getLsbD 3,
            aaa := p2.extractLsb' 0 3 } t
  | _ => .outOfBytes

/-- What follows the lead bytes (30_encoding.md R114 step 3). -/
def decodeBody (m : Mode) (lead : List LeadByte) : List Byte → Decoded
  | [] => .outOfBytes
  | b :: t =>
    if b = 0x0F#8 then decodeLegacy m lead t
    else if b = 0xC5#8 then decodeVex2 m lead t
    else if b = 0xC4#8 then decodeVex3 m lead t
    else if b = 0x62#8 then decodeEvex m lead t
    else .notAForm

/-- The decode procedure (30_encoding.md R114; in 32-bit mode R118): total on every byte run. In
real-address mode the spec gives no decoder (92_eei_decisions.md D2). -/
def decode (m : Mode) (bs : List Byte) : Decoded :=
  match m with
  | .realAddress => .notAForm
  | .mode64 => decodeBody .mode64 (scanLead .mode64 bs).1 (scanLead .mode64 bs).2
  | .mode32 => decodeBody .mode32 (scanLead .mode32 bs).1 (scanLead .mode32 bs).2

/-! ## Words of the opcode table -/

/-- The low `8 * k` bits of `w` as `k` bytes, the most significant first: the order in which
spec/opcode_table.json writes a row's bytes and numbers its bits (98_reader.md). -/
def bytesHighFirst : Nat → Nat → List Byte
  | 0, _ => []
  | k + 1, w => BitVec.ofNat 8 (w >>> (8 * k)) :: bytesHighFirst k w

/-- The instruction bytes of a table word of `nbits` bits, with zero bytes above them up to the longest
instruction. The table's rows number bit 0 as the least significant bit of their LAST byte (log 2); a
word carries no mandatory prefix but one that stands among its bytes. -/
def tableBytes (nbits w : Nat) : List Byte :=
  bytesHighFirst (nbits / 8) w ++ List.replicate (15 - nbits / 8) 0#8

/-- The instruction the decoder reads, in 64-bit mode, from a word of spec/opcode_table.json. -/
def decodeTableWord (nbits w : Nat) : Option Instr :=
  match decode .mode64 (tableBytes nbits w) with
  | .form i _ => some i
  | _ => none

end Sys2Proof
end

