-- ==== Sys2Proof/Machine/State.lean ====
section
/-!
DEFINITION. The machine's state as plain data (10_state.md), its faults (60_exceptions.md R210), its
refusals, and the state after reset (10_state.md R44).
-/
namespace Sys2Proof.Machine

open Sys2Proof

/-- Memory: (linear address, byte) pairs, addresses strictly rising, no byte equal to what an unlisted
address reads as (20_memory.md R50, R62). -/
abbrev Memory := List Host.Cell

/-- What a byte of memory that no entry lists reads as (DESIGN CHOICE, unsafe, log 8). -/
def unlistedByte : Byte := 0#8

/-- What the address formation and `SegCheck` read of a segment (10_state.md R34, 20_memory.md R54):
its base, whether it is readable, and the lowest and highest offset inside its limit (log 11). -/
structure Segment where
  base : Addr
  readable : Bool
  low : BitVec 32
  high : BitVec 32
  deriving DecidableEq, Repr

/-- The six segments (30_encoding.md R94, R99; 10_state.md R34). -/
structure Segments where
  cs : Segment
  ss : Segment
  ds : Segment
  es : Segment
  fs : Segment
  gs : Segment
  deriving DecidableEq, Repr

/-- Everything the spec gives the machine (INVENTORY.md, State). -/
structure State where
  /-- The open parameters (92_eei_decisions.md); no step changes them (log 7). -/
  cfg : Params
  /-- The operating mode (00_scope.md R7). -/
  mode : Mode
  /-- The current privilege level (10_state.md R38). -/
  cpl : Fin 4
  /-- The instruction pointer (10_state.md R31). -/
  rip : Addr
  /-- The general registers (10_state.md R33). -/
  gpr : Vector Quad 16
  /-- The vector registers, in 512 bits each; bits from `MAXVL` up are zero (10_state.md R20, log 27). -/
  zmm : Vector Vec 32
  /-- The x87 registers `R[0..7]`, whose low 64 bits are `mm[0..7]` (10_state.md R25). -/
  x87 : Vector (BitVec 80) 8
  /-- The x87 tag word (10_state.md R25). -/
  ftw : BitVec 16
  /-- The x87 status word, with `TOP` and `ES` (10_state.md R25, R40). -/
  fsw : BitVec 16
  /-- The opmask registers (10_state.md R27). -/
  k : Vector (BitVec 64) 8
  /-- EFLAGS (10_state.md R29, R30). -/
  eflags : BitVec 32
  /-- CR0 (10_state.md R35). -/
  cr0 : BitVec 32
  /-- CR2, loaded by the delivery of a page fault, which is out of scope (20_memory.md R70,
  60_exceptions.md R237, log 22). -/
  cr2 : Addr
  /-- CR4 (10_state.md R36). -/
  cr4 : BitVec 32
  /-- XCR0 (10_state.md R37). -/
  xcr0 : BitVec 64
  /-- MXCSR, neither read nor written by any form (10_state.md R39). -/
  mxcsr : BitVec 32
  /-- The segments (10_state.md R34). -/
  segs : Segments
  /-- Memory by linear address (20_memory.md R50). -/
  mem : Memory
  /-- The end address of the run, once a program is launched (70_reset_and_hazards.md R266, log 15). -/
  runEnd : Option Nat
  /-- The model's own counter, from which the free choices U9 and U10 are drawn (log 13, log 14). -/
  choices : Nat
  deriving DecidableEq, Repr

/-- The exceptions of 60_exceptions.md R210 as fault outcomes (R235): each holds the `rip` of the faulting
instruction; vector and error code are `Fault.vector` and `Fault.errorCode`. The state is unchanged
(R236). Safe: the run stops where the chip would enter a handler (log 22). -/
inductive Fault where
  /-- #UD, vector 6. Raised by `step` for #UD encodings and by every form's checks
  (60_exceptions.md R212, R215 to R219). Safe. -/
  | ud (rip : Addr)
  /-- #NM, vector 7. Raised by every form when `CR0.TS = 1` (60_exceptions.md R220). Safe. -/
  | nm (rip : Addr)
  /-- #SS(0), vector 12. Raised by a form with a memory operand (60_exceptions.md R228). Safe. -/
  | ss (rip : Addr)
  /-- #GP(0), vector 13. Raised by a form with a memory operand, or by `step` for an instruction longer
  than 15 bytes (60_exceptions.md R229). Safe. -/
  | gp (rip : Addr)
  /-- #PF(code), vector 14, with the first faulting linear address. Raised by a form with a memory
  operand (60_exceptions.md R230). Safe. -/
  | pf (rip : Addr) (code : BitVec 32) (address : Addr)
  /-- #MF, vector 16. Raised by the MMX forms when x87 `ES = 1` (60_exceptions.md R221). Safe. -/
  | mf (rip : Addr)
  /-- #AC(0), vector 17. Raised by the MMX forms and, perhaps, a broadcast (60_exceptions.md R231).
  Safe. -/
  | ac (rip : Addr)
  deriving DecidableEq, Repr

/-- Why the model declines to go on; none of these says anything about the chip. -/
inductive Refusal where
  /-- Raised by `exec` for an instruction that has no meaning yet. Safe. -/
  | notModelled (mnemonic : String)
  /-- Raised by `step` in real-address mode and by a memory operand in it: 16-bit addressing and the
  real-mode decoder are out of scope (00_scope.md, 92_eei_decisions.md D2, log 3). Safe. -/
  | realAddressMode
  /-- Raised by `step`, and by a memory operand, in virtual-8086 mode, `EFLAGS.VM = 1`
  (10_state.md R30, 92_eei_decisions.md D2, log 3). Safe. -/
  | virtual8086Mode
  /-- Raised by `step` when `EFLAGS.TF = 1`: a debug trap would follow, and the model has none
  (60_exceptions.md R254, log 4). Safe. -/
  | singleStep
  /-- Raised by `step` when `rip` is the end address: the run has completed
  (70_reset_and_hazards.md R266, log 15). Safe. -/
  | runCompleted
  /-- Raised by `step` when the instruction extends past the end address
  (70_reset_and_hazards.md R266), or has no end (log 20). Safe. -/
  | pastEnd
  /-- Raised by `step` when `rip` itself is not canonical (log 16). Safe. -/
  | ripNotCanonical
  /-- Raised by `step` when `rip + len` is not canonical or passes the top of the address space
  (10_state.md R32, 92_eei_decisions.md D5, log 16). Safe. -/
  | nextRipNotCanonical
  /-- Raised by `step` for bytes that are none of the 28 forms (30_encoding.md R114). Safe. -/
  | notAForm
  /-- Raised by `step` for a 32-bit-mode encoding the spec leaves open (30_encoding.md R118). Safe. -/
  | mode32Encoding
  /-- Raised by a memory operand with a byte outside `Mapped`, a device perhaps
  (20_memory.md R64). Safe. -/
  | notMapped
  deriving DecidableEq, Repr

/-- What a step answers. -/
abbrev Result := Host.Outcome State Fault Refusal

/-! ## Reset -/

/-- A segment after reset: readable, 64 KiB (PRESUMED, the family's, log 6). -/
def resetSegment (base : Addr) : Segment :=
  { base := base, readable := true, low := 0#32, high := 0xFFFF#32 }

/-- The parameters State.reset carries (DESIGN CHOICE, log 7): the largest implementation, 48 address
bits (00_scope.md R9), no paging, ordinary memory everywhere. -/
def resetParams : Params :=
  { maxVl := .bits512
    features := { mmx := true, sse2 := true, avx := true, avx2 := true, avx512f := true,
                  avx512bw := true, avx512vl := true }
    vaBits := 48
    pages := [{ range := { first := 0, last := 2 ^ 64 - 1 }, user := .maps 0#64,
                supervisor := .maps 0#64 }]
    mapped := [{ first := 0, last := 2 ^ 64 - 1 }] }

/-- The machine right after reset (10_state.md R44; the values R44 does not give: log 5, 6, 7). R44 gives the
numbered general registers with the eight digits of 32 bits: that bits 63:32 of `gpr[0..7]` are 0 is the
model's choice (DESIGN CHOICE, log 5). -/
def State.reset : State :=
  { cfg := resetParams
    mode := .realAddress
    cpl := 0
    rip := 0x0000FFF0#64
    gpr := Vector.replicate 16 0#64
    zmm := Vector.replicate 32 0#512
    x87 := Vector.replicate 8 0#80
    ftw := 0x5555#16
    fsw := 0x0000#16
    k := Vector.replicate 8 0#64
    eflags := 0x00000002#32
    cr0 := 0x60000010#32
    cr2 := 0#64
    cr4 := 0x00000000#32
    xcr0 := 0x0000000000000001#64
    mxcsr := 0x1F80#32
    segs := { cs := resetSegment 0xFFFF0000#64, ss := resetSegment 0#64, ds := resetSegment 0#64,
              es := resetSegment 0#64, fs := resetSegment 0#64, gs := resetSegment 0#64 }
    mem := []
    runEnd := none
    choices := 0 }

end Sys2Proof.Machine
end

