-- ==== Sys2Proof/Machine/Flags.lean ====
section
/-!
DEFINITION. The status and control bits the forms read (10_state.md R30, R35 to R37, R40), and the two
fields an MMX form writes (R26). No form writes a flag of EFLAGS (R29), so there is no flag computation.
-/
namespace Sys2Proof.Machine

/-- `EFLAGS.TF`, bit 8 (60_exceptions.md R254; the position is the family's, log 9). -/
def State.eflagsTf (s : State) : Bool := s.eflags.getLsbD 8

/-- `EFLAGS.VM`, bit 17 (10_state.md R30). -/
def State.eflagsVm (s : State) : Bool := s.eflags.getLsbD 17

/-- `EFLAGS.AC`, bit 18 (10_state.md R30). -/
def State.eflagsAc (s : State) : Bool := s.eflags.getLsbD 18

/-- `CR0.EM`, bit 2 (10_state.md R35). -/
def State.cr0Em (s : State) : Bool := s.cr0.getLsbD 2

/-- `CR0.TS`, bit 3 (10_state.md R35). -/
def State.cr0Ts (s : State) : Bool := s.cr0.getLsbD 3

/-- `CR0.AM`, bit 18 (10_state.md R35). -/
def State.cr0Am (s : State) : Bool := s.cr0.getLsbD 18

/-- `CR4.OSFXSR`, bit 9 (10_state.md R36). -/
def State.cr4Osfxsr (s : State) : Bool := s.cr4.getLsbD 9

/-- `CR4.OSXSAVE`, bit 18 (10_state.md R36). -/
def State.cr4Osxsave (s : State) : Bool := s.cr4.getLsbD 18

/-- `XCR0[2:1]` (10_state.md R37). -/
def State.xcr0Avx (s : State) : BitVec 2 := s.xcr0.extractLsb' 1 2

/-- `XCR0[7:5]` (10_state.md R37). -/
def State.xcr0Avx512 (s : State) : BitVec 3 := s.xcr0.extractLsb' 5 3

/-- The exception-summary bit `ES` of the x87 status word, bit 7 (10_state.md R40). -/
def State.fswEs (s : State) : Bool := s.fsw.getLsbD 7

/-- `TOP` of the x87 status word, bits 13:11 (10_state.md R25). -/
def State.fswTop (s : State) : BitVec 3 := s.fsw.extractLsb' 11 3

/-- A status word with `TOP` set to 0, its other bits as they were (10_state.md R26). -/
def clearTop (fsw : BitVec 16) : BitVec 16 := fsw &&& 0xC7FF#16

/-- Is alignment checking enabled (20_memory.md R61)? -/
def State.alignmentChecking (s : State) : Bool :=
  s.cr0Am && s.eflagsAc && decide (s.cpl = 3)

/-- Whether a memory access is a user or a supervisor access: user when `CPL = 3`
(10_state.md R38, 20_memory.md R70). -/
def State.privilege (s : State) : Privilege :=
  if s.cpl = 3 then .user else .supervisor

/-- Virtual-8086 mode (10_state.md R30). -/
def State.virtual8086 (s : State) : Bool := s.eflagsVm

/-- A mode outside the spec's two (00_scope.md R7): real-address or virtual-8086. -/
def State.outsideModes (s : State) : Bool :=
  decide (s.mode = .realAddress) || s.virtual8086

end Sys2Proof.Machine
end

