-- ==== Sys2Proof/Machine/Lanes.lean ====
section
/-!
DEFINITION. The lane primitives of 00_scope.md: lanes (R10), `AddLanes` (R13, R15), `Broadcast` (R16),
`MaskMerge` (R17).
-/
namespace Sys2Proof.Machine

variable {N : Nat}

/-- Lane `j` of width `w`: bits `w*j + w-1 : w*j` (00_scope.md R10, R15). -/
def lane (w : Nat) (v : BitVec N) (j : Nat) : BitVec w :=
  v.extractLsb' (w * j) w

/-- The value whose lane `j` is `f j` for `j < n`, every higher bit zero. -/
def ofLanes (w : Nat) : Nat → (Nat → BitVec w) → BitVec N
  | 0, _ => 0#N
  | n + 1, f => ofLanes w n f ||| ((f n).setWidth N <<< (w * n))

/-- `AddLanes(w, n, a, b)` (00_scope.md R15): every lane added modulo `2^w` (R13). -/
def addLanes (w n : Nat) (a b : BitVec N) : BitVec N :=
  ofLanes w n fun j => lane w a j + lane w b j

/-- `Broadcast(w, n, e)` (00_scope.md R16). -/
def broadcast {w : Nat} (n : Nat) (e : BitVec w) : BitVec N :=
  ofLanes w n fun _ => e

/-- Does the writemask select lane `j`? `none` is "no writemask" (00_scope.md R17, 10_state.md R28). -/
def maskSelects (m : Option (BitVec 64)) (j : Nat) : Bool :=
  match m with
  | none => true
  | some k => k.getLsbD j

/-- `MaskMerge(w, n, m, z, old, new)` (00_scope.md R17). -/
def maskMerge (w n : Nat) (m : Option (BitVec 64)) (z : Bool) (old new : BitVec N) : BitVec N :=
  ofLanes w n fun j =>
    if maskSelects m j then lane w new j else if z then 0#w else lane w old j

end Sys2Proof.Machine
end

