-- ==== Sys2Proof/Machine/Ops.lean ====
section
/-!
DEFINITION. The named operations over memory and registers, taking an exception, and the memory read of
20_memory.md R57. There is no return from an exception: the spec gives none (60_exceptions.md R238).
-/
namespace Sys2Proof.Machine

open Sys2Proof

/-! ## Memory as data -/

/-- One byte of memory (20_memory.md R50). -/
def Memory.get : Memory → Nat → Byte
  | [], _ => unlistedByte
  | (k, v) :: t, a => if k = a then v else Memory.get t a

/-- An entry in front of a memory whose addresses are higher; nothing when the byte is what an unlisted
address reads as. -/
def Memory.cons (a : Nat) (v : Byte) (t : Memory) : Memory :=
  if v = unlistedByte then t else (a, v) :: t

/-- Writes one byte, keeping the canonical form. No form calls it (20_memory.md R52); a launch does. -/
def Memory.set : Memory → Nat → Byte → Memory
  | [], a, v => Memory.cons a v []
  | (k, x) :: t, a, v =>
    if a < k then Memory.cons a v ((k, x) :: t)
    else if a = k then Memory.cons a v t
    else (k, x) :: Memory.set t a v

/-- Writes bytes at increasing addresses. -/
def Memory.setBytes (m : Memory) (a : Nat) : List Byte → Memory
  | [] => m
  | b :: t => Memory.setBytes (Memory.set m a b) (a + 1) t

/-- The canonical form: addresses strictly rising from `low` on, no entry that an unlisted address
would read as. -/
def Memory.wfFrom (low : Nat) : Memory → Bool
  | [] => true
  | (k, v) :: t => decide (low ≤ k) && decide (v ≠ unlistedByte) && Memory.wfFrom (k + 1) t

/-- The canonical form of memory. -/
def Memory.wf (m : Memory) : Bool := Memory.wfFrom 0 m

/-! ## Exceptions -/

/-- What an instruction can raise (60_exceptions.md R210). -/
inductive Exception where
  | ud
  | nm
  | ss
  | gp
  | pf (code : BitVec 32) (address : Addr)
  | mf
  | ac
  deriving DecidableEq, Repr

/-- The fault an exception becomes, with the saved instruction pointer (60_exceptions.md R235). -/
def Exception.fault (x : Exception) (rip : Addr) : Fault :=
  match x with
  | .ud => .ud rip
  | .nm => .nm rip
  | .ss => .ss rip
  | .gp => .gp rip
  | .pf code address => .pf rip code address
  | .mf => .mf rip
  | .ac => .ac rip

/-- The vector number (60_exceptions.md R210). -/
def Fault.vector : Fault → Nat
  | .ud _ => 6
  | .nm _ => 7
  | .ss _ => 12
  | .gp _ => 13
  | .pf _ _ _ => 14
  | .mf _ => 16
  | .ac _ => 17

/-- The error code, where one comes with the exception (60_exceptions.md R210). -/
def Fault.errorCode : Fault → Option (BitVec 32)
  | .ud _ => none
  | .nm _ => none
  | .ss _ => some 0#32
  | .gp _ => some 0#32
  | .pf _ code _ => some code
  | .mf _ => none
  | .ac _ => some 0#32

/-- The saved instruction pointer: that of the faulting instruction (60_exceptions.md R235). -/
def Fault.rip : Fault → Addr
  | .ud rip => rip
  | .nm rip => rip
  | .ss rip => rip
  | .gp rip => rip
  | .pf rip _ _ => rip
  | .mf rip => rip
  | .ac rip => rip

/-- The faulting linear address of a page fault (60_exceptions.md R235, `extra`). -/
def Fault.address : Fault → Option Addr
  | .pf _ _ a => some a
  | _ => none

/-- TAKING AN EXCEPTION (60_exceptions.md R235 to R237): the step ends in the fault outcome with the
`rip` of the faulting instruction; the state is unchanged and nothing is delivered (log 22). -/
def raise (x : Exception) (s : State) : Result :=
  .fault (x.fault s.rip)

/-- Why an operand could not be read: an exception, or a case the model declines. -/
inductive Stop where
  | exception (x : Exception)
  | refusal (r : Refusal)
  deriving DecidableEq, Repr

/-- The outcome of a stop. -/
def Stop.result (t : Stop) (s : State) : Result :=
  match t with
  | .exception x => raise x s
  | .refusal r => .refused r

/-- The first exception of a table of conditions, in the table's order. -/
def firstException : List (Bool × Exception) → Option Exception
  | [] => none
  | (c, x) :: t => if c then some x else firstException t

/-- One instruction (00_scope.md R18; R140, R150, R160, R180): the checks of its class, then its source
operand, then its effect. -/
def perform {α : Type} (checks : Option Exception) (source : Except Stop α) (effect : α → State)
    (s : State) : Result :=
  match checks with
  | some x => raise x s
  | none =>
    match source with
    | .error t => t.result s
    | .ok v => .next (effect v)

/-! ## Addresses -/

/-- The low 32 bits of an address, zero-extended. -/
def low32 (a : Addr) : Addr := (a.setWidth 32).setWidth 64

/-- An address sum modulo `2^A`: `A` is 64 in 64-bit mode and 32 otherwise (20_memory.md R54). -/
def addAddr (m : Mode) (a b : Addr) : Addr :=
  match m with
  | .mode64 => a + b
  | .mode32 => low32 (a + b)
  | .realAddress => low32 (a + b)

/-- Canonical form (20_memory.md R58): bits `63 : VA_BITS-1` all equal. -/
def canonical (vaBits : Nat) (a : Addr) : Bool :=
  decide ((a.setWidth vaBits).signExtend 64 = a)

/-- The current instruction pointer: in 32-bit mode only the low 32 bits are used (10_state.md R31). -/
def State.ip (s : State) : Addr :=
  match s.mode with
  | .mode64 => s.rip
  | .mode32 => low32 s.rip
  | .realAddress => low32 s.rip

/-- `rip <- rip + len` (10_state.md R32). -/
def State.advance (s : State) (len : Nat) : State :=
  { s with rip := addAddr s.mode s.rip (BitVec.ofNat 64 len) }

/-- A segment's record. -/
def Segments.get (g : Segments) (r : SegReg) : Segment :=
  match r with
  | .cs => g.cs
  | .ss => g.ss
  | .ds => g.ds
  | .es => g.es
  | .fs => g.fs
  | .gs => g.gs

/-- `SegBase` (20_memory.md R54, 10_state.md R34): in 64-bit mode only `FS` and `GS` have a base. -/
def State.segBase (s : State) (r : SegReg) : Addr :=
  match s.mode with
  | .mode64 =>
    match r with
    | .fs => s.segs.fs.base
    | .gs => s.segs.gs.base
    | .cs => 0#64
    | .ss => 0#64
    | .ds => 0#64
    | .es => 0#64
  | .mode32 => (s.segs.get r).base
  | .realAddress => (s.segs.get r).base

/-- `SegCheck(seg, ea, n)` (20_memory.md R54): readable, and bytes `ea` to `ea+n-1` inside the limit
(log 11). -/
def segCheck (g : Segment) (ea : Addr) (n : Nat) : Bool :=
  g.readable && decide (g.low.toNat ≤ ea.toNat) && decide (ea.toNat + n ≤ g.high.toNat + 1)

/-! ## Translation -/

/-- What `Translate` answers (20_memory.md R70). -/
inductive Translation where
  | physical (pa : Addr)
  | pageFault (code : BitVec 32)
  deriving DecidableEq, Repr

/-- The page-fault error code of a read (20_memory.md R70): bit 0 present, bit 1 zero, bit 2 user, the
rest the translation's. -/
def pfCode (present : Bool) (p : Privilege) (other : BitVec 29) : BitVec 32 :=
  other ++ BitVec.ofBool (decide (p = .user)) ++ 0#1 ++ BitVec.ofBool present

/-- What a range does with one of its addresses. -/
def PageAction.translate (act : PageAction) (p : Privilege) (offset : Nat) : Translation :=
  match act with
  | .maps phys => .physical (phys + BitVec.ofNat 64 offset)
  | .faults present other => .pageFault (pfCode present p other)

/-- `Translate(la, read, CPL)` (20_memory.md R70): the first range that holds the address decides; an
address in no range is not present (log 10). -/
def translate : List PageRange → Privilege → Addr → Translation
  | [], p, _ => .pageFault (pfCode false p 0#29)
  | r :: t, p, la =>
    if r.range.contains la.toNat then
      PageAction.translate (match p with | .user => r.user | .supervisor => r.supervisor) p
        (la.toNat - r.range.first)
    else translate t p la

/-! ## The memory read -/

/-- How the alignment check sees an operand (20_memory.md R61): never, always when misaligned to `k`
bytes (MMX), or perhaps (a broadcast, U9). -/
inductive AcRule where
  | never
  | always (k : Nat)
  | perhaps (k : Nat)
  deriving DecidableEq, Repr

/-- One memory operand, its address formed (20_memory.md R51, R54, R55). -/
structure Access where
  /-- The segment (R55). -/
  seg : SegReg
  /-- An `SS` override is in force (R55, U10). -/
  ssOverride : Bool
  /-- The effective address, which `SegCheck` sees. -/
  ea : Addr
  /-- The linear address (R54). -/
  la : Addr
  /-- The number of bytes (R51). -/
  size : Nat
  /-- Must the address be a multiple of 16 (R59)? -/
  aligned16 : Bool
  /-- The alignment check (R61). -/
  ac : AcRule
  deriving DecidableEq, Repr

/-- The linear address of byte `i` of an operand, modulo `2^A` (20_memory.md R54, R57, log 19). -/
def State.byteAddr (s : State) (la : Addr) (i : Nat) : Addr :=
  addAddr s.mode la (BitVec.ofNat 64 i)

/-- The segment fault of an operand (60_exceptions.md R228, R229): #SS(0) in `SS`, #GP(0) elsewhere; in
64-bit mode an `SS` override leaves the choice open (20_memory.md R55, U10, log 14). -/
def segException (s : State) (a : Access) : Exception :=
  if a.ssOverride ∧ s.mode = .mode64 then
    if Config.ssOverrideRaisesSs s.choices then .ss else .gp
  else if a.seg = .ss then .ss
  else .gp

/-- R57 step 1: `SegCheck` in 32-bit mode, canonical bytes in 64-bit mode. Real-address and virtual-8086
addressing is out of scope (log 3). -/
def segStop (s : State) (a : Access) : Option Stop :=
  if s.mode = .realAddress then some (.refusal .realAddressMode)
  else if s.virtual8086 then some (.refusal .virtual8086Mode)
  else if s.mode = .mode32 then
    if segCheck (s.segs.get a.seg) a.ea a.size then none
    else some (.exception (segException s a))
  else if (List.range a.size).all fun i => canonical s.cfg.vaBits (s.byteAddr a.la i) then none
  else some (.exception (segException s a))

/-- R57 step 2: a legacy SSE operand must be 16-byte aligned (20_memory.md R59). -/
def alignStop (a : Access) : Option Stop :=
  if a.aligned16 ∧ a.la.toNat % 16 ≠ 0 then some (.exception .gp) else none

/-- The page fault of one byte, if `Translate` faults on it (20_memory.md R57 step 3). -/
def pageStopAt (s : State) (a : Access) (i : Nat) : Option Stop :=
  match translate s.cfg.pages s.privilege (s.byteAddr a.la i) with
  | .physical _ => none
  | .pageFault code => some (.exception (.pf code (s.byteAddr a.la i)))

/-- R57 step 3: the page fault of the first byte that faults (60_exceptions.md R230, log 24). -/
def pageStop (s : State) (a : Access) : Option Stop :=
  (List.range a.size).findSome? (pageStopAt s a)

/-- R57 step 4: the alignment check (20_memory.md R61, 60_exceptions.md R231). -/
def acStop (s : State) (a : Access) : Option Stop :=
  match a.ac with
  | .never => none
  | .always k =>
    if s.alignmentChecking ∧ a.la.toNat % k ≠ 0 then some (.exception .ac) else none
  | .perhaps k =>
    if s.alignmentChecking ∧ a.la.toNat % k ≠ 0 then
      if Config.bcstMisalignedFaults s.choices then some (.exception .ac) else none
    else none

/-- Is every byte of the operand ordinary readable memory (20_memory.md R64)? -/
def isMapped (s : State) (a : Access) : Bool :=
  (List.range a.size).all fun i => s.cfg.mapped.any fun r => r.contains (s.byteAddr a.la i).toNat

/-- A byte outside `Mapped` refuses, after every fault (20_memory.md R64, log 12). -/
def mappedStop (s : State) (a : Access) : Option Stop :=
  if isMapped s a then none else some (.refusal .notMapped)

/-- The first stop of an operand, in the order of 20_memory.md R57. -/
def memStop (s : State) (a : Access) : Option Stop :=
  (((segStop s a).or (alignStop a)).or (pageStop s a)).or ((acStop s a).or (mappedStop s a))

/-- Little-endian assembly of the operand's bytes (20_memory.md R53). -/
def loadBytes {N : Nat} (s : State) (la : Addr) (size : Nat) : BitVec N :=
  ofLanes 8 size fun i => s.mem.get (s.byteAddr la i).toNat

/-- `MemRead(la, n)` (20_memory.md R57). -/
def memRead {N : Nat} (s : State) (a : Access) : Except Stop (BitVec N) :=
  match memStop s a with
  | some t => .error t
  | none => .ok (loadBytes s a.la a.size)

/-! ## Registers -/

/-- `mm[i]`: the low 64 bits of x87 register `R[i]` (10_state.md R25). -/
def State.mm (s : State) (i : Fin 8) : BitVec 64 := s.x87[i].setWidth 64

/-- Writes `mm[d]` with the side effects of 10_state.md R26: bits 79:64 of `R[d]` all ones, every tag
valid, `TOP` zero. -/
def State.writeMm (s : State) (d : Fin 8) (v : BitVec 64) : State :=
  { s with
    x87 := s.x87.set d (0xFFFF#16 ++ v)
    ftw := 0x0000#16
    fsw := clearTop s.fsw }

/-- The low `n` bits of a vector register: `xmm`, `ymm` or `zmm` (10_state.md R21). -/
def State.vecLow (s : State) (n : Nat) (i : Fin 32) : BitVec n := s.zmm[i].setWidth n

/-- Writes `zmm[d][127:0]` and leaves the upper bits unmodified (10_state.md R23, legacy SSE). -/
def State.writeXmmKeep (s : State) (d : Fin 32) (v : BitVec 128) : State :=
  { s with zmm := s.zmm.set d ((s.zmm[d].extractLsb' 128 384 ++ v : BitVec (384 + 128))) }

/-- Writes the low `n` bits of `zmm[d]` and zeroes the bits above (10_state.md R23, VEX and EVEX). -/
def State.writeVecZero (s : State) {n : Nat} (d : Fin 32) (v : BitVec n) : State :=
  { s with zmm := s.zmm.set d (v.setWidth 512) }

/-- The writemask of an EVEX form: none for `aaa = 000`, else `k[aaa]` (30_encoding.md R108). -/
def State.writemask (s : State) (aaa : BitVec 3) : Option (BitVec 64) :=
  if aaa = 0#3 then none else some s.k[aaa.toNat]

/-- One more free choice may have been drawn (log 13). -/
def State.countChoice (s : State) (b : Bool) : State :=
  { s with choices := if b then s.choices + 1 else s.choices }

end Sys2Proof.Machine
end

