-- ==== Sys2Proof/Machine/Operands.lean ====
section
/-!
DEFINITION. The operand forms: register numbers (30_encoding.md R96, R103, R107), the effective address
(R98, R99, R111), the segment and the linear address (20_memory.md R54, R55), and the source operand of
each class (R51).
-/
namespace Sys2Proof.Machine

open Sys2Proof

/-! ## Register numbers -/

/-- An MMX register number: the three encoded bits alone (30_encoding.md R96). -/
def mmNum (f : BitVec 3) : Fin 8 := ⟨f.toNat, f.isLt⟩

/-- A general register number: `8*X + field` (30_encoding.md R98). -/
def gprNum (hi : Bool) (f : BitVec 3) : Fin 16 :=
  ⟨8 * hi.toNat + f.toNat, by have := f.isLt; have := hi.toNat_le; omega⟩

/-- A vector register number from a ModRM field: `16*hi2 + 8*hi + field`
(30_encoding.md R96, R103, R107). -/
def vecNum (hi2 hi : Bool) (f : BitVec 3) : Fin 32 :=
  ⟨16 * hi2.toNat + 8 * hi.toNat + f.toNat, by
    have := f.isLt; have := hi.toNat_le; have := hi2.toNat_le; omega⟩

/-- A vector register number from `vvvv`: `16*V' + vvvv` (30_encoding.md R103, R107). -/
def vvvvNum (hi2 : Bool) (f : BitVec 4) : Fin 32 :=
  ⟨16 * hi2.toNat + f.toNat, by have := f.isLt; have := hi2.toNat_le; omega⟩

/-- The extension bits of an instruction, un-inverted: `R`, `X`, `B` (30_encoding.md R96, R100, R101). -/
structure Ext where
  r : Bool
  x : Bool
  b : Bool
  deriving DecidableEq, Repr

/-- The extension bits of a legacy form: those of a REX byte that stands last before the `0F`
(30_encoding.md R96). -/
def rexExt (lead : List LeadByte) : Ext :=
  match lead.getLast? with
  | some (.rex _ r x b) => { r := r, x := x, b := b }
  | _ => { r := false, x := false, b := false }

/-- The extension bits of a VEX form (30_encoding.md R100, R101). -/
def vexExt (v : Vex) : Ext :=
  match v with
  | .two r _ => { r := r, x := false, b := false }
  | .three r x b _ _ => { r := r, x := x, b := b }

/-- The field `vvvv` of a VEX form, un-inverted (30_encoding.md R103). -/
def vexVvvv (v : Vex) : BitVec 4 :=
  match v with
  | .two _ f => f
  | .three _ _ _ _ f => f

/-- The extension bits of an EVEX form (30_encoding.md R105, R107). -/
def evexExt (e : Evex) : Ext := { r := e.r, x := e.x, b := e.b }

/-! ## Addresses -/

/-- The segment override in force: the last one (30_encoding.md R94). In 64-bit mode this holds of `2E`,
`36`, `3E`, `26` too, which then cancel an earlier `64` or `65`: the spec leaves this corner open (R94
against R99 and 20_memory.md R55; DESIGN CHOICE, unsafe, log 33). -/
def segOverride : List LeadByte → Option SegReg
  | [] => none
  | .seg s :: t => (segOverride t).or (some s)
  | _ :: t => segOverride t

/-- A displacement as an address: `disp8` times the scale `n` of an EVEX form (1 elsewhere), `disp32`
unscaled, both sign-extended (30_encoding.md R95, R98, R111). -/
def Disp.value (n : Nat) (d : Disp) : Addr :=
  match d with
  | .noDisp => 0#64
  | .disp8 d => d.signExtend 64 * BitVec.ofNat 64 n
  | .disp32 d => d.signExtend 64

/-- The index term of a SIB byte: none for register number 4, else the register times `2^scale`
(30_encoding.md R98). -/
def State.indexTerm (s : State) (x : Bool) (scale : BitVec 2) (index : BitVec 3) : Addr :=
  if gprNum x index = 4 then 0#64 else s.gpr[gprNum x index] <<< scale.toNat

/-- The sum of 30_encoding.md R98, modulo `2^64`. `len` is the instruction's length, `n` the scale of a
`disp8`. In 32-bit mode `mod = 00, rm = 101` is a plain `disp32` (R118). -/
def State.addressSum (s : State) (ext : Ext) (len n : Nat) (m : MemOperand) : Addr :=
  match m with
  | .base rm d => s.gpr[gprNum ext.b rm] + Disp.value n d
  | .relative d =>
    match s.mode with
    | .mode64 => s.rip + BitVec.ofNat 64 len + d.signExtend 64
    | .mode32 => d.signExtend 64
    | .realAddress => d.signExtend 64
  | .sib sc ix bs d => s.gpr[gprNum ext.b bs] + s.indexTerm ext.x sc ix + Disp.value n d
  | .sibNoBase sc ix d => s.indexTerm ext.x sc ix + d.signExtend 64

/-- Are effective addresses 32 bits wide: under `67` in 64-bit mode (30_encoding.md R99), always in
32-bit mode (R118)? -/
def State.address32 (s : State) (lead : List LeadByte) : Bool :=
  match s.mode with
  | .mode64 => hasAddrSize lead
  | .mode32 => true
  | .realAddress => true

/-- The effective address (30_encoding.md R98, R99). -/
def State.effectiveAddress (s : State) (lead : List LeadByte) (ext : Ext) (len n : Nat)
    (m : MemOperand) : Addr :=
  if s.address32 lead then low32 (s.addressSum ext len n m) else s.addressSum ext len n m

/-- The segment without an override: `SS` when the base register is number 4 or 5, else `DS`
(20_memory.md R55). -/
def defaultSeg (ext : Ext) (m : MemOperand) : SegReg :=
  match m with
  | .base rm _ => if gprNum ext.b rm = 4 ∨ gprNum ext.b rm = 5 then .ss else .ds
  | .relative _ => .ds
  | .sib _ _ bs _ => if gprNum ext.b bs = 4 ∨ gprNum ext.b bs = 5 then .ss else .ds
  | .sibNoBase _ _ _ => .ds

/-- The segment of a memory operand (20_memory.md R55): the override, else the default. -/
def operandSeg (lead : List LeadByte) (ext : Ext) (m : MemOperand) : SegReg :=
  (segOverride lead).getD (defaultSeg ext m)

/-- A memory operand of `size` bytes with its address formed (20_memory.md R51, R54, R55). -/
def State.access (s : State) (lead : List LeadByte) (ext : Ext) (len n size : Nat) (aligned16 : Bool)
    (ac : AcRule) (m : MemOperand) : Access :=
  { seg := operandSeg lead ext m
    ssOverride := decide (segOverride lead = some .ss)
    ea := s.effectiveAddress lead ext len n m
    la := addAddr s.mode (s.segBase (operandSeg lead ext m)) (s.effectiveAddress lead ext len n m)
    size := size
    aligned16 := aligned16
    ac := ac }

/-! ## Source operands -/

/-- The memory operand `m64` of an MMX form (40_padd_mmx.md R140, 20_memory.md R61). -/
def State.mmxAccess (s : State) (lead : List LeadByte) (rm : RmOperand) (m : MemOperand) : Access :=
  s.access lead (rexExt lead) (legacyLength lead rm) 1 8 false (.always 8) m

/-- The second source of an MMX form (40_padd_mmx.md R140 step 3). -/
def State.mmxSource (s : State) (lead : List LeadByte) (rm : RmOperand) : Except Stop (BitVec 64) :=
  match rm with
  | .reg f => .ok (s.mm (mmNum f))
  | .mem m => memRead s (s.mmxAccess lead rm m)

/-- The memory operand `m128` of a legacy SSE form (41_padd_sse.md R150, 20_memory.md R59). -/
def State.sseAccess (s : State) (lead : List LeadByte) (rm : RmOperand) (m : MemOperand) : Access :=
  s.access lead (rexExt lead) (legacyLength lead rm) 1 16 true .never m

/-- The second source of a legacy SSE form (41_padd_sse.md R150 step 3). -/
def State.sseSource (s : State) (lead : List LeadByte) (rm : RmOperand) : Except Stop (BitVec 128) :=
  match rm with
  | .reg f => .ok (s.vecLow 128 (vecNum false (rexExt lead).b f))
  | .mem m => memRead s (s.sseAccess lead rm m)

/-- The memory operand of a VEX form of `n` bits (42_vpadd_vex.md R160). -/
def State.vexAccess (s : State) (n : Nat) (lead : List LeadByte) (v : Vex) (rm : RmOperand)
    (m : MemOperand) : Access :=
  s.access lead (vexExt v) (vexLength lead v rm) 1 (n / 8) false .never m

/-- The second source of a VEX form of `n` bits (42_vpadd_vex.md R160 step 3). -/
def State.vexSource (s : State) (n : Nat) (lead : List LeadByte) (v : Vex) (rm : RmOperand) :
    Except Stop (BitVec n) :=
  match rm with
  | .reg f => .ok (s.vecLow n (vecNum false (vexExt v).b f))
  | .mem m => memRead s (s.vexAccess n lead v rm m)

/-- The scale `N` of an EVEX `disp8` (30_encoding.md R111): the size of the memory operand, full or
broadcast. -/
def evexScale (w n : Nat) (e : Evex) : Nat :=
  if e.bcst then w / 8 else n / 8

/-- The memory operand of an EVEX form of `n` bits and lane width `w` (43_vpadd_evex.md R180,
60_exceptions.md R231). -/
def State.evexAccess (s : State) (w n : Nat) (lead : List LeadByte) (e : Evex) (rm : RmOperand)
    (m : MemOperand) : Access :=
  s.access lead (evexExt e) (evexLength lead rm) (evexScale w n e) (evexScale w n e) false
    (if e.bcst then .perhaps (w / 8) else .never) m

/-- The second source of an EVEX form (43_vpadd_evex.md R180 step 3): a register, the whole memory
operand, or one element broadcast. -/
def State.evexSource (s : State) (w n : Nat) (lead : List LeadByte) (e : Evex) (rm : RmOperand) :
    Except Stop (BitVec n) :=
  match rm with
  | .reg f => .ok (s.vecLow n (vecNum e.x e.b f))
  | .mem m =>
    if e.bcst then
      match (memRead s (s.evexAccess w n lead e rm m) : Except Stop (BitVec w)) with
      | .ok v => .ok (broadcast (n / w) v)
      | .error t => .error t
    else memRead s (s.evexAccess w n lead e rm m)

end Sys2Proof.Machine
end

