-- ==== Sys2Proof/Machine/Checks.lean ====
section
/-!
DEFINITION. The fault checks of each exception class that come before the memory operand, in the order of
60_exceptions.md R214, R224, R225, R226, R227 and R232, and the feature flags of each row (R212).
-/
namespace Sys2Proof.Machine

open Sys2Proof

/-! ## Feature flags of the rows (30_encoding.md R81, 60_exceptions.md R212) -/

/-- Rows 1 to 3. -/
def forMmx (f : Features) : Bool := f.mmx

/-- Row 4: `MMX` and, by 92_eei_decisions.md D21, `SSE2`. -/
def forMmxQuad (f : Features) : Bool := f.mmx && f.sse2

/-- Rows 5 to 8. -/
def forSse (f : Features) : Bool := f.sse2

/-- Rows 9 to 12. -/
def forVex128 (f : Features) : Bool := f.avx

/-- Rows 13 to 16. -/
def forVex256 (f : Features) : Bool := f.avx2

/-- Rows 17, 18, 21, 22: both flags. -/
def forEvexNbShort (f : Features) : Bool := f.avx512vl && f.avx512bw

/-- Rows 25, 26. -/
def forEvexNb512 (f : Features) : Bool := f.avx512bw

/-- Rows 19, 20, 23, 24: both flags. -/
def forEvexShort (f : Features) : Bool := f.avx512vl && f.avx512f

/-- Rows 27, 28. -/
def forEvex512 (f : Features) : Bool := f.avx512f

/-! ## #UD from instruction bits (60_exceptions.md R223) -/

/-- A legacy form has none of `F0`, `F2`, `F3` before it (30_encoding.md R97, 60_exceptions.md R213). -/
def legacyBitsOk (lead : List LeadByte) : Bool :=
  !lead.any LeadByte.forbidden

/-- Only segment overrides and `67` stand before a VEX header (30_encoding.md R104). -/
def vexBitsOk (lead : List LeadByte) : Bool :=
  lead.all LeadByte.beforeVex

/-- An EVEX form's bits are none of those that raise #UD (30_encoding.md R108 to R110, R112;
60_exceptions.md R222). -/
def evexBitsOk (l : Lane) (lead : List LeadByte) (e : Evex) (rm : RmOperand) : Bool :=
  lead.all LeadByte.beforeVex && e.wOk l && e.maskOk && e.nbOk l && (!e.bcst || rm.isMem)

/-! ## The classes

Each table begins with what the instruction's own bits raise: #UD, then #GP(0) beyond 15 bytes
(60_exceptions.md R223, R232 step 1). From a step these two never fire, because the decoder has given
their verdict already (30_encoding.md R114). -/

/-- MMX-register class, steps 1 to 3 (60_exceptions.md R214). -/
def mmxChecks (bitsOk : Bool) (len : Nat) (available : Bool) (s : State) : Option Exception :=
  firstException [
    (!bitsOk, .ud),
    (decide (maxLength < len), .gp),
    (!available, .ud),
    (s.cr0Em, .ud),
    (s.cr0Ts, .nm),
    (s.fswEs, .mf)]

/-- Type 4, legacy SSE, steps 1 and 2 (60_exceptions.md R224). -/
def sseChecks (bitsOk : Bool) (len : Nat) (available : Bool) (s : State) : Option Exception :=
  firstException [
    (!bitsOk, .ud),
    (decide (maxLength < len), .gp),
    (!available, .ud),
    (s.cr0Em, .ud),
    (!s.cr4Osfxsr, .ud),
    (s.cr0Ts, .nm)]

/-- Type 4, VEX, steps 1 and 2 (60_exceptions.md R225). A VEX form in real-address or virtual-8086 mode
is #UD (R225, 70_reset_and_hazards.md R261). -/
def vexChecks (bitsOk : Bool) (len : Nat) (available : Bool) (s : State) : Option Exception :=
  firstException [
    (!bitsOk, .ud),
    (decide (maxLength < len), .gp),
    (s.outsideModes, .ud),
    (!available, .ud),
    (!s.cr4Osxsave, .ud),
    (decide (s.xcr0Avx ≠ 3#2), .ud),
    (s.cr0Ts, .nm)]

/-- Types E4 and E4.nb, steps 1 and 2 (60_exceptions.md R226, R227). An EVEX form in real-address or
virtual-8086 mode is #UD (70_reset_and_hazards.md R261). -/
def evexChecks (bitsOk : Bool) (len : Nat) (available : Bool) (s : State) : Option Exception :=
  firstException [
    (!bitsOk, .ud),
    (decide (maxLength < len), .gp),
    (s.outsideModes, .ud),
    (!available, .ud),
    (!s.cr4Osxsave, .ud),
    (decide (s.xcr0Avx ≠ 3#2) || decide (s.xcr0Avx512 ≠ 7#3), .ud),
    (s.cr0Ts, .nm)]

end Sys2Proof.Machine
end

