-- ==== Sys2Proof/Machine/Evex.lean ====
section
/-!
DEFINITION. The EVEX forms, rows 17 to 28 (43_vpadd_evex.md R180 to R192).
-/
namespace Sys2Proof.Machine

open Sys2Proof

/-- The destination of an EVEX form (30_encoding.md R107). -/
def evexDest (e : Evex) (reg : BitVec 3) : Fin 32 :=
  vecNum e.rHi e.r reg

/-- The first source of an EVEX form (30_encoding.md R107). -/
def evexSrc1 (e : Evex) : Fin 32 :=
  vvvvNum e.vHi e.vvvv

/-- The value an EVEX form writes to the low `n` bits of its destination (43_vpadd_evex.md R180 step 4):
the lane sums under the writemask. -/
def State.evexValue (s : State) (w n : Nat) (e : Evex) (reg : BitVec 3) (v2 : BitVec n) : BitVec n :=
  maskMerge w (n / w) (s.writemask e.aaa) e.z (s.vecLow n (evexDest e reg))
    (addLanes w (n / w) (s.vecLow n (evexSrc1 e)) v2)

/-- The state after an EVEX form of `n` bits with lane width `w` and second source `v2`
(43_vpadd_evex.md R180 steps 4 and 5): bits `MAXVL-1:VL` zero. A broadcast may have drawn a free choice
(log 13). -/
def State.evexEffect (s : State) (w n : Nat) (lead : List LeadByte) (e : Evex) (reg : BitVec 3)
    (rm : RmOperand) (v2 : BitVec n) : State :=
  ((s.writeVecZero (evexDest e reg) (s.evexValue w n e reg v2)).countChoice
    (e.bcst && rm.isMem)).advance (evexLength lead rm)

/-- The steps of an EVEX form (43_vpadd_evex.md R180). -/
def execEvex (l : Lane) (n : Nat) (available : Bool) (lead : List LeadByte) (e : Evex) (reg : BitVec 3)
    (rm : RmOperand) (s : State) : Result :=
  perform (evexChecks (evexBitsOk l lead e rm) (evexLength lead rm) available s)
    (s.evexSource l.bits n lead e rm) (s.evexEffect l.bits n lead e reg rm) s

/-- `VPADDB xmm1 k1 z, xmm2, xmm3/m128`, EVEX.128 (43_vpadd_evex.md R181; 60_exceptions.md
R227). -/
def execVpaddbEvexXmm (lead : List LeadByte) (evex : Evex) (reg : BitVec 3) (rm : RmOperand) (s : State) :
    Result :=
  execEvex .byte 128 (forEvexNbShort s.cfg.features) lead evex reg rm s

/-- `VPADDW xmm1 k1 z, xmm2, xmm3/m128`, EVEX.128 (43_vpadd_evex.md R182; 60_exceptions.md
R227). -/
def execVpaddwEvexXmm (lead : List LeadByte) (evex : Evex) (reg : BitVec 3) (rm : RmOperand) (s : State) :
    Result :=
  execEvex .word 128 (forEvexNbShort s.cfg.features) lead evex reg rm s

/-- `VPADDD xmm1 k1 z, xmm2, xmm3/m128/m32bcst`, EVEX.128 (43_vpadd_evex.md R183; 60_exceptions.md
R226). -/
def execVpadddEvexXmm (lead : List LeadByte) (evex : Evex) (reg : BitVec 3) (rm : RmOperand) (s : State) :
    Result :=
  execEvex .dword 128 (forEvexShort s.cfg.features) lead evex reg rm s

/-- `VPADDQ xmm1 k1 z, xmm2, xmm3/m128/m64bcst`, EVEX.128 (43_vpadd_evex.md R184; 60_exceptions.md
R226). -/
def execVpaddqEvexXmm (lead : List LeadByte) (evex : Evex) (reg : BitVec 3) (rm : RmOperand) (s : State) :
    Result :=
  execEvex .qword 128 (forEvexShort s.cfg.features) lead evex reg rm s

/-- `VPADDB ymm1 k1 z, ymm2, ymm3/m256`, EVEX.256 (43_vpadd_evex.md R185; 60_exceptions.md
R227). -/
def execVpaddbEvexYmm (lead : List LeadByte) (evex : Evex) (reg : BitVec 3) (rm : RmOperand) (s : State) :
    Result :=
  execEvex .byte 256 (forEvexNbShort s.cfg.features) lead evex reg rm s

/-- `VPADDW ymm1 k1 z, ymm2, ymm3/m256`, EVEX.256 (43_vpadd_evex.md R186; 60_exceptions.md
R227). -/
def execVpaddwEvexYmm (lead : List LeadByte) (evex : Evex) (reg : BitVec 3) (rm : RmOperand) (s : State) :
    Result :=
  execEvex .word 256 (forEvexNbShort s.cfg.features) lead evex reg rm s

/-- `VPADDD ymm1 k1 z, ymm2, ymm3/m256/m32bcst`, EVEX.256 (43_vpadd_evex.md R187; 60_exceptions.md
R226). -/
def execVpadddEvexYmm (lead : List LeadByte) (evex : Evex) (reg : BitVec 3) (rm : RmOperand) (s : State) :
    Result :=
  execEvex .dword 256 (forEvexShort s.cfg.features) lead evex reg rm s

/-- `VPADDQ ymm1 k1 z, ymm2, ymm3/m256/m64bcst`, EVEX.256 (43_vpadd_evex.md R188; 60_exceptions.md
R226). -/
def execVpaddqEvexYmm (lead : List LeadByte) (evex : Evex) (reg : BitVec 3) (rm : RmOperand) (s : State) :
    Result :=
  execEvex .qword 256 (forEvexShort s.cfg.features) lead evex reg rm s

/-- `VPADDB zmm1 k1 z, zmm2, zmm3/m512`, EVEX.512 (43_vpadd_evex.md R189; 60_exceptions.md
R227). -/
def execVpaddbEvexZmm (lead : List LeadByte) (evex : Evex) (reg : BitVec 3) (rm : RmOperand) (s : State) :
    Result :=
  execEvex .byte 512 (forEvexNb512 s.cfg.features) lead evex reg rm s

/-- `VPADDW zmm1 k1 z, zmm2, zmm3/m512`, EVEX.512 (43_vpadd_evex.md R190; 60_exceptions.md
R227). -/
def execVpaddwEvexZmm (lead : List LeadByte) (evex : Evex) (reg : BitVec 3) (rm : RmOperand) (s : State) :
    Result :=
  execEvex .word 512 (forEvexNb512 s.cfg.features) lead evex reg rm s

/-- `VPADDD zmm1 k1 z, zmm2, zmm3/m512/m32bcst`, EVEX.512 (43_vpadd_evex.md R191; 60_exceptions.md
R226). -/
def execVpadddEvexZmm (lead : List LeadByte) (evex : Evex) (reg : BitVec 3) (rm : RmOperand) (s : State) :
    Result :=
  execEvex .dword 512 (forEvex512 s.cfg.features) lead evex reg rm s

/-- `VPADDQ zmm1 k1 z, zmm2, zmm3/m512/m64bcst`, EVEX.512 (43_vpadd_evex.md R192; 60_exceptions.md
R226). -/
def execVpaddqEvexZmm (lead : List LeadByte) (evex : Evex) (reg : BitVec 3) (rm : RmOperand) (s : State) :
    Result :=
  execEvex .qword 512 (forEvex512 s.cfg.features) lead evex reg rm s

end Sys2Proof.Machine
end

