-- ==== Sys2Proof/Machine/Mmx.lean ====
section
/-!
DEFINITION. The MMX forms, rows 1 to 4 (40_padd_mmx.md R140 to R144).
-/
namespace Sys2Proof.Machine

open Sys2Proof

/-- The state after an MMX form with lane width `w` and second source `v` (40_padd_mmx.md R140 steps 4
to 6). -/
def State.mmxEffect (s : State) (w : Nat) (lead : List LeadByte) (reg : BitVec 3) (rm : RmOperand)
    (v : BitVec 64) : State :=
  (s.writeMm (mmNum reg) (addLanes w (64 / w) (s.mm (mmNum reg)) v)).advance (legacyLength lead rm)

/-- The steps of an MMX form (40_padd_mmx.md R140). -/
def execMmx (w : Nat) (available : Bool) (lead : List LeadByte) (reg : BitVec 3) (rm : RmOperand)
    (s : State) : Result :=
  perform (mmxChecks (legacyBitsOk lead) (legacyLength lead rm) available s)
    (s.mmxSource lead rm) (s.mmxEffect w lead reg rm) s

/-- `PADDB mm, mm/m64` (40_padd_mmx.md R141; 60_exceptions.md R214). -/
def execPaddbMm (lead : List LeadByte) (reg : BitVec 3) (rm : RmOperand) (s : State) : Result :=
  execMmx 8 (forMmx s.cfg.features) lead reg rm s

/-- `PADDW mm, mm/m64` (40_padd_mmx.md R142; 60_exceptions.md R214). -/
def execPaddwMm (lead : List LeadByte) (reg : BitVec 3) (rm : RmOperand) (s : State) : Result :=
  execMmx 16 (forMmx s.cfg.features) lead reg rm s

/-- `PADDD mm, mm/m64` (40_padd_mmx.md R143; 60_exceptions.md R214). -/
def execPadddMm (lead : List LeadByte) (reg : BitVec 3) (rm : RmOperand) (s : State) : Result :=
  execMmx 32 (forMmx s.cfg.features) lead reg rm s

/-- `PADDQ mm, mm/m64` (40_padd_mmx.md R144; 60_exceptions.md R214). -/
def execPaddqMm (lead : List LeadByte) (reg : BitVec 3) (rm : RmOperand) (s : State) : Result :=
  execMmx 64 (forMmxQuad s.cfg.features) lead reg rm s

end Sys2Proof.Machine
end

