-- ==== Sys2Proof/Machine/Sse.lean ====
section
/-!
DEFINITION. The legacy SSE forms, rows 5 to 8 (41_padd_sse.md R150 to R154).
-/
namespace Sys2Proof.Machine

open Sys2Proof

/-- The destination and first source of a legacy SSE form (30_encoding.md R96). -/
def sseDest (lead : List LeadByte) (reg : BitVec 3) : Fin 32 :=
  vecNum false (rexExt lead).r reg

/-- The state after a legacy SSE form with lane width `w` and second source `v` (41_padd_sse.md R150 steps
4 and 5): bits `MAXVL-1:128` unmodified. -/
def State.sseEffect (s : State) (w : Nat) (lead : List LeadByte) (reg : BitVec 3) (rm : RmOperand)
    (v : BitVec 128) : State :=
  (s.writeXmmKeep (sseDest lead reg)
    (addLanes w (128 / w) (s.vecLow 128 (sseDest lead reg)) v)).advance (legacyLength lead rm)

/-- The steps of a legacy SSE form (41_padd_sse.md R150). -/
def execSse (w : Nat) (lead : List LeadByte) (reg : BitVec 3) (rm : RmOperand) (s : State) : Result :=
  perform (sseChecks (legacyBitsOk lead) (legacyLength lead rm) (forSse s.cfg.features) s)
    (s.sseSource lead rm) (s.sseEffect w lead reg rm) s

/-- `PADDB xmm1, xmm2/m128` (41_padd_sse.md R151; 60_exceptions.md R224). -/
def execPaddbXmm (lead : List LeadByte) (reg : BitVec 3) (rm : RmOperand) (s : State) : Result :=
  execSse 8 lead reg rm s

/-- `PADDW xmm1, xmm2/m128` (41_padd_sse.md R152; 60_exceptions.md R224). -/
def execPaddwXmm (lead : List LeadByte) (reg : BitVec 3) (rm : RmOperand) (s : State) : Result :=
  execSse 16 lead reg rm s

/-- `PADDD xmm1, xmm2/m128` (41_padd_sse.md R153; 60_exceptions.md R224). -/
def execPadddXmm (lead : List LeadByte) (reg : BitVec 3) (rm : RmOperand) (s : State) : Result :=
  execSse 32 lead reg rm s

/-- `PADDQ xmm1, xmm2/m128` (41_padd_sse.md R154; 60_exceptions.md R224). -/
def execPaddqXmm (lead : List LeadByte) (reg : BitVec 3) (rm : RmOperand) (s : State) : Result :=
  execSse 64 lead reg rm s

end Sys2Proof.Machine
end

