-- ==== Sys2Proof/Machine/Vex.lean ====
section
/-!
DEFINITION. The VEX forms, rows 9 to 16 (42_vpadd_vex.md R160 to R168).
-/
namespace Sys2Proof.Machine

open Sys2Proof

/-- The destination of a VEX form (30_encoding.md R103). -/
def vexDest (v : Vex) (reg : BitVec 3) : Fin 32 :=
  vecNum false (vexExt v).r reg

/-- The first source of a VEX form (30_encoding.md R103). -/
def vexSrc1 (v : Vex) : Fin 32 :=
  vvvvNum false (vexVvvv v)

/-- The state after a VEX form of `n` bits with lane width `w` and second source `v2` (42_vpadd_vex.md
R160 steps 4 and 5): bits `MAXVL-1:n` zero, with VEX.256 too (90_conflicts.md C3). -/
def State.vexEffect (s : State) (w n : Nat) (lead : List LeadByte) (v : Vex) (reg : BitVec 3)
    (rm : RmOperand) (v2 : BitVec n) : State :=
  (s.writeVecZero (vexDest v reg) (addLanes w (n / w) (s.vecLow n (vexSrc1 v)) v2)).advance
    (vexLength lead v rm)

/-- The steps of a VEX form (42_vpadd_vex.md R160). -/
def execVex (w n : Nat) (available : Bool) (lead : List LeadByte) (v : Vex) (reg : BitVec 3)
    (rm : RmOperand) (s : State) : Result :=
  perform (vexChecks (vexBitsOk lead) (vexLength lead v rm) available s)
    (s.vexSource n lead v rm) (s.vexEffect w n lead v reg rm) s

/-- `VPADDB xmm1, xmm2, xmm3/m128`, VEX.128 (42_vpadd_vex.md R161; 60_exceptions.md R225). -/
def execVpaddbVexXmm (lead : List LeadByte) (vex : Vex) (reg : BitVec 3) (rm : RmOperand) (s : State) :
    Result :=
  execVex 8 128 (forVex128 s.cfg.features) lead vex reg rm s

/-- `VPADDW xmm1, xmm2, xmm3/m128`, VEX.128 (42_vpadd_vex.md R162; 60_exceptions.md R225). -/
def execVpaddwVexXmm (lead : List LeadByte) (vex : Vex) (reg : BitVec 3) (rm : RmOperand) (s : State) :
    Result :=
  execVex 16 128 (forVex128 s.cfg.features) lead vex reg rm s

/-- `VPADDD xmm1, xmm2, xmm3/m128`, VEX.128 (42_vpadd_vex.md R163; 60_exceptions.md R225). -/
def execVpadddVexXmm (lead : List LeadByte) (vex : Vex) (reg : BitVec 3) (rm : RmOperand) (s : State) :
    Result :=
  execVex 32 128 (forVex128 s.cfg.features) lead vex reg rm s

/-- `VPADDQ xmm1, xmm2, xmm3/m128`, VEX.128 (42_vpadd_vex.md R164; 60_exceptions.md R225). -/
def execVpaddqVexXmm (lead : List LeadByte) (vex : Vex) (reg : BitVec 3) (rm : RmOperand) (s : State) :
    Result :=
  execVex 64 128 (forVex128 s.cfg.features) lead vex reg rm s

/-- `VPADDB ymm1, ymm2, ymm3/m256`, VEX.256 (42_vpadd_vex.md R165; 60_exceptions.md R225). -/
def execVpaddbVexYmm (lead : List LeadByte) (vex : Vex) (reg : BitVec 3) (rm : RmOperand) (s : State) :
    Result :=
  execVex 8 256 (forVex256 s.cfg.features) lead vex reg rm s

/-- `VPADDW ymm1, ymm2, ymm3/m256`, VEX.256 (42_vpadd_vex.md R166; 60_exceptions.md R225). -/
def execVpaddwVexYmm (lead : List LeadByte) (vex : Vex) (reg : BitVec 3) (rm : RmOperand) (s : State) :
    Result :=
  execVex 16 256 (forVex256 s.cfg.features) lead vex reg rm s

/-- `VPADDD ymm1, ymm2, ymm3/m256`, VEX.256 (42_vpadd_vex.md R167; 60_exceptions.md R225). -/
def execVpadddVexYmm (lead : List LeadByte) (vex : Vex) (reg : BitVec 3) (rm : RmOperand) (s : State) :
    Result :=
  execVex 32 256 (forVex256 s.cfg.features) lead vex reg rm s

/-- `VPADDQ ymm1, ymm2, ymm3/m256`, VEX.256 (42_vpadd_vex.md R168; 60_exceptions.md R225). -/
def execVpaddqVexYmm (lead : List LeadByte) (vex : Vex) (reg : BitVec 3) (rm : RmOperand) (s : State) :
    Result :=
  execVex 64 256 (forVex256 s.cfg.features) lead vex reg rm s

end Sys2Proof.Machine
end

