-- ==== Sys2Proof/Machine/Dispatch.lean ====
section
/-!
DEFINITION. One arm for each constructor of `Instr`, each a direct call of its meaning.
-/
namespace Sys2Proof.Machine

open Sys2Proof

/-- What each instruction does (30_encoding.md R81; the rule of each meaning stands at its definition). -/
def exec (i : Instr) (s : State) : Host.Outcome State Fault Refusal :=
  match i with
  | .paddbMm lead reg rm => Sys2Proof.Machine.execPaddbMm lead reg rm s
  | .paddwMm lead reg rm => Sys2Proof.Machine.execPaddwMm lead reg rm s
  | .padddMm lead reg rm => Sys2Proof.Machine.execPadddMm lead reg rm s
  | .paddqMm lead reg rm => Sys2Proof.Machine.execPaddqMm lead reg rm s
  | .paddbXmm lead reg rm => Sys2Proof.Machine.execPaddbXmm lead reg rm s
  | .paddwXmm lead reg rm => Sys2Proof.Machine.execPaddwXmm lead reg rm s
  | .padddXmm lead reg rm => Sys2Proof.Machine.execPadddXmm lead reg rm s
  | .paddqXmm lead reg rm => Sys2Proof.Machine.execPaddqXmm lead reg rm s
  | .vpaddbVexXmm lead vex reg rm => Sys2Proof.Machine.execVpaddbVexXmm lead vex reg rm s
  | .vpaddwVexXmm lead vex reg rm => Sys2Proof.Machine.execVpaddwVexXmm lead vex reg rm s
  | .vpadddVexXmm lead vex reg rm => Sys2Proof.Machine.execVpadddVexXmm lead vex reg rm s
  | .vpaddqVexXmm lead vex reg rm => Sys2Proof.Machine.execVpaddqVexXmm lead vex reg rm s
  | .vpaddbVexYmm lead vex reg rm => Sys2Proof.Machine.execVpaddbVexYmm lead vex reg rm s
  | .vpaddwVexYmm lead vex reg rm => Sys2Proof.Machine.execVpaddwVexYmm lead vex reg rm s
  | .vpadddVexYmm lead vex reg rm => Sys2Proof.Machine.execVpadddVexYmm lead vex reg rm s
  | .vpaddqVexYmm lead vex reg rm => Sys2Proof.Machine.execVpaddqVexYmm lead vex reg rm s
  | .vpaddbEvexXmm lead evex reg rm => Sys2Proof.Machine.execVpaddbEvexXmm lead evex reg rm s
  | .vpaddwEvexXmm lead evex reg rm => Sys2Proof.Machine.execVpaddwEvexXmm lead evex reg rm s
  | .vpadddEvexXmm lead evex reg rm => Sys2Proof.Machine.execVpadddEvexXmm lead evex reg rm s
  | .vpaddqEvexXmm lead evex reg rm => Sys2Proof.Machine.execVpaddqEvexXmm lead evex reg rm s
  | .vpaddbEvexYmm lead evex reg rm => Sys2Proof.Machine.execVpaddbEvexYmm lead evex reg rm s
  | .vpaddwEvexYmm lead evex reg rm => Sys2Proof.Machine.execVpaddwEvexYmm lead evex reg rm s
  | .vpadddEvexYmm lead evex reg rm => Sys2Proof.Machine.execVpadddEvexYmm lead evex reg rm s
  | .vpaddqEvexYmm lead evex reg rm => Sys2Proof.Machine.execVpaddqEvexYmm lead evex reg rm s
  | .vpaddbEvexZmm lead evex reg rm => Sys2Proof.Machine.execVpaddbEvexZmm lead evex reg rm s
  | .vpaddwEvexZmm lead evex reg rm => Sys2Proof.Machine.execVpaddwEvexZmm lead evex reg rm s
  | .vpadddEvexZmm lead evex reg rm => Sys2Proof.Machine.execVpadddEvexZmm lead evex reg rm s
  | .vpaddqEvexZmm lead evex reg rm => Sys2Proof.Machine.execVpaddqEvexZmm lead evex reg rm s

end Sys2Proof.Machine
end

