-- ==== Sys2Proof/Machine/Launch.lean ====
section
/-!
DEFINITION. Fetching and the run: what stops a step before it executes, the launch state of
10_state.md R46 and 70_reset_and_hazards.md R266.
-/
namespace Sys2Proof.Machine

open Sys2Proof

/-! ## Fetch -/

/-- The linear address of instruction byte `i` (20_memory.md R50, 10_state.md R31): in 64-bit mode the
code segment has base 0. In 32-bit mode the base of `CS` is added, and the end address of a run is an offset
like `rip`, not a linear address (70_reset_and_hazards.md R266 against R50; DESIGN CHOICE, log 38). -/
def State.codeAddr (s : State) (i : Nat) : Addr :=
  match s.mode with
  | .mode64 => s.rip + BitVec.ofNat 64 i
  | .mode32 => low32 (s.segs.cs.base + s.ip + BitVec.ofNat 64 i)
  | .realAddress => low32 (s.segs.cs.base + s.ip + BitVec.ofNat 64 i)

/-- How many lead bytes stand in a row from instruction byte `i` on, counting at most `fuel` of them
(30_encoding.md R114 steps 1 and 2). -/
def State.leadRun (s : State) : Nat → Nat → Nat
  | 0, _ => 0
  | fuel + 1, i =>
    match leadByte? s.mode (s.mem.get (s.codeAddr i).toNat) with
    | some _ => s.leadRun fuel (i + 1) + 1
    | none => 0

/-- As many bytes as there are linear addresses: no run of lead bytes that ends is longer. -/
def addressCount : Nat := 2 ^ 64

/-- The most bytes a form has after its lead bytes: an EVEX header, opcode, ModRM, SIB and a four-byte
displacement (30_encoding.md R113). -/
def tailLimit : Nat := 11

/-- How many bytes decide what the instruction at `rip` is: its lead bytes, and the most that can follow
them (30_encoding.md R114, log 20). -/
def State.reach (s : State) : Nat := s.leadRun addressCount 0 + tailLimit

/-- The bytes a step may look at: those that decide, and none from the end address on, which is compared
with `rip` (70_reset_and_hazards.md R266, log 38). -/
def State.window (s : State) : Nat :=
  match s.runEnd with
  | none => s.reach
  | some e => min s.reach (e - s.ip.toNat)

/-- The instruction bytes at `rip` (20_memory.md R53, R74): fetching does not fault
(92_eei_decisions.md D11). -/
def State.fetch (s : State) : List Byte :=
  (List.range s.window).map fun i => s.mem.get (s.codeAddr i).toNat

/-! ## What stops a step before it executes -/

/-- Is an instruction pointer canonical? In 64-bit mode only (20_memory.md R58). -/
def State.ripOk (s : State) : Bool :=
  match s.mode with
  | .mode64 => canonical s.cfg.vaBits s.rip
  | .mode32 => true
  | .realAddress => true

/-- The refusals before the fetch: the modes outside the spec (92_eei_decisions.md D2), an armed debug
trap (60_exceptions.md R254), the end of the run (70_reset_and_hazards.md R266), a `rip` that is not
canonical (log 16). -/
def State.stepRefusal (s : State) : Option Refusal :=
  if s.mode = .realAddress then some .realAddressMode
  else if s.virtual8086 then some .virtual8086Mode
  else if s.eflagsTf then some .singleStep
  else if s.runEnd = some s.ip.toNat then some .runCompleted
  else if ¬ s.ripOk then some .ripNotCanonical
  else none

/-- Is `rip + len` an address the next instruction can have (10_state.md R32, 92_eei_decisions.md D5,
log 16)? -/
def State.landingOk (s : State) (len : Nat) : Bool :=
  match s.mode with
  | .mode64 =>
    decide (s.rip.toNat + len < 2 ^ 64) && canonical s.cfg.vaBits (s.rip + BitVec.ofNat 64 len)
  | .mode32 => decide (s.ip.toNat + len < 2 ^ 32)
  | .realAddress => false

/-- What a step does with the decoder's verdict (30_encoding.md R114, R116; 70_reset_and_hazards.md
R266). Bytes run out because the end address cut the instruction off, or because lead bytes fill the
whole address space (log 20); a verdict that the bytes before the end address settle stands, whatever
bytes the instruction would have after it, but the #GP(0) of the length is settled by the last byte of the form
only (DESIGN CHOICE, log 35). The #UD of an instruction's bits and the
#GP(0) of its length come before the test of `rip + len`, and that test before every other fault
(DESIGN CHOICE, log 16, log 36). -/
def runDecoded (run : Instr → State → Result) (s : State) (d : Decoded) : Result :=
  match d with
  | .form i _ => if s.landingOk i.length then run i s else .refused .nextRipNotCanonical
  | .ud => raise .ud s
  | .tooLong => raise .gp s
  | .notAForm => .refused .notAForm
  | .mode32Encoding => .refused .mode32Encoding
  | .outOfBytes => .refused .pastEnd

/-- One step with `run` as the meaning of instructions. -/
def runStep (run : Instr → State → Result) (s : State) : Result :=
  match s.stepRefusal with
  | some r => .refused r
  | none => runDecoded run s (decode s.mode s.fetch)

/-! ## Launch -/

/-- The recommended premises of a launch state (10_state.md R46) over the registers of `s`: 64-bit mode,
`CPL` 3, no fault condition met, no debug trap armed. -/
def State.premises (s : State) : State :=
  { s with
    mode := .mode64
    cpl := 3
    eflags := s.eflags &&& 0xFFFDFEFF#32
    cr0 := s.cr0 &&& 0xFFFBFFF3#32
    cr4 := s.cr4 ||| 0x00040200#32
    xcr0 := s.xcr0 ||| (if s.cfg.features.avx512f then 0xE6#64 else 0x06#64)
    fsw := s.fsw &&& 0xFF7F#16 }

/-- A launch (70_reset_and_hazards.md R266): the premises, the program bytes from `rip` on, the end
address after them (log 1). -/
def State.launch (s : State) (program : List Byte) : State :=
  { s.premises with
    mem := s.mem.setBytes s.rip.toNat program
    runEnd := some (s.rip.toNat + program.length) }

end Sys2Proof.Machine
end

