-- ==== Sys2Proof/Machine/Step.lean ====
section
/-!
DEFINITION. One step of the machine (70_reset_and_hazards.md R266), and the launch of a table word.
-/
namespace Sys2Proof.Machine

open Sys2Proof

/-- One step (70_reset_and_hazards.md R266, 60_exceptions.md R235): fetch at `rip`, decode, execute. -/
def step (s : State) : Host.Outcome State Fault Refusal :=
  runStep exec s

/-- `s` with the instruction of a table word placed where `step` fetches next: the launch of
70_reset_and_hazards.md R266 (log 1, log 2). -/
def State.withFetchWord (s : State) (nbits w : Nat) : State :=
  s.launch (tableBytes nbits w)

end Sys2Proof.Machine
end

