-- ==== Sys2Proof/Machine/Cpuid.lean ====
section
/-!
DEFINITION. What ties `Features` to a chip record: the CPUID leaves and bits of the seven feature flags
(10_state.md R41). The CPUID instruction itself is out of the spec's scope.
-/
namespace Sys2Proof

/-- The three CPUID words that hold the feature flags, as a chip reports them (10_state.md R41). -/
structure CpuidRecord where
  /-- CPUID.01H:EDX. -/
  leaf01Edx : BitVec 32
  /-- CPUID.01H:ECX. -/
  leaf01Ecx : BitVec 32
  /-- CPUID.(EAX=07H,ECX=0):EBX. -/
  leaf07Ebx : BitVec 32
  deriving DecidableEq, Repr

/-- The set `Features` of a chip (10_state.md R41, 00_scope.md R6). -/
def CpuidRecord.features (c : CpuidRecord) : Features :=
  { mmx := c.leaf01Edx.getLsbD 23
    sse2 := c.leaf01Edx.getLsbD 26
    avx := c.leaf01Ecx.getLsbD 28
    avx2 := c.leaf07Ebx.getLsbD 5
    avx512f := c.leaf07Ebx.getLsbD 16
    avx512bw := c.leaf07Ebx.getLsbD 30
    avx512vl := c.leaf07Ebx.getLsbD 31 }

/-- A record whose flags are those of `f`, every other bit clear: the other direction of R41. -/
def Features.record (f : Features) : CpuidRecord :=
  { leaf01Edx := (BitVec.ofBool f.mmx).setWidth 32 <<< 23 ||| (BitVec.ofBool f.sse2).setWidth 32 <<< 26
    leaf01Ecx := (BitVec.ofBool f.avx).setWidth 32 <<< 28
    leaf07Ebx := (BitVec.ofBool f.avx2).setWidth 32 <<< 5 |||
      (BitVec.ofBool f.avx512f).setWidth 32 <<< 16 |||
      (BitVec.ofBool f.avx512bw).setWidth 32 <<< 30 ||| (BitVec.ofBool f.avx512vl).setWidth 32 <<< 31 }

end Sys2Proof
end

