-- ==== Sys2Proof/Machine/Table.lean ====
section
/-!
DEFINITION. The opcode table as 30_encoding.md R125 reads it: the 28 rows of spec/opcode_table.json with
format, `match` and `mask`, the normalised byte run of an instruction, and which rows cover it.
-/
namespace Sys2Proof

/-- The `format` of a row (30_encoding.md R125). The two legacy formats are told apart by the mandatory
prefix: `66` is absent or present. -/
inductive RowFormat where
  | legacyNp
  | legacy66
  | vex
  | evex
  deriving DecidableEq, Repr

/-- One row: `id`, `format`, and `match` and `mask` over the normalised byte run (30_encoding.md R125). -/
structure TableRow where
  id : String
  format : RowFormat
  pattern : List Byte
  mask : List Byte
  deriving DecidableEq, Repr

/-- Rows 1 to 4. -/
def mmxRows : List TableRow := [
  { id := "PADDB_mm_mmm64", format := .legacyNp,
    pattern := [0x0F#8, 0xFC#8], mask := [0xFF#8, 0xFF#8] },
  { id := "PADDW_mm_mmm64", format := .legacyNp,
    pattern := [0x0F#8, 0xFD#8], mask := [0xFF#8, 0xFF#8] },
  { id := "PADDD_mm_mmm64", format := .legacyNp,
    pattern := [0x0F#8, 0xFE#8], mask := [0xFF#8, 0xFF#8] },
  { id := "PADDQ_mm_mmm64", format := .legacyNp,
    pattern := [0x0F#8, 0xD4#8], mask := [0xFF#8, 0xFF#8] }]

/-- Rows 5 to 8. -/
def sseRows : List TableRow := [
  { id := "PADDB_xmm_xmmm128", format := .legacy66,
    pattern := [0x0F#8, 0xFC#8], mask := [0xFF#8, 0xFF#8] },
  { id := "PADDW_xmm_xmmm128", format := .legacy66,
    pattern := [0x0F#8, 0xFD#8], mask := [0xFF#8, 0xFF#8] },
  { id := "PADDD_xmm_xmmm128", format := .legacy66,
    pattern := [0x0F#8, 0xFE#8], mask := [0xFF#8, 0xFF#8] },
  { id := "PADDQ_xmm_xmmm128", format := .legacy66,
    pattern := [0x0F#8, 0xD4#8], mask := [0xFF#8, 0xFF#8] }]

/-- Rows 9 to 16. -/
def vexRows : List TableRow := [
  { id := "VPADDB_xmm_xmm_xmmm128_VEX", format := .vex,
    pattern := [0xC4#8, 0x01#8, 0x01#8, 0xFC#8], mask := [0xFF#8, 0x1F#8, 0x07#8, 0xFF#8] },
  { id := "VPADDW_xmm_xmm_xmmm128_VEX", format := .vex,
    pattern := [0xC4#8, 0x01#8, 0x01#8, 0xFD#8], mask := [0xFF#8, 0x1F#8, 0x07#8, 0xFF#8] },
  { id := "VPADDD_xmm_xmm_xmmm128_VEX", format := .vex,
    pattern := [0xC4#8, 0x01#8, 0x01#8, 0xFE#8], mask := [0xFF#8, 0x1F#8, 0x07#8, 0xFF#8] },
  { id := "VPADDQ_xmm_xmm_xmmm128_VEX", format := .vex,
    pattern := [0xC4#8, 0x01#8, 0x01#8, 0xD4#8], mask := [0xFF#8, 0x1F#8, 0x07#8, 0xFF#8] },
  { id := "VPADDB_ymm_ymm_ymmm256_VEX", format := .vex,
    pattern := [0xC4#8, 0x01#8, 0x05#8, 0xFC#8], mask := [0xFF#8, 0x1F#8, 0x07#8, 0xFF#8] },
  { id := "VPADDW_ymm_ymm_ymmm256_VEX", format := .vex,
    pattern := [0xC4#8, 0x01#8, 0x05#8, 0xFD#8], mask := [0xFF#8, 0x1F#8, 0x07#8, 0xFF#8] },
  { id := "VPADDD_ymm_ymm_ymmm256_VEX", format := .vex,
    pattern := [0xC4#8, 0x01#8, 0x05#8, 0xFE#8], mask := [0xFF#8, 0x1F#8, 0x07#8, 0xFF#8] },
  { id := "VPADDQ_ymm_ymm_ymmm256_VEX", format := .vex,
    pattern := [0xC4#8, 0x01#8, 0x05#8, 0xD4#8], mask := [0xFF#8, 0x1F#8, 0x07#8, 0xFF#8] }]

/-- Rows 17 to 28. -/
def evexRows : List TableRow := [
  { id := "VPADDB_xmm_k_xmm_xmmm128_EVEX", format := .evex,
    pattern := [0x62#8, 0x01#8, 0x05#8, 0x00#8, 0xFC#8], mask := [0xFF#8, 0x0F#8, 0x07#8, 0x70#8, 0xFF#8] },
  { id := "VPADDW_xmm_k_xmm_xmmm128_EVEX", format := .evex,
    pattern := [0x62#8, 0x01#8, 0x05#8, 0x00#8, 0xFD#8], mask := [0xFF#8, 0x0F#8, 0x07#8, 0x70#8, 0xFF#8] },
  { id := "VPADDD_xmm_k_xmm_xmmm128b32_EVEX", format := .evex,
    pattern := [0x62#8, 0x01#8, 0x05#8, 0x00#8, 0xFE#8], mask := [0xFF#8, 0x0F#8, 0x87#8, 0x60#8, 0xFF#8] },
  { id := "VPADDQ_xmm_k_xmm_xmmm128b64_EVEX", format := .evex,
    pattern := [0x62#8, 0x01#8, 0x85#8, 0x00#8, 0xD4#8], mask := [0xFF#8, 0x0F#8, 0x87#8, 0x60#8, 0xFF#8] },
  { id := "VPADDB_ymm_k_ymm_ymmm256_EVEX", format := .evex,
    pattern := [0x62#8, 0x01#8, 0x05#8, 0x20#8, 0xFC#8], mask := [0xFF#8, 0x0F#8, 0x07#8, 0x70#8, 0xFF#8] },
  { id := "VPADDW_ymm_k_ymm_ymmm256_EVEX", format := .evex,
    pattern := [0x62#8, 0x01#8, 0x05#8, 0x20#8, 0xFD#8], mask := [0xFF#8, 0x0F#8, 0x07#8, 0x70#8, 0xFF#8] },
  { id := "VPADDD_ymm_k_ymm_ymmm256b32_EVEX", format := .evex,
    pattern := [0x62#8, 0x01#8, 0x05#8, 0x20#8, 0xFE#8], mask := [0xFF#8, 0x0F#8, 0x87#8, 0x60#8, 0xFF#8] },
  { id := "VPADDQ_ymm_k_ymm_ymmm256b64_EVEX", format := .evex,
    pattern := [0x62#8, 0x01#8, 0x85#8, 0x20#8, 0xD4#8], mask := [0xFF#8, 0x0F#8, 0x87#8, 0x60#8, 0xFF#8] },
  { id := "VPADDB_zmm_k_zmm_zmmm512_EVEX", format := .evex,
    pattern := [0x62#8, 0x01#8, 0x05#8, 0x40#8, 0xFC#8], mask := [0xFF#8, 0x0F#8, 0x07#8, 0x70#8, 0xFF#8] },
  { id := "VPADDW_zmm_k_zmm_zmmm512_EVEX", format := .evex,
    pattern := [0x62#8, 0x01#8, 0x05#8, 0x40#8, 0xFD#8], mask := [0xFF#8, 0x0F#8, 0x07#8, 0x70#8, 0xFF#8] },
  { id := "VPADDD_zmm_k_zmm_zmmm512b32_EVEX", format := .evex,
    pattern := [0x62#8, 0x01#8, 0x05#8, 0x40#8, 0xFE#8], mask := [0xFF#8, 0x0F#8, 0x87#8, 0x60#8, 0xFF#8] },
  { id := "VPADDQ_zmm_k_zmm_zmmm512b64_EVEX", format := .evex,
    pattern := [0x62#8, 0x01#8, 0x85#8, 0x40#8, 0xD4#8], mask := [0xFF#8, 0x0F#8, 0x87#8, 0x60#8, 0xFF#8] }]

/-- The 28 rows in the order of spec/opcode_table.json. -/
def tableRows : List TableRow := mmxRows ++ sseRows ++ vexRows ++ evexRows

/-- A VEX header in its three-byte spelling (30_encoding.md R100, R125). -/
def Vex.widened : Vex → Vex
  | .two r vvvv => .three r false false false vvvv
  | .three r x b w vvvv => .three r x b w vvvv

/-- The normalised byte run of a form (30_encoding.md R125): `0F op` after the prefixes of a legacy form,
the three-byte VEX header and the opcode, the EVEX header and the opcode. -/
def Shape.normalised : Shape → List Byte
  | .legacy _ l _ _ _ => [0x0F#8, l.opcode]
  | .vex wide l _ v _ _ => v.widened.bytes wide ++ [l.opcode]
  | .evex vl l _ e _ _ => e.bytes vl ++ [l.opcode]

/-- The format a form belongs to: of a legacy form, by the presence of `66` among its prefixes
(30_encoding.md R125, R97). -/
def Shape.format : Shape → RowFormat
  | .legacy _ _ lead _ _ => if hasOpSize lead then .legacy66 else .legacyNp
  | .vex _ _ _ _ _ _ => .vex
  | .evex _ _ _ _ _ _ => .evex

/-- A byte run is of a row: the format fits and `(bytes AND mask) = match` (30_encoding.md R125). -/
def TableRow.covers (row : TableRow) (sh : Shape) : Bool :=
  decide (row.format = sh.format) &&
    decide (List.zipWith (fun byte m => byte &&& m) sh.normalised row.mask = row.pattern)

/-- The `id` of the row that each constructor stands for. -/
def Instr.rowId : Instr → String
  | .paddbMm _ _ _ => "PADDB_mm_mmm64"
  | .paddwMm _ _ _ => "PADDW_mm_mmm64"
  | .padddMm _ _ _ => "PADDD_mm_mmm64"
  | .paddqMm _ _ _ => "PADDQ_mm_mmm64"
  | .paddbXmm _ _ _ => "PADDB_xmm_xmmm128"
  | .paddwXmm _ _ _ => "PADDW_xmm_xmmm128"
  | .padddXmm _ _ _ => "PADDD_xmm_xmmm128"
  | .paddqXmm _ _ _ => "PADDQ_xmm_xmmm128"
  | .vpaddbVexXmm _ _ _ _ => "VPADDB_xmm_xmm_xmmm128_VEX"
  | .vpaddwVexXmm _ _ _ _ => "VPADDW_xmm_xmm_xmmm128_VEX"
  | .vpadddVexXmm _ _ _ _ => "VPADDD_xmm_xmm_xmmm128_VEX"
  | .vpaddqVexXmm _ _ _ _ => "VPADDQ_xmm_xmm_xmmm128_VEX"
  | .vpaddbVexYmm _ _ _ _ => "VPADDB_ymm_ymm_ymmm256_VEX"
  | .vpaddwVexYmm _ _ _ _ => "VPADDW_ymm_ymm_ymmm256_VEX"
  | .vpadddVexYmm _ _ _ _ => "VPADDD_ymm_ymm_ymmm256_VEX"
  | .vpaddqVexYmm _ _ _ _ => "VPADDQ_ymm_ymm_ymmm256_VEX"
  | .vpaddbEvexXmm _ _ _ _ => "VPADDB_xmm_k_xmm_xmmm128_EVEX"
  | .vpaddwEvexXmm _ _ _ _ => "VPADDW_xmm_k_xmm_xmmm128_EVEX"
  | .vpadddEvexXmm _ _ _ _ => "VPADDD_xmm_k_xmm_xmmm128b32_EVEX"
  | .vpaddqEvexXmm _ _ _ _ => "VPADDQ_xmm_k_xmm_xmmm128b64_EVEX"
  | .vpaddbEvexYmm _ _ _ _ => "VPADDB_ymm_k_ymm_ymmm256_EVEX"
  | .vpaddwEvexYmm _ _ _ _ => "VPADDW_ymm_k_ymm_ymmm256_EVEX"
  | .vpadddEvexYmm _ _ _ _ => "VPADDD_ymm_k_ymm_ymmm256b32_EVEX"
  | .vpaddqEvexYmm _ _ _ _ => "VPADDQ_ymm_k_ymm_ymmm256b64_EVEX"
  | .vpaddbEvexZmm _ _ _ _ => "VPADDB_zmm_k_zmm_zmmm512_EVEX"
  | .vpaddwEvexZmm _ _ _ _ => "VPADDW_zmm_k_zmm_zmmm512_EVEX"
  | .vpadddEvexZmm _ _ _ _ => "VPADDD_zmm_k_zmm_zmmm512b32_EVEX"
  | .vpaddqEvexZmm _ _ _ _ => "VPADDQ_zmm_k_zmm_zmmm512b64_EVEX"

end Sys2Proof
end

