-- ==== Sys2Proof/Safety.lean ====
section
/-!
DEFINITION. The terms that claims use: when a form's class raises nothing (70_reset_and_hazards.md R262),
when a memory operand can be read (20_memory.md R57), what a second source is worth, the invariant of the
machine, what no step changes, and a run without a fault.
-/
namespace Sys2Proof.Machine

open Sys2Proof

/-! ## When the checks of a class pass (70_reset_and_hazards.md R262) -/

/-- Nothing stops an MMX form before its operand (60_exceptions.md R214). -/
abbrev State.ReadyMmx (s : State) : Prop :=
  s.cr0Em = false ∧ s.cr0Ts = false ∧ s.fswEs = false

/-- Nothing but a missing feature stops a legacy SSE form before its operand (60_exceptions.md R224). -/
abbrev State.ReadySse (s : State) : Prop :=
  s.cr0Em = false ∧ s.cr4Osfxsr = true ∧ s.cr0Ts = false

/-- Nothing but a missing feature stops a VEX form before its operand (60_exceptions.md R225). -/
abbrev State.ReadyVex (s : State) : Prop :=
  s.outsideModes = false ∧ s.cr4Osxsave = true ∧ s.xcr0Avx = 3#2 ∧ s.cr0Ts = false

/-- Nothing but a missing feature stops an EVEX form before its operand (60_exceptions.md R226). -/
abbrev State.ReadyEvex (s : State) : Prop :=
  s.outsideModes = false ∧ s.cr4Osxsave = true ∧ s.xcr0Avx = 3#2 ∧ s.xcr0Avx512 = 7#3 ∧
    s.cr0Ts = false

/-! ## When a memory operand can be read (20_memory.md R57) -/

/-- The alignment check raises nothing (20_memory.md R61): it is off, the address is aligned, or the free
choice of 93_implementation_defined.md U9 lets a broadcast pass (log 13). -/
abbrev AcRule.Passes (r : AcRule) (s : State) (la : Addr) : Prop :=
  match r with
  | .never => True
  | .always k => s.alignmentChecking = false ∨ la.toNat % k = 0
  | .perhaps k => s.alignmentChecking = false ∨ la.toNat % k = 0 ∨
      Config.bcstMisalignedFaults s.choices = false

/-- Every byte of the operand lies in its segment and is canonical (20_memory.md R57 step 1). -/
abbrev Access.InSegment (a : Access) (s : State) : Prop :=
  s.virtual8086 = false ∧
    ((s.mode = .mode64 ∧ ∀ i < a.size, canonical s.cfg.vaBits (s.byteAddr a.la i) = true) ∨
      (s.mode = .mode32 ∧ segCheck (s.segs.get a.seg) a.ea a.size = true))

/-- `Translate` gives a physical address. -/
def Translation.isPhysical : Translation → Bool
  | .physical _ => true
  | .pageFault _ => false

/-- Every byte of the operand is translated (20_memory.md R57 step 3). -/
abbrev Access.Translated (a : Access) (s : State) : Prop :=
  ∀ i < a.size, (translate s.cfg.pages s.privilege (s.byteAddr a.la i)).isPhysical = true

/-- Every byte of the operand is ordinary memory (20_memory.md R64). -/
abbrev Access.Mapped (a : Access) (s : State) : Prop :=
  ∀ i < a.size, ∃ r ∈ s.cfg.mapped, r.contains (s.byteAddr a.la i).toNat = true

/-- The address is a multiple of 16 where the form needs it (20_memory.md R59). -/
abbrev Access.Aligned (a : Access) : Prop :=
  a.aligned16 = true → a.la.toNat % 16 = 0

/-- The operand can be read: no check of 20_memory.md R57 stops it. -/
abbrev Access.Readable (a : Access) (s : State) : Prop :=
  a.InSegment s ∧ a.Aligned ∧ a.Translated s ∧ a.ac.Passes s a.la ∧ a.Mapped s

/-! ## The value of a second source -/

/-- `v` is the second source of an MMX form, and can be read (40_padd_mmx.md R140 step 3). -/
def State.MmxSourceIs (s : State) (lead : List LeadByte) (rm : RmOperand) (v : BitVec 64) : Prop :=
  match rm with
  | .reg f => v = s.mm (mmNum f)
  | .mem m => (s.mmxAccess lead rm m).Readable s ∧ v = loadBytes s (s.mmxAccess lead rm m).la 8

/-- `v` is the second source of a legacy SSE form, and can be read (41_padd_sse.md R150 step 3). -/
def State.SseSourceIs (s : State) (lead : List LeadByte) (rm : RmOperand) (v : BitVec 128) : Prop :=
  match rm with
  | .reg f => v = s.vecLow 128 (vecNum false (rexExt lead).b f)
  | .mem m => (s.sseAccess lead rm m).Readable s ∧ v = loadBytes s (s.sseAccess lead rm m).la 16

/-- `v2` is the second source of a VEX form of `n` bits, and can be read (42_vpadd_vex.md R160 step 3). -/
def State.VexSourceIs (s : State) (n : Nat) (lead : List LeadByte) (v : Vex) (rm : RmOperand)
    (v2 : BitVec n) : Prop :=
  match rm with
  | .reg f => v2 = s.vecLow n (vecNum false (vexExt v).b f)
  | .mem m =>
    (s.vexAccess n lead v rm m).Readable s ∧ v2 = loadBytes s (s.vexAccess n lead v rm m).la (n / 8)

/-- `v2` is the second source of an EVEX form of `n` bits and lane width `w`, and can be read
(43_vpadd_evex.md R180 step 3): under a broadcast every lane is the one element. -/
def State.EvexSourceIs (s : State) (w n : Nat) (lead : List LeadByte) (e : Evex) (rm : RmOperand)
    (v2 : BitVec n) : Prop :=
  match rm with
  | .reg f => v2 = s.vecLow n (vecNum e.x e.b f)
  | .mem m =>
    (s.evexAccess w n lead e rm m).Readable s ∧
      if e.bcst then
        ∀ j < n / w, lane w v2 j = loadBytes s (s.evexAccess w n lead e rm m).la (w / 8)
      else v2 = loadBytes s (s.evexAccess w n lead e rm m).la (n / 8)

end Sys2Proof.Machine

namespace Sys2Proof

open Sys2Proof.Machine

/-! ## Forms by class -/

/-- The CPUID flags of each row are in `Features` (30_encoding.md R81; row 4: 92_eei_decisions.md D21). -/
def Shape.available (f : Features) : Shape → Bool
  | .legacy false .byte _ _ _ => f.mmx
  | .legacy false .word _ _ _ => f.mmx
  | .legacy false .dword _ _ _ => f.mmx
  | .legacy false .qword _ _ _ => f.mmx && f.sse2
  | .legacy true _ _ _ _ => f.sse2
  | .vex false _ _ _ _ _ => f.avx
  | .vex true _ _ _ _ _ => f.avx2
  | .evex .vl512 .byte _ _ _ _ => f.avx512bw
  | .evex .vl512 .word _ _ _ _ => f.avx512bw
  | .evex .vl512 .dword _ _ _ _ => f.avx512f
  | .evex .vl512 .qword _ _ _ _ => f.avx512f
  | .evex .vl128 .byte _ _ _ _ => f.avx512vl && f.avx512bw
  | .evex .vl128 .word _ _ _ _ => f.avx512vl && f.avx512bw
  | .evex .vl128 .dword _ _ _ _ => f.avx512vl && f.avx512f
  | .evex .vl128 .qword _ _ _ _ => f.avx512vl && f.avx512f
  | .evex .vl256 .byte _ _ _ _ => f.avx512vl && f.avx512bw
  | .evex .vl256 .word _ _ _ _ => f.avx512vl && f.avx512bw
  | .evex .vl256 .dword _ _ _ _ => f.avx512vl && f.avx512f
  | .evex .vl256 .qword _ _ _ _ => f.avx512vl && f.avx512f

/-- The exception classes (60_exceptions.md R211): MMX registers, Type 4 of the legacy SSE forms, Type 4
of the VEX forms, E4 and E4.nb of the EVEX forms. -/
inductive FormClass where
  | mmx
  | sse
  | vex
  | evex
  deriving DecidableEq, Repr

/-- The exception class of a form (60_exceptions.md R211). -/
def Shape.cls : Shape → FormClass
  | .legacy false _ _ _ _ => .mmx
  | .legacy true _ _ _ _ => .sse
  | .vex _ _ _ _ _ _ => .vex
  | .evex _ _ _ _ _ _ => .evex

/-- The lead bytes of a form (30_encoding.md R93). -/
def Shape.lead : Shape → List LeadByte
  | .legacy _ _ lead _ _ => lead
  | .vex _ _ lead _ _ _ => lead
  | .evex _ _ lead _ _ _ => lead

/-- The form's own bits raise no #UD (60_exceptions.md R223, R232 step 1). -/
def Shape.bitsOk : Shape → Bool
  | .legacy _ _ lead _ _ => legacyBitsOk lead
  | .vex _ _ lead _ _ _ => vexBitsOk lead
  | .evex _ l lead e _ rm => evexBitsOk l lead e rm

/-- No #UD condition of the features or of the control bits holds (60_exceptions.md R212, R215 to R219;
70_reset_and_hazards.md R261 for the modes outside the spec's two). -/
def Shape.noUd (s : State) (sh : Shape) : Bool :=
  sh.available s.cfg.features &&
    match sh.cls with
    | .mmx => !s.cr0Em
    | .sse => !s.cr0Em && s.cr4Osfxsr
    | .vex => !s.outsideModes && s.cr4Osxsave && decide (s.xcr0Avx = 3#2)
    | .evex => !s.outsideModes && s.cr4Osxsave && decide (s.xcr0Avx = 3#2) &&
        decide (s.xcr0Avx512 = 7#3)

/-- The control bits let the class run (70_reset_and_hazards.md R262). -/
def Shape.ControlsAllow (s : State) : Shape → Prop
  | .legacy false _ _ _ _ => s.ReadyMmx
  | .legacy true _ _ _ _ => s.ReadySse
  | .vex _ _ _ _ _ _ => s.ReadyVex
  | .evex _ _ _ _ _ _ => s.ReadyEvex

/-- Nothing stops the form before its memory operand: it is well-formed and not too long, its features are
there, its class's control bits allow it. -/
abbrev Instr.Ready (i : Instr) (s : State) : Prop :=
  i.wellFormed = true ∧ i.fits = true ∧ i.shape.available s.cfg.features = true ∧
    i.shape.ControlsAllow s

/-- The memory operand of a form, its address formed (20_memory.md R51, R54). -/
def Shape.access (s : State) : Shape → Option Access
  | .legacy false _ lead _ (.mem m) => some (s.mmxAccess lead (.mem m) m)
  | .legacy true _ lead _ (.mem m) => some (s.sseAccess lead (.mem m) m)
  | .vex false _ lead v _ (.mem m) => some (s.vexAccess 128 lead v (.mem m) m)
  | .vex true _ lead v _ (.mem m) => some (s.vexAccess 256 lead v (.mem m) m)
  | .evex vl l lead e _ (.mem m) => some (s.evexAccess l.bits vl.bits lead e (.mem m) m)
  | _ => none

/-- The memory operand of an instruction. -/
def Instr.access (i : Instr) (s : State) : Option Access := i.shape.access s

end Sys2Proof

namespace Sys2Proof.Machine

open Sys2Proof

/-! ## The start of a step -/

/-- Nothing refuses the step before its fetch (92_eei_decisions.md D2, 60_exceptions.md R254,
70_reset_and_hazards.md R266). -/
abbrev State.Runnable (s : State) : Prop :=
  s.mode ≠ .realAddress ∧ s.virtual8086 = false ∧ s.eflagsTf = false ∧
    s.runEnd ≠ some s.ip.toNat ∧ s.ripOk = true

/-! ## The invariant -/

/-- `rip` is one the mode can have: canonical in 64-bit mode, 32 bits in 32-bit mode
(10_state.md R31, R32). -/
def State.ripInRange (s : State) : Bool :=
  match s.mode with
  | .mode64 => canonical s.cfg.vaBits s.rip
  | .mode32 => decide (s.rip.toNat < 2 ^ 32)
  | .realAddress => decide (s.rip.toNat < 2 ^ 32)

/-- `rip` has not passed the end address (70_reset_and_hazards.md R266). -/
def State.insideRun (s : State) : Bool :=
  match s.runEnd with
  | none => true
  | some e => decide (s.ip.toNat ≤ e)

/-- What holds at reset and is kept by every step: memory is in canonical form; `MAXVL` is at least what
`Features` need (00_scope.md R6; that it is also the width of R5 is `Params.consistent`); no vector register holds a bit from `MAXVL` up (10_state.md R20), no opmask
register a bit from 16 up without `AVX512BW` (10_state.md R27); `rip` is in range and inside the run. -/
abbrev State.Inv (s : State) : Prop :=
  s.mem.wf = true ∧ s.cfg.needsMet = true ∧
    (∀ i : Fin 32, s.zmm[i].toNat < 2 ^ s.cfg.maxVl.bits) ∧
    (s.cfg.features.avx512bw = true ∨ ∀ i : Fin 8, s.k[i].toNat < 2 ^ 16) ∧
    s.ripInRange = true ∧ s.insideRun = true

/-! ## What no step changes -/

/-- `t` differs from `s` at most in the vector registers, the x87 state, `rip` and the model's counter:
memory, general registers, opmask registers, EFLAGS, every control register, the mode, `CPL`, the
segments, the parameters and the end address are those of `s` (20_memory.md R52, 10_state.md R28, R29,
R33, section "Control and status bits"). -/
structure State.KeepsAllButData (s t : State) : Prop where
  cfg : t.cfg = s.cfg
  mode : t.mode = s.mode
  cpl : t.cpl = s.cpl
  gpr : t.gpr = s.gpr
  k : t.k = s.k
  eflags : t.eflags = s.eflags
  cr0 : t.cr0 = s.cr0
  cr2 : t.cr2 = s.cr2
  cr4 : t.cr4 = s.cr4
  xcr0 : t.xcr0 = s.xcr0
  mxcsr : t.mxcsr = s.mxcsr
  segs : t.segs = s.segs
  mem : t.mem = s.mem
  runEnd : t.runEnd = s.runEnd

/-- An outcome with its next state, if it has one, changed by `g`: by this a statement says that a piece
of state takes no part in a step. -/
def mapNext (g : State → State) : Result → Result
  | .next t => .next (g t)
  | .fault f => .fault f
  | .refused r => .refused r

/-- A run that never ends in a fault. -/
def SafeRun (s : State) : Prop :=
  ∀ k f, Sys2Proof.core.run k s ≠ .fault f

end Sys2Proof.Machine
end

