-- ==== Sys2Proof/Certificates/Slice0/Obligations.lean ====
section
/-!
DEFINITION. The statements for the provers, from the numbered rules of spec/.
-/

open Sys2Proof Sys2Proof.Machine

/-! ## Encoding (30_encoding.md) -/

/-- R93 to R114 in 64-bit mode: the decoder gives back every well-formed instruction of at most 15
bytes from its encoding, whatever bytes follow. -/
def Obligations.DecodeOfEncodeMode64 : Prop :=
  ∀ (i : Instr) (rest : List Byte), i.wellFormed = true → i.fits = true →
    decode .mode64 (encode i ++ rest) = .form i rest

/-- R118: the same in 32-bit mode, for the encodings that mode admits. -/
def Obligations.DecodeOfEncodeMode32 : Prop :=
  ∀ (i : Instr) (rest : List Byte), i.wellFormed = true → i.fits = true →
    i.admitted .mode32 = true → decode .mode32 (encode i ++ rest) = .form i rest

/-- R114, R118, the other direction: what decodes to an instruction is its encoding and the bytes after
it, the instruction is well-formed, at most 15 bytes long, and one the mode admits. R125: exactly one row
of the opcode table covers it, the row of its constructor. -/
def Obligations.DecodeGivesTheEncoding : Prop :=
  ∀ (m : Mode) (bs : List Byte) (i : Instr) (rest : List Byte), decode m bs = .form i rest →
    bs = encode i ++ rest ∧ i.wellFormed = true ∧ i.fits = true ∧ i.admitted m = true ∧
    (tableRows.filter fun row => row.covers i.shape).map TableRow.id = [i.rowId]

/-- Words of 95_test_vectors.md V5, one of each class and operand kind, decode to the instructions they
stand for. -/
def Obligations.SampleWordsDecode : Prop :=
  decode .mode64 [0x0F#8, 0xFC#8, 0xC1#8] = .form (.paddbMm [] 0#3 (.reg 1#3)) [] ∧
  decode .mode64 [0x0F#8, 0xFE#8, 0x5C#8, 0x88#8, 0x10#8] =
    .form (.padddMm [] 3#3 (.mem (.sib 2#2 1#3 0#3 (.disp8 0x10#8)))) [] ∧
  decode .mode64 [0x66#8, 0x45#8, 0x0F#8, 0xFD#8, 0xC7#8] =
    .form (.paddwXmm [.opSize, .rex false true false true] 0#3 (.reg 7#3)) [] ∧
  decode .mode64 [0xC4#8, 0x41#8, 0x31#8, 0xFD#8, 0xC2#8] =
    .form (.vpaddwVexXmm [] (.three true false true false 9#4) 0#3 (.reg 2#3)) [] ∧
  decode .mode64 [0xC5#8, 0x15#8, 0xD4#8, 0x65#8, 0xE0#8] =
    .form (.vpaddqVexYmm [] (.two true 13#4) 4#3 (.mem (.base 5#3 (.disp8 0xE0#8)))) [] ∧
  decode .mode64 [0x62#8, 0x01#8, 0x0D#8, 0x40#8, 0xFD#8, 0xFD#8] =
    .form (.vpaddwEvexZmm []
      { r := true, x := true, b := true, rHi := true, w := false, vvvv := 14#4, z := false,
        bcst := false, vHi := true, aaa := 0#3 } 7#3 (.reg 5#3)) [] ∧
  decode .mode64 [0x62#8, 0xF1#8, 0xE5#8, 0x38#8, 0xD4#8, 0x50#8, 0xFF#8] =
    .form (.vpaddqEvexYmm []
      { r := false, x := false, b := false, rHi := false, w := true, vvvv := 3#4, z := false,
        bcst := true, vHi := false, aaa := 0#3 } 2#3 (.mem (.base 0#3 (.disp8 0xFF#8)))) []

/-- R97: which legacy form a byte run is. `F0`, `F2` or `F3` among the prefixes is #UD; `66` picks
the SSE2 form; without any of them it is the MMX form. That `F2` and `F3` are #UD is the spec's decision
D16, a choice (log 25); that a REX byte may stand before another prefix is the model's reading (log 17). -/
def Obligations.LegacyFormSelection : Prop :=
  ∀ (l : Lane) (lead : List LeadByte) (reg : BitVec 3) (rm : RmOperand) (rest : List Byte),
    rm.wellFormed = true → legacyLength lead rm ≤ 15 →
    decode .mode64 (lead.map LeadByte.byte ++ (0x0F#8 :: l.opcode :: (rm.bytes reg ++ rest))) =
      if LeadByte.lock ∈ lead ∨ LeadByte.repne ∈ lead ∨ LeadByte.rep ∈ lead then .ud
      else if LeadByte.opSize ∈ lead then .form (Shape.legacy true l lead reg rm).instr rest
      else .form (Shape.legacy false l lead reg rm).instr rest

/-- R213: a `F0` prefix on any form raises #UD, register or memory operand, whatever the state. That a step
does so also where `rip + len` would be refused is the model's choice (log 36). -/
def Obligations.LockRaisesUd : Prop :=
  ∀ (i : Instr) (s : State) (rest : List Byte), LeadByte.lock ∈ i.shape.lead →
    exec i s = .fault (.ud s.rip) ∧
    (s.Runnable → i.admitted s.mode = true → s.fetch = encode i ++ rest →
      step s = .fault (.ud s.rip))

/-- R104, R110: a VEX or EVEX header preceded by anything but segment overrides and `67` raises #UD. That a
REX byte does so also where another lead byte follows it is the model's reading (log 18), and that a step
does so also where `rip + len` would be refused is its choice (log 36). -/
def Obligations.OnlyOverridesBeforeVexEvex : Prop :=
  ∀ (i : Instr) (s : State) (rest : List Byte),
    i.shape.cls = .vex ∨ i.shape.cls = .evex →
    (∃ p ∈ i.shape.lead, p ≠ .addrSize ∧ ∀ g, p ≠ .seg g) →
    exec i s = .fault (.ud s.rip) ∧
    (s.Runnable → i.admitted s.mode = true → s.fetch = encode i ++ rest →
      step s = .fault (.ud s.rip))

/-- R222: the broadcast bit on an EVEX VPADDB or VPADDW raises #UD, register or memory operand. That a step
does so also where `rip + len` would be refused is the model's choice (log 36). -/
def Obligations.BroadcastBitOnByteWordIsUd : Prop :=
  ∀ (i : Instr) (s : State) (rest : List Byte) (vl : VecLen) (l : Lane) (lead : List LeadByte)
    (e : Evex) (reg : BitVec 3) (rm : RmOperand),
    i.shape = .evex vl l lead e reg rm → l = .byte ∨ l = .word → e.bcst = true →
    exec i s = .fault (.ud s.rip) ∧
    (s.Runnable → i.admitted s.mode = true → s.fetch = encode i ++ rest →
      step s = .fault (.ud s.rip))

/-- The EVEX rows of R116: reserved bits, `L'L = 11`, a `W` that does not fit, zeroing without a
writemask, the broadcast bit on byte and word lanes or with a register operand, are all #UD in 64-bit
mode, after any lead bytes. Of these, `L'L = 11`, the `W` that does not fit, zeroing without a writemask and
the broadcast bit with a register operand are the spec's decision D16, a choice (log 25). The last row of R116
and R114: another map, `pp` or opcode byte, in a legacy, VEX or EVEX run, and any other first byte after the
lead bytes, is another instruction, refused and not #UD. -/
def Obligations.EvexReservedFieldsAreUd : Prop :=
  ∀ (lead : List LeadByte) (p0 p1 p2 op : Byte) (rest : List Byte),
    (p0.extractLsb' 2 2 ≠ 0#2 ∨ p1.getLsbD 2 = false →
      decode .mode64 (lead.map LeadByte.byte ++ (0x62#8 :: p0 :: p1 :: p2 :: op :: rest)) = .ud) ∧
    (∀ l : Lane, op = l.opcode → p0.extractLsb' 0 2 = 1#2 → p1.extractLsb' 0 2 = 1#2 →
      (p2.extractLsb' 5 2 = 3#2 ∨ (l = .dword ∧ p1.getLsbD 7 = true) ∨
        (l = .qword ∧ p1.getLsbD 7 = false) ∨ (p2.getLsbD 7 = true ∧ p2.extractLsb' 0 3 = 0#3) ∨
        ((l = .byte ∨ l = .word) ∧ p2.getLsbD 4 = true) ∨
        (p2.getLsbD 4 = true ∧ ∃ modrm rest', rest = modrm :: rest' ∧ modrm.extractLsb' 6 2 = 3#2)) →
      decode .mode64 (lead.map LeadByte.byte ++ (0x62#8 :: p0 :: p1 :: p2 :: op :: rest)) = .ud) ∧
    ((∀ l : Lane, op ≠ l.opcode) →
      decode .mode64 (lead.map LeadByte.byte ++ (0x0F#8 :: op :: rest)) = .notAForm) ∧
    (lead.all LeadByte.beforeVex = true →
      (p0.extractLsb' 0 2 ≠ 1#2 ∨ (∀ l : Lane, op ≠ l.opcode) →
        decode .mode64 (lead.map LeadByte.byte ++ (0xC5#8 :: p0 :: op :: rest)) = .notAForm) ∧
      (p0.extractLsb' 0 5 ≠ 1#5 ∨ p1.extractLsb' 0 2 ≠ 1#2 ∨ (∀ l : Lane, op ≠ l.opcode) →
        decode .mode64 (lead.map LeadByte.byte ++ (0xC4#8 :: p0 :: p1 :: op :: rest)) = .notAForm) ∧
      (p0.extractLsb' 2 2 = 0#2 → p1.getLsbD 2 = true →
        (p0.extractLsb' 0 2 ≠ 1#2 ∨ p1.extractLsb' 0 2 ≠ 1#2 ∨ (∀ l : Lane, op ≠ l.opcode)) →
        decode .mode64 (lead.map LeadByte.byte ++ (0x62#8 :: p0 :: p1 :: p2 :: op :: rest)) =
          .notAForm)) ∧
    ((∀ p : LeadByte, op ≠ p.byte) → op ∉ [0x0F#8, 0xC5#8, 0xC4#8, 0x62#8] →
      decode .mode64 (lead.map LeadByte.byte ++ (op :: rest)) = .notAForm)

/-- R112: `W` is ignored by the VEX forms and by EVEX VPADDB and VPADDW; EVEX VPADDD with `W = 1` and
EVEX VPADDQ with `W = 0` are #UD, which is the spec's decision D16, a choice (log 25). -/
def Obligations.WBit : Prop :=
  ∀ (s : State) (lead : List LeadByte) (reg : BitVec 3) (rm : RmOperand),
    (∀ (wide : Bool) (l : Lane) (r x b w w' : Bool) (vvvv : BitVec 4),
      exec (Shape.vex wide l lead (.three r x b w vvvv) reg rm).instr s =
        exec (Shape.vex wide l lead (.three r x b w' vvvv) reg rm).instr s) ∧
    (∀ (vl : VecLen) (l : Lane) (e : Evex) (w' : Bool), l = .byte ∨ l = .word →
      exec (Shape.evex vl l lead e reg rm).instr s =
        exec (Shape.evex vl l lead { e with w := w' } reg rm).instr s) ∧
    (∀ (vl : VecLen) (l : Lane) (e : Evex) (rest : List Byte),
      (l = .dword ∧ e.w = true) ∨ (l = .qword ∧ e.w = false) →
      exec (Shape.evex vl l lead e reg rm).instr s = .fault (.ud s.rip) ∧
      decode .mode64 (encode (Shape.evex vl l lead e reg rm).instr ++ rest) = .ud)

/-- R113, R232 step 1: a well-formed form longer than 15 bytes raises #GP(0), whatever the state. That a
step does so also where `rip + len` would be refused is the model's choice (log 36). -/
def Obligations.TooLongRaisesGp : Prop :=
  ∀ (i : Instr) (s : State) (rest : List Byte), i.wellFormed = true → 15 < (encode i).length →
    exec i s = .fault (.gp s.rip) ∧
    (s.Runnable → i.admitted s.mode = true → s.fetch = encode i ++ rest →
      step s = .fault (.gp s.rip))

/-- R96, R103, R107: the register numbers of each class, destination, first and second source, and the
extension bits they take (R100, R101, R105). A REX byte that is not the last of the lead bytes is ignored
(the model's reading, log 17); the MMX numbers take no REX bit. -/
def Obligations.RegisterNumbers : Prop :=
  (∀ (lead : List LeadByte) (w r x b : Bool) (reg f : BitVec 3),
    (sseDest (lead ++ [.rex w r x b]) reg).val = 8 * r.toNat + reg.toNat ∧
    (vecNum false (rexExt (lead ++ [.rex w r x b])).b f).val = 8 * b.toNat + f.toNat ∧
    rexExt (lead ++ [.rex w r x b]) = { r := r, x := x, b := b }) ∧
  (∀ (lead : List LeadByte) (p : LeadByte), (∀ w r x b, p ≠ .rex w r x b) →
    rexExt (lead ++ [p]) = { r := false, x := false, b := false }) ∧
  (∀ reg : BitVec 3, (sseDest [] reg).val = reg.toNat ∧ (vecNum false (rexExt []).b reg).val = reg.toNat ∧
    (mmNum reg).val = reg.toNat) ∧
  (∀ (r x b w : Bool) (vvvv : BitVec 4) (reg f : BitVec 3),
    vexExt (.two r vvvv) = { r := r, x := false, b := false } ∧
    vexExt (.three r x b w vvvv) = { r := r, x := x, b := b } ∧
    (vecNum false (vexExt (.two r vvvv)).b f).val = f.toNat ∧
    (vecNum false (vexExt (.three r x b w vvvv)).b f).val = 8 * b.toNat + f.toNat ∧
    (vexDest (.two r vvvv) reg).val = 8 * r.toNat + reg.toNat ∧
    (vexDest (.three r x b w vvvv) reg).val = 8 * r.toNat + reg.toNat ∧
    (vexSrc1 (.two r vvvv)).val = vvvv.toNat ∧ (vexSrc1 (.three r x b w vvvv)).val = vvvv.toNat) ∧
  (∀ (e : Evex) (reg : BitVec 3), evexExt e = { r := e.r, x := e.x, b := e.b } ∧
    (evexDest e reg).val = 16 * e.rHi.toNat + 8 * e.r.toNat + reg.toNat ∧
    (evexSrc1 e).val = 16 * e.vHi.toNat + e.vvvv.toNat ∧
    (vecNum e.x e.b reg).val = 16 * e.x.toNat + 8 * e.b.toNat + reg.toNat)

/-- R100, R115: the two-byte VEX header means what the three-byte one with `X = B = W = 0` means, one
byte longer, but for an address relative to `rip`. -/
def Obligations.TwoByteVexIsThreeByteVex : Prop :=
  ∀ (wide : Bool) (l : Lane) (lead : List LeadByte) (r : Bool) (vvvv : BitVec 4) (reg : BitVec 3)
    (rm : RmOperand) (s : State), (∀ d, rm ≠ .mem (.relative d)) →
    vexLength lead (.three r false false false vvvv) rm ≤ 15 →
    exec (Shape.vex wide l lead (.three r false false false vvvv) reg rm).instr s =
      mapNext (fun t => { t with rip := addAddr s.mode t.rip 1#64 })
        (exec (Shape.vex wide l lead (.two r vvvv) reg rm).instr s)

/-! ## The step and the run -/

/-- R266, R114: when nothing refuses the step and the bytes at `rip` decode to `i`, the step is `i` run
in that state, provided the next instruction's address is one it can have; else it is refused (D5). That the
refusal comes before a fault that executing `i` would raise, and that in 32-bit mode a sum of `2^32` or more is
refused although R32 says that it wraps, are the model's choices (DESIGN CHOICE, log 16). -/
def Obligations.StepRunsTheDecodedInstruction : Prop :=
  ∀ (s : State) (i : Instr) (rest : List Byte), s.Runnable → decode s.mode s.fetch = .form i rest →
    (s.landingOk i.length = true → step s = exec i s) ∧
    (s.landingOk i.length = false → step s = .refused .nextRipNotCanonical)

/-- R114, R235, R266: what the step does with every other verdict of the decoder and at the end of the
run. That a step at the end address, where R266 calls the run completed, is answered by the refusal named
runCompleted is the model's choice (DESIGN CHOICE, log 15). (Which verdict comes first when the end address
cuts an instruction off is log 35; that #UD and #GP(0) of the decoder come before the test of `rip + len` is
log 36.) -/
def Obligations.StepOnOtherVerdicts : Prop :=
  ∀ s : State,
    (s.Runnable →
      (decode s.mode s.fetch = .ud → step s = .fault (.ud s.rip)) ∧
      (decode s.mode s.fetch = .tooLong → step s = .fault (.gp s.rip)) ∧
      (decode s.mode s.fetch = .notAForm → step s = .refused .notAForm) ∧
      (decode s.mode s.fetch = .mode32Encoding → step s = .refused .mode32Encoding) ∧
      (decode s.mode s.fetch = .outOfBytes → step s = .refused .pastEnd)) ∧
    (s.mode ≠ .realAddress → s.virtual8086 = false → s.eflagsTf = false →
      s.runEnd = some s.ip.toNat → step s = .refused .runCompleted)

/-- R44: the reset values that the rule's table gives as numbers, and what follows for the first step
(R45; the refusal's name is log 3). That bits 63:32 of the general registers are 0 is the model's choice: R44
gives their low 32 bits (DESIGN CHOICE, log 5). -/
def Obligations.ResetValues : Prop :=
  State.reset.rip = 0x0000FFF0#64 ∧ State.reset.segs.cs.base = 0xFFFF0000#64 ∧
  State.reset.mode = .realAddress ∧ State.reset.cpl = 0 ∧ State.reset.eflags = 0x00000002#32 ∧
  State.reset.cr0 = 0x60000010#32 ∧ State.reset.cr4 = 0#32 ∧ State.reset.xcr0 = 1#64 ∧
  (∀ n : Fin 16, 1 ≤ n.val → n.val ≤ 7 → n ≠ 2 → State.reset.gpr[n] = 0#64) ∧
  (∀ n : Fin 8, State.reset.x87[n] = 0#80) ∧ State.reset.ftw = 0x5555#16 ∧
  State.reset.fsw = 0#16 ∧ (∀ n : Fin 16, (State.reset.zmm[n.val]).setWidth 128 = 0#128) ∧
  State.reset.mxcsr = 0x1F80#32 ∧ State.reset.segs.fs.base = 0#64 ∧
  State.reset.segs.gs.base = 0#64 ∧ step State.reset = .refused .realAddressMode

/-- The invariant holds after reset, and the model's reset parameters (log 7) are those of one processor
(R5, R6). -/
def Obligations.ResetHasTheInvariant : Prop :=
  State.reset.Inv ∧ State.reset.cfg.consistent = true

/-- Every step keeps the invariant: memory in canonical form, `MAXVL` at least what `Features` need (R6),
no bit of a vector register from `MAXVL` up (R20, R23), no bit of an opmask register from 16 up without
`AVX512BW` (R27), `rip` canonical or of 32 bits (R31, R32) and inside the run (R266). It also keeps `MAXVL`
at the width that R5 gives for the features. -/
def Obligations.StepKeepsTheInvariant : Prop :=
  ∀ s t : State, s.Inv → step s = .next t →
    t.Inv ∧ (s.cfg.consistent = true → t.cfg.consistent = true)

/-- R46: a launch meets the recommended premises, and every form whose features are there is ready. -/
def Obligations.LaunchMeetsThePremises : Prop :=
  ∀ (s : State) (program : List Byte), s.cfg.needsMet = true →
    ((s.launch program).mode = .mode64 ∧ (s.launch program).cpl = 3 ∧
      (s.launch program).cr0Em = false ∧ (s.launch program).cr0Ts = false ∧
      (s.launch program).cr4Osfxsr = true ∧ (s.launch program).cr4Osxsave = true ∧
      (s.launch program).xcr0Avx = 3#2 ∧
      (s.cfg.features.avx512f = true → (s.launch program).xcr0Avx512 = 7#3) ∧
      (s.launch program).fswEs = false ∧ (s.launch program).alignmentChecking = false ∧
      (s.launch program).eflagsTf = false) ∧
    ∀ i : Instr, i.wellFormed = true → i.fits = true → i.shape.available s.cfg.features = true →
      i.Ready (s.launch program)

/-- R266: a launched instruction is what the first step runs. -/
def Obligations.LaunchedInstructionRuns : Prop :=
  ∀ (s : State) (i : Instr) (rest : List Byte), s.mem.wf = true → i.wellFormed = true →
    i.fits = true → canonical s.cfg.vaBits s.rip = true →
    canonical s.cfg.vaBits (s.rip + BitVec.ofNat 64 i.length) = true →
    s.rip.toNat + i.length < 2 ^ 64 →
    s.rip.toNat + (encode i ++ rest).length ≤ 2 ^ 64 →
    step (s.launch (encode i ++ rest)) = exec i (s.launch (encode i ++ rest))

/-- R32, R113: a step that completes moves `rip` past exactly the bytes of the instruction it ran, at
least 3 and at most 15 of them. -/
def Obligations.StepAdvancesByTheLength : Prop :=
  ∀ s t : State, step s = .next t →
    ∃ i rest, decode s.mode s.fetch = .form i rest ∧ exec i s = .next t ∧
      3 ≤ (encode i).length ∧ (encode i).length ≤ 15 ∧
      t.rip = addAddr s.mode s.rip (BitVec.ofNat 64 (encode i).length)

/-- R266: a run to an end address makes at most a third as many steps as there are bytes. That the step at the
end address is refused and answers no next state is the model's choice (DESIGN CHOICE, log 15). -/
def Obligations.RunLengthIsBounded : Prop :=
  ∀ (s t : State) (e k : Nat), s.runEnd = some e → e - s.ip.toNat < 3 * k →
    Sys2Proof.core.run k s ≠ .next t

/-- R52, R29: no form writes memory, and none writes a bit of EFLAGS; the mode, the general registers,
the opmask registers, the control registers and the segments stay as they are too. -/
def Obligations.FormsWriteNoMemoryNoFlag : Prop :=
  ∀ (i : Instr) (s t : State), exec i s = .next t →
    t.eflags = s.eflags ∧ (∀ a, t.mem.get a = s.mem.get a) ∧ s.KeepsAllButData t

/-- The same along a run of any length (R52, R74: the program bytes are fixed for the whole run). -/
def Obligations.RunKeepsAllButData : Prop :=
  ∀ (k : Nat) (s t : State), Sys2Proof.core.run k s = .next t → s.KeepsAllButData t

/-! ## What each form does: it completes, with this next state -/

/-- R26, R140 to R144: the MMX forms. Lane by lane the sum modulo `2^w` goes to `mm[d]`; bits 79:64 of
`R[d]` become ones, every tag valid, `TOP` zero; `rip` advances; nothing else changes. -/
def Obligations.MmxFormsResult : Prop :=
  ∀ (lead : List LeadByte) (reg : BitVec 3) (rm : RmOperand) (s : State) (v : BitVec 64),
    s.MmxSourceIs lead rm v →
    ∀ (l : Lane) (i : Instr),
      (l, i) ∈ [(Lane.byte, Instr.paddbMm lead reg rm), (.word, .paddwMm lead reg rm),
        (.dword, .padddMm lead reg rm), (.qword, .paddqMm lead reg rm)] →
      i.Ready s →
      ∃ r : BitVec 64,
        (∀ j < 64 / l.bits, lane l.bits r j = lane l.bits (s.mm (mmNum reg)) j + lane l.bits v j) ∧
        exec i s = .next { s with
          x87 := s.x87.set (mmNum reg) (0xFFFF#16 ++ r)
          ftw := 0x0000#16
          fsw := s.fsw &&& 0xC7FF#16
          rip := addAddr s.mode s.rip (BitVec.ofNat 64 (encode i).length) }

/-- R150 to R155: the legacy SSE forms. The sums go to the low 128 bits of `zmm[d]`, the bits above keep
their value, `rip` advances; nothing else changes. -/
def Obligations.SseFormsResult : Prop :=
  ∀ (lead : List LeadByte) (reg : BitVec 3) (rm : RmOperand) (s : State) (v : BitVec 128),
    s.SseSourceIs lead rm v →
    ∀ (l : Lane) (i : Instr),
      (l, i) ∈ [(Lane.byte, Instr.paddbXmm lead reg rm), (.word, .paddwXmm lead reg rm),
        (.dword, .padddXmm lead reg rm), (.qword, .paddqXmm lead reg rm)] →
      i.Ready s →
      ∃ z : Vec,
        (∀ j < 128 / l.bits,
          lane l.bits z j = lane l.bits s.zmm[sseDest lead reg] j + lane l.bits v j) ∧
        z.extractLsb' 128 384 = (s.zmm[sseDest lead reg]).extractLsb' 128 384 ∧
        exec i s = .next { s with
          zmm := s.zmm.set (sseDest lead reg) z
          rip := addAddr s.mode s.rip (BitVec.ofNat 64 (encode i).length) }

/-- R160 to R164: the VEX.128 forms. The sums of the two sources go to `zmm[d]`, every bit from 128 up is
zero, `rip` advances; nothing else changes. -/
def Obligations.Vex128FormsResult : Prop :=
  ∀ (lead : List LeadByte) (vex : Vex) (reg : BitVec 3) (rm : RmOperand) (s : State)
    (v2 : BitVec 128), s.VexSourceIs 128 lead vex rm v2 →
    ∀ (l : Lane) (i : Instr),
      (l, i) ∈ [(Lane.byte, Instr.vpaddbVexXmm lead vex reg rm), (.word, .vpaddwVexXmm lead vex reg rm),
        (.dword, .vpadddVexXmm lead vex reg rm), (.qword, .vpaddqVexXmm lead vex reg rm)] →
      i.Ready s →
      ∃ z : Vec,
        (∀ j < 128 / l.bits, lane l.bits z j = lane l.bits s.zmm[vexSrc1 vex] j + lane l.bits v2 j) ∧
        z.toNat < 2 ^ 128 ∧
        exec i s = .next { s with
          zmm := s.zmm.set (vexDest vex reg) z
          rip := addAddr s.mode s.rip (BitVec.ofNat 64 (encode i).length) }

/-- R160, R165 to R168: the VEX.256 forms, which zero every bit from 256 up (90_conflicts.md C3). -/
def Obligations.Vex256FormsResult : Prop :=
  ∀ (lead : List LeadByte) (vex : Vex) (reg : BitVec 3) (rm : RmOperand) (s : State)
    (v2 : BitVec 256), s.VexSourceIs 256 lead vex rm v2 →
    ∀ (l : Lane) (i : Instr),
      (l, i) ∈ [(Lane.byte, Instr.vpaddbVexYmm lead vex reg rm), (.word, .vpaddwVexYmm lead vex reg rm),
        (.dword, .vpadddVexYmm lead vex reg rm), (.qword, .vpaddqVexYmm lead vex reg rm)] →
      i.Ready s →
      ∃ z : Vec,
        (∀ j < 256 / l.bits, lane l.bits z j = lane l.bits s.zmm[vexSrc1 vex] j + lane l.bits v2 j) ∧
        z.toNat < 2 ^ 256 ∧
        exec i s = .next { s with
          zmm := s.zmm.set (vexDest vex reg) z
          rip := addAddr s.mode s.rip (BitVec.ofNat 64 (encode i).length) }

/-- R180 to R182, R185, R186, R189, R190: the EVEX byte and word forms. A lane that the writemask selects
(every lane when `aaa = 000`) is the sum, any other is zero or the old lane; every bit from `VL` up is
zero; `rip` advances; nothing else changes. -/
def Obligations.EvexByteWordResult : Prop :=
  ∀ (lead : List LeadByte) (e : Evex) (reg : BitVec 3) (rm : RmOperand) (s : State) (vl : VecLen)
    (l : Lane) (i : Instr) (v2 : BitVec vl.bits), s.EvexSourceIs l.bits vl.bits lead e rm v2 →
    (vl, l, i) ∈ [(VecLen.vl128, Lane.byte, Instr.vpaddbEvexXmm lead e reg rm),
      (.vl128, .word, .vpaddwEvexXmm lead e reg rm), (.vl256, .byte, .vpaddbEvexYmm lead e reg rm),
      (.vl256, .word, .vpaddwEvexYmm lead e reg rm), (.vl512, .byte, .vpaddbEvexZmm lead e reg rm),
      (.vl512, .word, .vpaddwEvexZmm lead e reg rm)] →
    i.Ready s →
    ∃ z : Vec,
      (∀ j < vl.bits / l.bits, lane l.bits z j =
        if e.aaa = 0#3 ∨ (s.k[e.aaa.toNat]).getLsbD j = true then
          lane l.bits s.zmm[evexSrc1 e] j + lane l.bits v2 j
        else if e.z then 0#l.bits else lane l.bits s.zmm[evexDest e reg] j) ∧
      z.toNat < 2 ^ vl.bits ∧
      exec i s = .next { s with
        zmm := s.zmm.set (evexDest e reg) z
        rip := addAddr s.mode s.rip (BitVec.ofNat 64 (encode i).length) }

/-- R180, R183, R184, R187, R188, R191, R192: the EVEX doubleword and quadword forms, whose second source
may be one broadcast element, misaligned under alignment checking too where the free choice of
93_implementation_defined.md U9 lets it pass. The model's own counter of free choices (log 13) counts a
broadcast. -/
def Obligations.EvexDwordQwordResult : Prop :=
  ∀ (lead : List LeadByte) (e : Evex) (reg : BitVec 3) (rm : RmOperand) (s : State) (vl : VecLen)
    (l : Lane) (i : Instr) (v2 : BitVec vl.bits), s.EvexSourceIs l.bits vl.bits lead e rm v2 →
    (vl, l, i) ∈ [(VecLen.vl128, Lane.dword, Instr.vpadddEvexXmm lead e reg rm),
      (.vl128, .qword, .vpaddqEvexXmm lead e reg rm), (.vl256, .dword, .vpadddEvexYmm lead e reg rm),
      (.vl256, .qword, .vpaddqEvexYmm lead e reg rm), (.vl512, .dword, .vpadddEvexZmm lead e reg rm),
      (.vl512, .qword, .vpaddqEvexZmm lead e reg rm)] →
    i.Ready s →
    ∃ z : Vec,
      (∀ j < vl.bits / l.bits, lane l.bits z j =
        if e.aaa = 0#3 ∨ (s.k[e.aaa.toNat]).getLsbD j = true then
          lane l.bits s.zmm[evexSrc1 e] j + lane l.bits v2 j
        else if e.z then 0#l.bits else lane l.bits s.zmm[evexDest e reg] j) ∧
      z.toNat < 2 ^ vl.bits ∧
      exec i s = .next { s with
        zmm := s.zmm.set (evexDest e reg) z
        choices := if e.bcst then s.choices + 1 else s.choices
        rip := addAddr s.mode s.rip (BitVec.ofNat 64 (encode i).length) }

/-! ## Faults (60_exceptions.md) -/

/-- R212, R41: a form any of whose feature flags is clear in the chip's CPUID record raises #UD (every set
of features is that of a record). Rows 17 to 24 need both of their flags. That row 4 needs `SSE2` as well as
`MMX` is the spec's decision D21, a choice (log 26). -/
def Obligations.MissingFeatureRaisesUd : Prop :=
  ∀ (lead : List LeadByte) (v : Vex) (e : Evex) (reg : BitVec 3) (rm : RmOperand) (s : State)
    (c : CpuidRecord) (f : Features) (flags : Bool) (i : Instr), s.cfg.features = c.features →
    f = { mmx := c.leaf01Edx.getLsbD 23, sse2 := c.leaf01Edx.getLsbD 26,
          avx := c.leaf01Ecx.getLsbD 28, avx2 := c.leaf07Ebx.getLsbD 5,
          avx512f := c.leaf07Ebx.getLsbD 16, avx512bw := c.leaf07Ebx.getLsbD 30,
          avx512vl := c.leaf07Ebx.getLsbD 31 } →
    (flags, i) ∈ [(f.mmx, Instr.paddbMm lead reg rm), (f.mmx, .paddwMm lead reg rm),
      (f.mmx, .padddMm lead reg rm), (f.mmx && f.sse2, .paddqMm lead reg rm),
      (f.sse2, .paddbXmm lead reg rm), (f.sse2, .paddwXmm lead reg rm),
      (f.sse2, .padddXmm lead reg rm), (f.sse2, .paddqXmm lead reg rm),
      (f.avx, .vpaddbVexXmm lead v reg rm), (f.avx, .vpaddwVexXmm lead v reg rm),
      (f.avx, .vpadddVexXmm lead v reg rm), (f.avx, .vpaddqVexXmm lead v reg rm),
      (f.avx2, .vpaddbVexYmm lead v reg rm), (f.avx2, .vpaddwVexYmm lead v reg rm),
      (f.avx2, .vpadddVexYmm lead v reg rm), (f.avx2, .vpaddqVexYmm lead v reg rm),
      (f.avx512vl && f.avx512bw, .vpaddbEvexXmm lead e reg rm),
      (f.avx512vl && f.avx512bw, .vpaddwEvexXmm lead e reg rm),
      (f.avx512vl && f.avx512f, .vpadddEvexXmm lead e reg rm),
      (f.avx512vl && f.avx512f, .vpaddqEvexXmm lead e reg rm),
      (f.avx512vl && f.avx512bw, .vpaddbEvexYmm lead e reg rm),
      (f.avx512vl && f.avx512bw, .vpaddwEvexYmm lead e reg rm),
      (f.avx512vl && f.avx512f, .vpadddEvexYmm lead e reg rm),
      (f.avx512vl && f.avx512f, .vpaddqEvexYmm lead e reg rm),
      (f.avx512bw, .vpaddbEvexZmm lead e reg rm), (f.avx512bw, .vpaddwEvexZmm lead e reg rm),
      (f.avx512f, .vpadddEvexZmm lead e reg rm), (f.avx512f, .vpaddqEvexZmm lead e reg rm)] →
    i.wellFormed = true → i.fits = true → flags = false → exec i s = .fault (.ud s.rip)

/-- R217 to R219: `CR4.OSXSAVE = 0` and `XCR0[2:1] ≠ 11b` raise #UD for VEX and EVEX forms,
`XCR0[7:5] ≠ 111b` for EVEX forms at every vector length. -/
def Obligations.XsaveBitsRaiseUd : Prop :=
  ∀ (i : Instr) (s : State), i.wellFormed = true → i.fits = true →
    (s.cr4.getLsbD 18 = false → i.shape.cls = .vex ∨ i.shape.cls = .evex →
      exec i s = .fault (.ud s.rip)) ∧
    (s.xcr0.extractLsb' 1 2 ≠ 3#2 → i.shape.cls = .vex ∨ i.shape.cls = .evex →
      exec i s = .fault (.ud s.rip)) ∧
    (s.xcr0.extractLsb' 5 3 ≠ 7#3 → i.shape.cls = .evex → exec i s = .fault (.ud s.rip))

/-- R215, R216: `CR0.EM = 1` raises #UD for MMX and legacy SSE forms and takes no part in VEX and EVEX
forms; `CR4.OSFXSR = 0` raises #UD for legacy SSE forms and takes no part in any other. -/
def Obligations.EmAndOsfxsr : Prop :=
  ∀ (i : Instr) (s : State), i.wellFormed = true → i.fits = true →
    (s.cr0.getLsbD 2 = true → i.shape.cls = .mmx ∨ i.shape.cls = .sse →
      exec i s = .fault (.ud s.rip)) ∧
    (i.shape.cls = .vex ∨ i.shape.cls = .evex →
      exec i { s with cr0 := s.cr0 ^^^ 4#32 } =
        mapNext (fun t => { t with cr0 := t.cr0 ^^^ 4#32 }) (exec i s)) ∧
    (s.cr4.getLsbD 9 = false → i.shape.cls = .sse → exec i s = .fault (.ud s.rip)) ∧
    (i.shape.cls ≠ .sse →
      exec i { s with cr4 := s.cr4 ^^^ 0x200#32 } =
        mapNext (fun t => { t with cr4 := t.cr4 ^^^ 0x200#32 }) (exec i s))

/-- R220: `CR0.TS = 1` raises #NM for every form, after the #UD conditions. -/
def Obligations.TaskSwitchedRaisesNm : Prop :=
  ∀ (i : Instr) (s : State), i.wellFormed = true → i.fits = true → s.cr0.getLsbD 3 = true →
    exec i s = .fault (if i.shape.noUd s then .nm s.rip else .ud s.rip)

/-- R221: a pending x87 exception raises #MF for the MMX forms, after the #UD and #NM checks and before
any memory access; the other forms do not look at it. -/
def Obligations.PendingX87RaisesMf : Prop :=
  ∀ (i : Instr) (s : State),
    (i.shape.cls = .mmx → i.wellFormed = true → i.fits = true → i.shape.noUd s = true →
      s.cr0.getLsbD 3 = false → s.fsw.getLsbD 7 = true → exec i s = .fault (.mf s.rip)) ∧
    (i.shape.cls ≠ .mmx → ∀ w : BitVec 16,
      exec i { s with fsw := w } = mapNext (fun t => { t with fsw := w }) (exec i s))

/-- R210: the faults a form can raise, their vectors and error codes, what they record, and which forms
raise them. The code of a page fault is the one that the translation of the byte answers: by R70 bit 0 says
whether the page was present, bit 1 is 0, bit 2 says whether `CPL` is 3, and the others are the translation's
(as ranges, log 10: the first that holds the address, else not present). -/
def Obligations.FaultsOfTheForms : Prop :=
  ∀ (i : Instr) (s : State) (f : Fault), exec i s = .fault f →
    f.rip = s.rip ∧
    match f with
    | .ud _ => f.vector = 6 ∧ f.errorCode = none
    | .nm _ => f.vector = 7 ∧ f.errorCode = none
    | .ss _ => f.vector = 12 ∧ f.errorCode = some 0#32 ∧ (i.access s).isSome = true
    | .gp _ => f.vector = 13 ∧ f.errorCode = some 0#32 ∧
        ((i.access s).isSome = true ∨ 15 < (encode i).length)
    | .pf _ code address => f.vector = 14 ∧ f.errorCode = some code ∧ f.address = some address ∧
        (∃ a, i.access s = some a ∧ ∃ k < a.size, address = s.byteAddr a.la k) ∧
        translate s.cfg.pages s.privilege address = .pageFault code ∧
        code.getLsbD 1 = false ∧ (code.getLsbD 2 = true ↔ s.cpl = 3) ∧
        (match s.cfg.pages.find? fun r => r.range.contains address.toNat with
          | some r => (if s.cpl = 3 then r.user else r.supervisor) =
              .faults (code.getLsbD 0) (code.extractLsb' 3 29)
          | none => code.getLsbD 0 = false ∧ code.extractLsb' 3 29 = 0#29)
    | .mf _ => f.vector = 16 ∧ f.errorCode = none ∧ i.shape.cls = .mmx
    | .ac _ => f.vector = 17 ∧ f.errorCode = some 0#32 ∧ (i.access s).isSome = true ∧
        (i.shape.cls = .mmx ∨ ∃ vl l lead e reg rm, i.shape = .evex vl l lead e reg rm ∧ e.bcst = true)

/-- R228, R229 (a), R57 step 1: an operand with a non-canonical byte (64-bit mode) or outside its segment
(32-bit mode) raises #SS(0) when its segment is `SS`, else #GP(0). Under an `SS` override in 64-bit mode it
is one or the other (93_implementation_defined.md U10, log 14). -/
def Obligations.SegmentFaults : Prop :=
  ∀ (i : Instr) (s : State) (a : Access), i.Ready s → i.access s = some a → s.virtual8086 = false →
    (s.mode = .mode64 → (∃ k < a.size, canonical s.cfg.vaBits (s.byteAddr a.la k) = false) →
      if a.ssOverride then exec i s = .fault (.ss s.rip) ∨ exec i s = .fault (.gp s.rip)
      else exec i s = .fault (if a.seg = .ss then .ss s.rip else .gp s.rip)) ∧
    (s.mode = .mode32 → segCheck (s.segs.get a.seg) a.ea a.size = false →
      exec i s = .fault (if a.seg = .ss then .ss s.rip else .gp s.rip))

/-- R59: a legacy SSE operand that is not 16-byte aligned raises #GP(0), in both modes (when the segment
check before it has passed, R57). -/
def Obligations.SseMisalignedRaisesGp : Prop :=
  ∀ (i : Instr) (s : State) (a : Access), i.Ready s → i.shape.cls = .sse → i.access s = some a →
    a.InSegment s → a.la.toNat % 16 ≠ 0 → exec i s = .fault (.gp s.rip)

/-- R230: a page fault carries the code and the linear address of the first faulting byte in address
order. That it is the lowest of two faulting pages is the spec's decision D13, a choice where the chip may
report either (log 24); that a byte of a masked-off lane faults too is its decision D14, a choice (log 23). -/
def Obligations.PageFaultOfTheFirstByte : Prop :=
  ∀ (i : Instr) (s : State) (a : Access) (k : Nat) (code : BitVec 32), i.Ready s →
    i.access s = some a → a.InSegment s → a.Aligned → k < a.size →
    (∀ j < k, (translate s.cfg.pages s.privilege (s.byteAddr a.la j)).isPhysical = true) →
    translate s.cfg.pages s.privilege (s.byteAddr a.la k) = .pageFault code →
    exec i s = .fault (.pf s.rip code (s.byteAddr a.la k))

/-- R231, R232: #AC(0) only with alignment checking enabled, only after every other check has passed
(instruction bits, length, features, control bits, segment, alignment of legacy SSE, translation), and only
for a misaligned MMX operand or a misaligned broadcast. -/
def Obligations.AlignmentCheckOnlyWhen : Prop :=
  ∀ (i : Instr) (s : State) (r : Addr), exec i s = .fault (.ac r) →
    s.cr0.getLsbD 18 = true ∧ s.eflags.getLsbD 18 = true ∧ s.cpl = 3 ∧
    i.shape.bitsOk = true ∧ (encode i).length ≤ 15 ∧ i.shape.available s.cfg.features = true ∧ i.shape.ControlsAllow s ∧
    ∃ a, i.access s = some a ∧ a.InSegment s ∧ a.Aligned ∧ a.Translated s ∧
      ((i.shape.cls = .mmx ∧ a.la.toNat % 8 ≠ 0) ∨
        ∃ vl l lead e reg m, i.shape = .evex vl l lead e reg (.mem m) ∧ e.bcst = true ∧
          ((l = .dword ∧ a.la.toNat % 4 ≠ 0) ∨ (l = .qword ∧ a.la.toNat % 8 ≠ 0)))

/-- R61: with alignment checking enabled a misaligned MMX operand raises #AC(0), a full-width operand of
any other form never does, and a misaligned broadcast raises it or completes as the free choice of
93_implementation_defined.md U9 says (log 13). -/
def Obligations.AlignmentCheckOutcomes : Prop :=
  ∀ (i : Instr) (s : State) (a : Access), i.Ready s → i.access s = some a → a.InSegment s →
    a.Aligned → a.Translated s → s.alignmentChecking = true →
    (i.shape.cls = .mmx → a.la.toNat % 8 ≠ 0 → exec i s = .fault (.ac s.rip)) ∧
    (i.shape.cls = .sse ∨ i.shape.cls = .vex → a.Mapped s → ∃ t, exec i s = .next t) ∧
    (∀ vl l lead e reg m, i.shape = .evex vl l lead e reg (.mem m) →
      (e.bcst = false → a.Mapped s → ∃ t, exec i s = .next t) ∧
      (e.bcst = true → a.la.toNat % (l.bits / 8) ≠ 0 →
        if Config.bcstMisalignedFaults s.choices then exec i s = .fault (.ac s.rip)
        else a.Mapped s → ∃ t, exec i s = .next t))

/-- R64: an operand with a byte outside `Mapped` is refused, when no fault comes first (log 12). -/
def Obligations.OutsideMappedIsRefused : Prop :=
  ∀ (i : Instr) (s : State) (a : Access), i.Ready s → i.access s = some a → a.InSegment s →
    a.Aligned → a.Translated s → a.ac.Passes s a.la →
    (∃ k < a.size, ∀ r ∈ s.cfg.mapped, r.contains (s.byteAddr a.la k).toNat = false) →
    exec i s = .refused .notMapped

/-- R262 read forwards, R57: a form completes only where its instruction bits, features and control bits
allow it, its length is at most 15 and its memory operand passes every check, the alignment check of R61
among them: an MMX operand must be aligned under alignment checking, and a broadcast must be unless the free
choice of 93_implementation_defined.md U9 lets it pass (log 13). -/
def Obligations.CompletesOnlyWhenAllowed : Prop :=
  ∀ (i : Instr) (s t : State), exec i s = .next t →
    i.shape.bitsOk = true ∧ (encode i).length ≤ 15 ∧ i.shape.available s.cfg.features = true ∧
    i.shape.ControlsAllow s ∧
    ∀ a, i.access s = some a → a.InSegment s ∧ a.Aligned ∧ a.Translated s ∧ a.Mapped s ∧
      (i.shape.cls = .mmx → s.alignmentChecking = false ∨ a.la.toNat % 8 = 0) ∧
      (∀ vl l lead e reg m, i.shape = .evex vl l lead e reg (.mem m) → e.bcst = true →
        s.alignmentChecking = false ∨ a.la.toNat % (l.bits / 8) = 0 ∨
          Config.bcstMisalignedFaults s.choices = false)

/-! ## Memory and addresses (20_memory.md, 30_encoding.md) -/

/-- R53: memory is little-endian, a narrower read sees the low bits of a wider one, instruction bytes are
fetched in increasing address order, and displacements are little-endian. That the bytes of an operand wrap at
the top of the address space is the model's reading (log 19); that in 32-bit mode the bytes of a run are
fetched at the base of `CS` plus `rip`, modulo `2^32`, is its choice (log 38). -/
def Obligations.LittleEndian : Prop :=
  (∀ (s : State) (la : Addr) (n i : Nat), i < n →
    (loadBytes s la n : BitVec (8 * n)).extractLsb' (8 * i) 8 = s.mem.get (s.byteAddr la i).toNat) ∧
  (∀ (s : State) (la : Addr) (c n j : Nat), (j + 1) * c ≤ n →
    lane (8 * c) (loadBytes s la n : BitVec (8 * n)) j =
      (loadBytes s (s.byteAddr la (j * c)) c : BitVec (8 * c))) ∧
  (∀ (s : State) (la : Addr),
    (loadBytes s la 4 : BitVec 32) = (loadBytes s la 16 : BitVec 128).extractLsb' 0 32) ∧
  (∀ (s : State) (j : Nat), s.mode = .mode64 → j < s.window →
    s.fetch[j]? = some (s.mem.get (s.rip + BitVec.ofNat 64 j).toNat)) ∧
  (∀ (s : State) (j : Nat), s.mode = .mode32 → j < s.window →
    s.fetch[j]? = some (s.mem.get
      (((s.segs.cs.base + s.rip + BitVec.ofNat 64 j).setWidth 32).setWidth 64).toNat)) ∧
  (∀ (b0 b1 b2 b3 : Byte) (t : List Byte),
    takeDisp32 (b0 :: b1 :: b2 :: b3 :: t) = some (b3 ++ b2 ++ b1 ++ b0, t))

/-- R58: which addresses are canonical, for any number of address bits and for 48. -/
def Obligations.CanonicalAddresses : Prop :=
  (∀ (n : Nat) (a : Addr), 1 ≤ n → n ≤ 64 →
    (canonical n a = true ↔ ∀ i, n - 1 ≤ i → i < 64 → a.getLsbD i = a.getLsbD (n - 1))) ∧
  (∀ a : Addr, canonical 48 a = true ↔
    (a.toNat ≤ 0x00007FFFFFFFFFFF ∨ 0xFFFF800000000000 ≤ a.toNat))

/-- R98, R118 (e): the effective address of each operand form, in 64-bit mode without a `67` prefix and in
32-bit mode, where every sum is taken in 32 bits and `mod = 00, rm = 101` is a plain `disp32`. `n` is the
scale of a one-byte displacement, 1 in legacy and VEX forms. -/
def Obligations.EffectiveAddresses : Prop :=
  (∀ (s : State) (lead : List LeadByte) (ext : Ext) (len n : Nat) (rm ix : BitVec 3) (sc : BitVec 2)
    (d8 : BitVec 8) (d : BitVec 32) (base index : Addr), s.mode = .mode64 → hasAddrSize lead = false →
    (∀ q : Fin 16, q.val = 8 * ext.b.toNat + rm.toNat → base = s.gpr[q]) →
    (∀ q : Fin 16, q.val = 8 * ext.x.toNat + ix.toNat →
      index = if q.val = 4 then 0#64 else s.gpr[q] * BitVec.ofNat 64 (2 ^ sc.toNat)) →
    s.effectiveAddress lead ext len n (.base rm .noDisp) = base ∧
    s.effectiveAddress lead ext len n (.base rm (.disp8 d8)) =
      base + d8.signExtend 64 * BitVec.ofNat 64 n ∧
    s.effectiveAddress lead ext len n (.base rm (.disp32 d)) = base + d.signExtend 64 ∧
    s.effectiveAddress lead ext len n (.relative d) =
      s.rip + BitVec.ofNat 64 len + d.signExtend 64 ∧
    s.effectiveAddress lead ext len n (.sib sc ix rm .noDisp) = base + index ∧
    s.effectiveAddress lead ext len n (.sib sc ix rm (.disp8 d8)) =
      base + index + d8.signExtend 64 * BitVec.ofNat 64 n ∧
    s.effectiveAddress lead ext len n (.sib sc ix rm (.disp32 d)) = base + index + d.signExtend 64 ∧
    s.effectiveAddress lead ext len n (.sibNoBase sc ix d) = index + d.signExtend 64) ∧
  (∀ (s : State) (lead : List LeadByte) (ext : Ext) (len n : Nat) (rm ix : BitVec 3) (sc : BitVec 2)
    (d8 : BitVec 8) (d base index : BitVec 32), s.mode = .mode32 →
    (∀ q : Fin 16, q.val = 8 * ext.b.toNat + rm.toNat → base = (s.gpr[q]).setWidth 32) →
    (∀ q : Fin 16, q.val = 8 * ext.x.toNat + ix.toNat →
      index = if q.val = 4 then 0#32 else (s.gpr[q]).setWidth 32 * BitVec.ofNat 32 (2 ^ sc.toNat)) →
    s.effectiveAddress lead ext len n (.base rm .noDisp) = base.setWidth 64 ∧
    s.effectiveAddress lead ext len n (.base rm (.disp8 d8)) =
      (base + d8.signExtend 32 * BitVec.ofNat 32 n).setWidth 64 ∧
    s.effectiveAddress lead ext len n (.base rm (.disp32 d)) = (base + d).setWidth 64 ∧
    s.effectiveAddress lead ext len n (.relative d) = d.setWidth 64 ∧
    s.effectiveAddress lead ext len n (.sib sc ix rm .noDisp) = (base + index).setWidth 64 ∧
    s.effectiveAddress lead ext len n (.sib sc ix rm (.disp8 d8)) =
      (base + index + d8.signExtend 32 * BitVec.ofNat 32 n).setWidth 64 ∧
    s.effectiveAddress lead ext len n (.sib sc ix rm (.disp32 d)) = (base + index + d).setWidth 64 ∧
    s.effectiveAddress lead ext len n (.sibNoBase sc ix d) = (index + d).setWidth 64)

/-- R99: under a `67` prefix in 64-bit mode the address of every operand form is the one without the
prefix, its sum taken in 32 bits and zero-extended. -/
def Obligations.AddressSizePrefix : Prop :=
  ∀ (s : State) (lead : List LeadByte) (ext : Ext) (len n : Nat) (rm ix : BitVec 3) (sc : BitVec 2)
    (d8 : BitVec 8) (d : BitVec 32), s.mode = .mode64 → hasAddrSize lead = true →
    s.effectiveAddress lead ext len n (.base rm (.disp8 d8)) =
      ((s.gpr[gprNum ext.b rm]).setWidth 32 + d8.signExtend 32 * BitVec.ofNat 32 n).setWidth 64 ∧
    s.effectiveAddress lead ext len n (.relative d) =
      ((s.rip + BitVec.ofNat 64 len).setWidth 32 + d).setWidth 64 ∧
    s.effectiveAddress lead ext len n (.sib sc ix rm (.disp32 d)) =
      ((s.gpr[gprNum ext.b rm]).setWidth 32 + (s.indexTerm ext.x sc ix).setWidth 32 + d).setWidth 64 ∧
    ∀ (m : MemOperand) (plain : List LeadByte), hasAddrSize plain = false →
      s.effectiveAddress lead ext len n m =
        ((s.effectiveAddress plain ext len n m).setWidth 32).setWidth 64

/-- R54, R55, R94, R99: the last segment override names the segment; without one it is `SS` for base
register 4 or 5 and `DS` otherwise; in 64-bit mode only `FS` and `GS` add a base, in 32-bit mode every
segment does, modulo `2^32`. The memory operand of every instruction has the segment and the effective
address (R98) of its own lead bytes, extension bits, length and operand; a one-byte displacement counts
once, in EVEX forms as many times as the operand has bytes (R111). That in 64-bit mode a later `CS`, `DS`,
`ES` or `SS` override cancels an `FS` or `GS` override is the model's choice (log 33). -/
def Obligations.SegmentAndLinearAddress : Prop :=
  (∀ (lead lead' : List LeadByte) (g : SegReg) (ext : Ext) (m : MemOperand),
    (∀ h, LeadByte.seg h ∉ lead') → operandSeg (lead ++ .seg g :: lead') ext m = g) ∧
  (∀ (lead : List LeadByte) (ext : Ext) (rm ix : BitVec 3) (sc : BitVec 2) (disp : Disp)
    (d : BitVec 32), (∀ h, LeadByte.seg h ∉ lead) →
    (∀ m ∈ [MemOperand.base rm disp, .sib sc ix rm disp], operandSeg lead ext m =
      if ext.b = false ∧ (rm = 4#3 ∨ rm = 5#3) then .ss else .ds) ∧
    operandSeg lead ext (.relative d) = .ds ∧ operandSeg lead ext (.sibNoBase sc ix d) = .ds) ∧
  (∀ (i : Instr) (s : State) (a : Access), i.access s = some a →
    (s.mode = .mode64 → a.la = a.ea +
      (if a.seg = .fs then s.segs.fs.base else if a.seg = .gs then s.segs.gs.base else 0#64)) ∧
    (s.mode = .mode32 → a.la = (((s.segs.get a.seg).base + a.ea).setWidth 32).setWidth 64) ∧
    (∀ wide l lead reg m, i.shape = .legacy wide l lead reg (.mem m) →
      a.seg = operandSeg lead (rexExt lead) m ∧
      a.ea = s.effectiveAddress lead (rexExt lead) (encode i).length 1 m) ∧
    (∀ wide l lead v reg m, i.shape = .vex wide l lead v reg (.mem m) →
      a.seg = operandSeg lead (vexExt v) m ∧
      a.ea = s.effectiveAddress lead (vexExt v) (encode i).length 1 m) ∧
    (∀ vl l lead e reg m, i.shape = .evex vl l lead e reg (.mem m) →
      a.seg = operandSeg lead (evexExt e) m ∧
      a.ea = s.effectiveAddress lead (evexExt e) (encode i).length a.size m))

/-- R111: the one-byte displacement of an EVEX form counts `N` times, `N` from the rule's table: the
address is the one that the same operand has with the four-byte displacement `disp8 * N`. A four-byte
displacement is not scaled. In both modes, under a `67` prefix too. -/
def Obligations.CompressedDisplacement : Prop :=
  ∀ (i : Instr) (s : State) (a : Access) (vl : VecLen) (l : Lane) (lead : List LeadByte) (e : Evex)
    (reg : BitVec 3) (m : MemOperand) (n : BitVec 32), i.wellFormed = true →
    i.shape = .evex vl l lead e reg (.mem m) → i.access s = some a →
    (n = match e.bcst, l, vl with
      | true, .dword, _ => 4#32
      | true, _, _ => 8#32
      | false, _, .vl128 => 16#32
      | false, _, .vl256 => 32#32
      | false, _, .vl512 => 64#32) →
    (∀ rm d8, m = .base rm (.disp8 d8) → a.ea =
      s.effectiveAddress lead (evexExt e) i.length 1 (.base rm (.disp32 (d8.signExtend 32 * n)))) ∧
    (∀ sc ix rm d8, m = .sib sc ix rm (.disp8 d8) → a.ea =
      s.effectiveAddress lead (evexExt e) i.length 1 (.sib sc ix rm (.disp32 (d8.signExtend 32 * n)))) ∧
    ((∀ rm d8, m ≠ .base rm (.disp8 d8)) → (∀ sc ix rm d8, m ≠ .sib sc ix rm (.disp8 d8)) →
      a.ea = s.effectiveAddress lead (evexExt e) i.length 1 m)

/-- R51: how many bytes each form reads, and that nothing else of memory takes part: a form reads memory
only when its last operand is in memory, and then only the bytes of the operand. -/
def Obligations.MemoryReadFootprint : Prop :=
  (∀ (i : Instr) (s : State) (a : Access), i.access s = some a →
    match i.shape with
    | .legacy false _ _ _ _ => a.size = 8
    | .legacy true _ _ _ _ => a.size = 16
    | .vex false _ _ _ _ _ => a.size = 16
    | .vex true _ _ _ _ _ => a.size = 32
    | .evex vl l _ e _ _ => a.size = if e.bcst then l.bits / 8 else vl.bits / 8) ∧
  (∀ (i : Instr) (s : State) (m : Memory),
    (∀ a, i.access s = some a → ∀ k < a.size,
      m.get (s.byteAddr a.la k).toNat = s.mem.get (s.byteAddr a.la k).toNat) →
    exec i { s with mem := m } = mapNext (fun t => { t with mem := m }) (exec i s))

/-- The model's memory as data: a write is read back and changes no other byte, keeps the canonical form,
and two memories in canonical form that read alike are equal (log 8). -/
def Obligations.MemoryAsData : Prop :=
  (∀ (m : Memory) (a b : Nat) (v : Byte), m.wf = true →
    (m.set a v).wf = true ∧ (m.set a v).get b = if b = a then v else m.get b) ∧
  (∀ m m' : Memory, m.wf = true → m'.wf = true → (∀ a, m.get a = m'.get a) → m = m')

/-! ## Lanes and laws -/

/-- R15, R16, R17: the lane primitives. -/
def Obligations.LanePrimitives : Prop :=
  (∀ (w n j : Nat) (a b : BitVec (w * n)), j < n →
    (lane w (addLanes w n a b) j).toNat = ((lane w a j).toNat + (lane w b j).toNat) % 2 ^ w) ∧
  (∀ (w n j : Nat) (e : BitVec w), j < n → lane w (broadcast n e : BitVec (w * n)) j = e) ∧
  (∀ (w n j : Nat) (m : Option (BitVec 64)) (z : Bool) (old new : BitVec (w * n)), j < n →
    lane w (maskMerge w n m z old new) j =
      if m = none ∨ ∃ k, m = some k ∧ k.getLsbD j = true then lane w new j
      else if z = false then lane w old j else 0#w) ∧
  (∀ (w n : Nat) (k k' : BitVec 64) (z : Bool) (old new : BitVec (w * n)),
    (∀ j < n, k.getLsbD j = k'.getLsbD j) →
    maskMerge w n (some k) z old new = maskMerge w n (some k') z old new)

/-- R145: the lane sum is commutative and associative, zero is its identity, and the same bits result
whether lanes are read as unsigned or as two's complement numbers. -/
def Obligations.AddLaws : Prop :=
  ∀ (w n : Nat) (a b c : BitVec (w * n)), 0 < w →
    addLanes w n a b = addLanes w n b a ∧
    addLanes w n (addLanes w n a b) c = addLanes w n a (addLanes w n b c) ∧
    addLanes w n a 0#(w * n) = a ∧
    ∀ j < n,
      (lane w (addLanes w n a b) j).toNat = ((lane w a j).toNat + (lane w b j).toNat) % 2 ^ w ∧
      (lane w (addLanes w n a b) j).toInt =
        ((lane w a j).toInt + (lane w b j).toInt).bmod (2 ^ w)

/-- R193: a writemask whose bits `KL-1:0` are all ones does what no writemask does. -/
def Obligations.FullMaskIsNoMask : Prop :=
  ∀ (s : State) (vl : VecLen) (l : Lane) (lead : List LeadByte) (e : Evex) (reg : BitVec 3)
    (rm : RmOperand), e.aaa ≠ 0#3 →
    (∀ j < vl.bits / l.bits, (s.k[e.aaa.toNat]).getLsbD j = true) →
    exec (Shape.evex vl l lead e reg rm).instr s =
      exec (Shape.evex vl l lead { e with aaa := 0#3, z := false } reg rm).instr s

/-- R193: under a writemask whose bits `KL-1:0` are all zero, merging keeps the low `VL` bits of the
destination and zeroing clears them; the bits above are zero in both cases. -/
def Obligations.EmptyMask : Prop :=
  ∀ (s t : State) (vl : VecLen) (l : Lane) (lead : List LeadByte) (e : Evex) (reg : BitVec 3)
    (rm : RmOperand), e.aaa ≠ 0#3 →
    (∀ j < vl.bits / l.bits, (s.k[e.aaa.toNat]).getLsbD j = false) →
    exec (Shape.evex vl l lead e reg rm).instr s = .next t →
    t.zmm = s.zmm.set (evexDest e reg)
      (if e.z then 0#512 else ((s.zmm[evexDest e reg]).setWidth vl.bits).setWidth 512)

/-- R27, R28: no form reads an opmask register but the one an EVEX form names with `aaa ≠ 000`, and of
that only bits `KL-1:0`. -/
def Obligations.MaskBitsRead : Prop :=
  ∀ (i : Instr) (s : State) (k' : Vector (BitVec 64) 8),
    (∀ vl l lead e reg rm, i.shape = .evex vl l lead e reg rm → e.aaa ≠ 0#3 →
      ∀ j < vl.bits / l.bits, (k'[e.aaa.toNat]).getLsbD j = (s.k[e.aaa.toNat]).getLsbD j) →
    exec i { s with k := k' } = mapNext (fun t => { t with k := k' }) (exec i s)

/-- R115, R193: on registers 0 to 15 and without a writemask an EVEX form leaves in the vector registers
what the VEX form of the same width and lanes leaves there. -/
def Obligations.UnmaskedEvexIsVex : Prop :=
  ∀ (s t u : State) (wide : Bool) (l : Lane) (lead : List LeadByte) (v : Vex) (e : Evex)
    (reg f : BitVec 3), e.r = (vexExt v).r → e.b = (vexExt v).b → e.x = false → e.rHi = false →
    e.vHi = false → e.vvvv = vexVvvv v → e.aaa = 0#3 →
    exec (Shape.vex wide l lead v reg (.reg f)).instr s = .next t →
    exec (Shape.evex (if wide then .vl256 else .vl128) l lead e reg (.reg f)).instr s = .next u →
    u.zmm = t.zmm

/-- R234, R39: `MXCSR` is neither read nor written by any form, and no form raises a SIMD floating-point
exception, vector 19. -/
def Obligations.MxcsrTakesNoPart : Prop :=
  ∀ (i : Instr) (s : State) (v : BitVec 32),
    exec i { s with mxcsr := v } = mapNext (fun t => { t with mxcsr := v }) (exec i s) ∧
    (∀ t, exec i s = .next t → t.mxcsr = s.mxcsr) ∧
    (∀ f, exec i s = .fault f → f.vector ≠ 19)

/-- R250, R38, R33, R34: a form with a register operand does not depend on the privilege level, the
general registers, the segments, the translation or the map. -/
def Obligations.RegisterFormsAreLocal : Prop :=
  ∀ (i : Instr) (s : State) (c : Fin 4) (g : Vector Quad 16) (sg : Segments) (p : List PageRange)
    (m : List AddrRange), i.access s = none →
    exec i { s with cpl := c, gpr := g, segs := sg, cfg := { s.cfg with pages := p, mapped := m } } =
      mapNext (fun t =>
        { t with cpl := c, gpr := g, segs := sg, cfg := { t.cfg with pages := p, mapped := m } })
        (exec i s)

/-- R160, R180: the old value of the destination is no input of a VEX form, nor of an EVEX form without a
writemask or with zeroing, unless the register is also a source. -/
def Obligations.DestinationIsWriteOnly : Prop :=
  ∀ (s : State) (lead : List LeadByte) (reg : BitVec 3) (rm : RmOperand) (l : Lane) (old : Vec),
    (∀ (wide : Bool) (v : Vex), vexSrc1 v ≠ vexDest v reg →
      (∀ f, rm = .reg f → vecNum false (vexExt v).b f ≠ vexDest v reg) →
      exec (Shape.vex wide l lead v reg rm).instr
          { s with zmm := s.zmm.set (vexDest v reg) old } =
        exec (Shape.vex wide l lead v reg rm).instr s) ∧
    (∀ (vl : VecLen) (e : Evex), e.aaa = 0#3 ∨ e.z = true → evexSrc1 e ≠ evexDest e reg →
      (∀ f, rm = .reg f → vecNum e.x e.b f ≠ evexDest e reg) →
      exec (Shape.evex vl l lead e reg rm).instr
          { s with zmm := s.zmm.set (evexDest e reg) old } =
        exec (Shape.evex vl l lead e reg rm).instr s)
end

