-- ==== Sys2Proof/Laws/Decode.lean ====
section
/-!
SUPPORT. The parts of the decoder, each once in both directions: lead bytes, displacements, ModRM and SIB
(30_encoding.md R93 to R98).
-/
namespace Sys2Proof

/-! ## Lead bytes -/

/-- Is a lead byte one the mode has? REX exists in 64-bit mode only (30_encoding.md R118). -/
def LeadByte.inMode (m : Mode) : LeadByte → Prop
  | .rex _ _ _ _ => m = .mode64
  | _ => True

/-- The byte of a lead byte is read as that lead byte. -/
theorem leadByte_byte {m : Mode} {p : LeadByte} (h : p.inMode m) : leadByte? m p.byte = some p := by
  rcases p with _ | _ | s | _ | _ | _ | ⟨w, r, x, b⟩
  · rfl
  · rfl
  · cases s <;> rfl
  · rfl
  · rfl
  · rfl
  · obtain rfl : m = .mode64 := h
    revert w r x b
    decide

/-- A byte `40` to `4F` is the REX byte of its low bits. -/
theorem rex_byte (b : Byte) (h : b.extractLsb' 4 4 = 4#4) :
    (LeadByte.rex (b.getLsbD 3) (b.getLsbD 2) (b.getLsbD 1) (b.getLsbD 0)).byte = b := by
  revert b
  decide +kernel

/-- A choice that answers something took one side or the other. -/
theorem ite_eq_some {α : Type} {c : Prop} [Decidable c] {x p : α} {y : Option α}
    (h : (if c then some x else y) = some p) : (c ∧ x = p) ∨ y = some p := by
  by_cases hc : c
  · rw [if_pos hc] at h; exact .inl ⟨hc, Option.some.inj h⟩
  · rw [if_neg hc] at h; exact .inr h

/-- A byte read as a lead byte is that lead byte's, and the mode has it. -/
theorem byte_of_leadByte {m : Mode} {b : Byte} {p : LeadByte} (h : leadByte? m b = some p) :
    p.byte = b ∧ p.inMode m := by
  unfold leadByte? at h
  iterate 11
    rcases ite_eq_some h with ⟨hb, rfl⟩ | h
    · exact ⟨hb.symm, trivial⟩
  rcases ite_eq_some h with ⟨hb, rfl⟩ | h
  · exact ⟨rex_byte b hb.1, hb.2⟩
  · cases h

/-- Reading a run that begins with lead bytes and then a byte that is none. -/
theorem scanLead_append {m : Mode} {lead : List LeadByte} (hl : ∀ p ∈ lead, p.inMode m) {b : Byte}
    {t : List Byte} (hb : leadByte? m b = none) :
    scanLead m (lead.map LeadByte.byte ++ b :: t) = (lead, b :: t) := by
  induction lead with
  | nil => simp [scanLead, hb]
  | cons p ps ih =>
    have hp := leadByte_byte (hl p (by simp))
    have ih' := ih fun q hq => hl q (by simp [hq])
    simp [scanLead, hp, ih']

/-- The lead bytes and the rest make up the run; what follows the lead bytes is no lead byte. -/
theorem scanLead_spec (m : Mode) (bs : List Byte) :
    bs = (scanLead m bs).1.map LeadByte.byte ++ (scanLead m bs).2 ∧
      (∀ p ∈ (scanLead m bs).1, p.inMode m) := by
  induction bs with
  | nil => simp [scanLead]
  | cons b t ih =>
    unfold scanLead
    cases h : leadByte? m b with
    | none => simp
    | some p =>
      obtain ⟨h1, h2⟩ := byte_of_leadByte h
      refine ⟨by simp only [List.map_cons, List.cons_append, h1]; rw [← ih.1], ?_⟩
      simpa [h2] using ih.2

/-! ## Fields -/

/-- The byte built from fields of 2, 3 and 3 bits holds them. -/
theorem fields233_parts (hi : BitVec 2) (mid lo : BitVec 3) :
    (fields233 hi mid lo).extractLsb' 6 2 = hi ∧ (fields233 hi mid lo).extractLsb' 3 3 = mid ∧
      (fields233 hi mid lo).extractLsb' 0 3 = lo := by
  revert hi mid lo
  decide +kernel

/-- A byte is built from its fields of 2, 3 and 3 bits. -/
theorem fields233_of_parts (b : Byte) :
    fields233 (b.extractLsb' 6 2) (b.extractLsb' 3 3) (b.extractLsb' 0 3) = b := by
  revert b
  decide +kernel

/-- Four little-endian bytes of a displacement are read back. -/
theorem takeDisp32_bytes (d : BitVec 32) (t : List Byte) :
    takeDisp32 (disp32Bytes d ++ t) = some (d, t) := by
  simp only [disp32Bytes, takeDisp32, List.cons_append, List.nil_append, Option.some.injEq,
    Prod.mk.injEq, and_true]
  ext i hi
  simp only [BitVec.getElem_append, BitVec.getElem_extractLsb']
  repeat' split
  all_goals rw [← BitVec.getLsbD_eq_getElem]; congr 1; omega

/-- A displacement read is the little-endian value of four bytes. -/
theorem bytes_of_takeDisp32 {bs : List Byte} {d : BitVec 32} {t : List Byte}
    (h : takeDisp32 bs = some (d, t)) : bs = disp32Bytes d ++ t := by
  match bs, h with
  | b0 :: b1 :: b2 :: b3 :: t', h =>
    simp only [takeDisp32, Option.some.injEq, Prod.mk.injEq] at h
    obtain ⟨rfl, rfl⟩ := h
    simp only [disp32Bytes, List.cons_append, List.nil_append, List.cons.injEq, and_true]
    refine ⟨?_, ?_, ?_, ?_⟩ <;>
    · ext i hi
      simp only [BitVec.getElem_extractLsb', BitVec.getLsbD_append]
      repeat' split
      all_goals first | omega | (rw [← BitVec.getLsbD_eq_getElem]; congr 1; omega)

/-- A displacement beside a base register is read back. -/
theorem takeDisp_bytes (d : Disp) (t : List Byte) : takeDisp d.mod (d.bytes ++ t) = some (d, t) := by
  cases d with
  | noDisp => rfl
  | disp8 d => rfl
  | disp32 d => simp [takeDisp, Disp.mod, Disp.bytes, takeDisp32_bytes]

/-- A displacement read is the one `mod` calls for. -/
theorem bytes_of_takeDisp {md : BitVec 2} (hmd : md ≠ 3#2) {bs : List Byte} {d : Disp} {t : List Byte}
    (h : takeDisp md bs = some (d, t)) : md = d.mod ∧ bs = d.bytes ++ t := by
  unfold takeDisp at h
  split at h
  · next h0 => simp only [Option.some.injEq, Prod.mk.injEq] at h; obtain ⟨rfl, rfl⟩ := h; exact ⟨h0, rfl⟩
  · next h0 =>
    split at h
    · next h1 =>
      split at h
      · simp only [Option.some.injEq, Prod.mk.injEq] at h; obtain ⟨rfl, rfl⟩ := h; exact ⟨h1, rfl⟩
      · simp at h
    · next h1 =>
      have h2 : md = 2#2 := by
        revert md; decide
      split at h
      · next d' t' hd =>
        simp only [Option.some.injEq, Prod.mk.injEq] at h
        obtain ⟨rfl, rfl⟩ := h
        exact ⟨h2, bytes_of_takeDisp32 hd⟩
      · simp at h

theorem Disp.mod_ne_three (d : Disp) : d.mod ≠ 3#2 := by cases d <;> simp [Disp.mod]

theorem Disp.mod_eq_zero {d : Disp} : d.mod = 0#2 ↔ d = .noDisp := by cases d <;> simp [Disp.mod]

/-! ## ModRM and SIB -/

/-- ModRM, SIB and displacement are read back. -/
theorem parseModRm_bytes (reg : BitVec 3) {rm : RmOperand} (h : rm.wellFormed = true) (t : List Byte) :
    parseModRm (rm.bytes reg ++ t) = some (reg, rm, t) := by
  rcases rm with f | ⟨f, d⟩ | d | ⟨sc, ix, bs, d⟩ | ⟨sc, ix, d⟩
  · obtain ⟨h1, h2, h3⟩ := fields233_parts 3#2 reg f
    simp [RmOperand.bytes, parseModRm, h1, h2, h3]
  · simp only [RmOperand.wellFormed, MemOperand.wellFormed, Bool.and_eq_true, Bool.or_eq_true,
      decide_eq_true_eq] at h
    obtain ⟨h1, h2, h3⟩ := fields233_parts d.mod reg f
    have hz : ¬ (d = .noDisp ∧ f = 5#3) := by rintro ⟨rfl, rfl⟩; simp at h
    simp [RmOperand.bytes, parseModRm, h1, h2, h3, Disp.mod_ne_three, h.1, Disp.mod_eq_zero, hz,
      takeDisp_bytes]
  · obtain ⟨h1, h2, h3⟩ := fields233_parts 0#2 reg 5#3
    simp [RmOperand.bytes, parseModRm, h1, h2, h3, takeDisp32_bytes]
  · simp only [RmOperand.wellFormed, MemOperand.wellFormed, Bool.or_eq_true,
      decide_eq_true_eq] at h
    obtain ⟨h1, h2, h3⟩ := fields233_parts d.mod reg 4#3
    obtain ⟨g1, g2, g3⟩ := fields233_parts sc ix bs
    have hz : ¬ (d = .noDisp ∧ bs = 5#3) := by rintro ⟨rfl, rfl⟩; simp at h
    simp [RmOperand.bytes, parseModRm, h1, h2, h3, g1, g2, g3, Disp.mod_ne_three, Disp.mod_eq_zero, hz,
      takeDisp_bytes]
  · obtain ⟨h1, h2, h3⟩ := fields233_parts 0#2 reg 4#3
    obtain ⟨g1, g2, g3⟩ := fields233_parts sc ix 5#3
    simp [RmOperand.bytes, parseModRm, h1, h2, h3, g1, g2, g3, takeDisp32_bytes]

/-- What ModRM parsing reads is a well-formed operand and its bytes. -/
theorem bytes_of_parseModRm {bs : List Byte} {reg : BitVec 3} {rm : RmOperand} {t : List Byte}
    (h : parseModRm bs = some (reg, rm, t)) : bs = rm.bytes reg ++ t ∧ rm.wellFormed = true := by
  match bs, h with
  | mb :: bs', h =>
    have hm := fields233_of_parts mb
    simp only [parseModRm] at h
    split at h
    · next h3 =>
      simp only [Option.some.injEq, Prod.mk.injEq] at h
      obtain ⟨rfl, rfl, rfl⟩ := h
      rw [h3] at hm
      exact ⟨by simp [RmOperand.bytes, hm], rfl⟩
    · next h3 =>
      split at h
      · next h4 =>
        split at h
        · simp at h
        · next sb t' =>
          have hs := fields233_of_parts sb
          split at h
          · next h0 =>
            split at h
            · next d rest hd =>
              simp only [Option.some.injEq, Prod.mk.injEq] at h
              obtain ⟨rfl, rfl, rfl⟩ := h
              rw [h0.1, h4] at hm
              rw [h0.2] at hs
              exact ⟨by simp [RmOperand.bytes, hm, hs, bytes_of_takeDisp32 hd], rfl⟩
            · simp at h
          · next h0 =>
            split at h
            · next d rest hd =>
              simp only [Option.some.injEq, Prod.mk.injEq] at h
              obtain ⟨rfl, rfl, rfl⟩ := h
              obtain ⟨e1, e2⟩ := bytes_of_takeDisp h3 hd
              rw [e1, h4] at hm
              refine ⟨by simp [RmOperand.bytes, hm, hs, e2], ?_⟩
              rw [e1, Disp.mod_eq_zero] at h0
              simp only [RmOperand.wellFormed, MemOperand.wellFormed, Bool.or_eq_true,
                decide_eq_true_eq]
              tauto
            · simp at h
      · next h4 =>
        split at h
        · next h0 =>
          split at h
          · next d rest hd =>
            simp only [Option.some.injEq, Prod.mk.injEq] at h
            obtain ⟨rfl, rfl, rfl⟩ := h
            rw [h0.1, h0.2] at hm
            exact ⟨by simp [RmOperand.bytes, hm, bytes_of_takeDisp32 hd], rfl⟩
          · simp at h
        · next h0 =>
          split at h
          · next d rest hd =>
            simp only [Option.some.injEq, Prod.mk.injEq] at h
            obtain ⟨rfl, rfl, rfl⟩ := h
            obtain ⟨e1, e2⟩ := bytes_of_takeDisp h3 hd
            rw [e1] at hm
            refine ⟨by simp [RmOperand.bytes, hm, e2], ?_⟩
            rw [e1, Disp.mod_eq_zero] at h0
            simp only [RmOperand.wellFormed, MemOperand.wellFormed, Bool.and_eq_true, Bool.or_eq_true,
              decide_eq_true_eq]
            tauto
          · simp at h

/-! ## Opcode bytes and shapes -/

/-- The opcode byte of a lane width names it. -/
@[simp] theorem lane_opcode (l : Lane) : lane? l.opcode = some l := by cases l <;> rfl

/-- A byte that names a lane width is its opcode byte. -/
theorem opcode_of_lane {op : Byte} {l : Lane} (h : lane? op = some l) : op = l.opcode := by
  unfold lane? at h
  repeat' split at h
  all_goals first
    | (simp only [Option.some.injEq] at h; subst h; assumption)
    | simp at h

/-- A row of the table is the instruction of its shape. -/
@[simp] theorem instr_shape (i : Instr) : i.shape.instr = i := by cases i <;> rfl

/-- The instruction of a shape has that shape. -/
@[simp] theorem shape_instr (sh : Shape) : sh.instr.shape = sh := by
  rcases sh with ⟨wide, l, _⟩ | ⟨wide, l, _⟩ | ⟨vl, l, _⟩
  · cases wide <;> cases l <;> rfl
  · cases wide <;> cases l <;> rfl
  · cases vl <;> cases l <;> rfl

end Sys2Proof
end

