-- ==== Sys2Proof/Laws/State.lean ====
section
/-!
SUPPORT. One lemma for each field of State under each update the machine makes, so that no proof unfolds
a record update.
-/
namespace Sys2Proof.Machine

open Sys2Proof

variable (s : State)

/-! ## `State.advance` -/

@[simp] theorem State.advance_cfg (len : Nat) :
    (s.advance len).cfg = s.cfg := rfl
@[simp] theorem State.advance_mode (len : Nat) :
    (s.advance len).mode = s.mode := rfl
@[simp] theorem State.advance_cpl (len : Nat) :
    (s.advance len).cpl = s.cpl := rfl
@[simp] theorem State.advance_rip (len : Nat) :
    (s.advance len).rip = addAddr s.mode s.rip (BitVec.ofNat 64 len) := rfl
@[simp] theorem State.advance_gpr (len : Nat) :
    (s.advance len).gpr = s.gpr := rfl
@[simp] theorem State.advance_zmm (len : Nat) :
    (s.advance len).zmm = s.zmm := rfl
@[simp] theorem State.advance_x87 (len : Nat) :
    (s.advance len).x87 = s.x87 := rfl
@[simp] theorem State.advance_ftw (len : Nat) :
    (s.advance len).ftw = s.ftw := rfl
@[simp] theorem State.advance_fsw (len : Nat) :
    (s.advance len).fsw = s.fsw := rfl
@[simp] theorem State.advance_k (len : Nat) :
    (s.advance len).k = s.k := rfl
@[simp] theorem State.advance_eflags (len : Nat) :
    (s.advance len).eflags = s.eflags := rfl
@[simp] theorem State.advance_cr0 (len : Nat) :
    (s.advance len).cr0 = s.cr0 := rfl
@[simp] theorem State.advance_cr2 (len : Nat) :
    (s.advance len).cr2 = s.cr2 := rfl
@[simp] theorem State.advance_cr4 (len : Nat) :
    (s.advance len).cr4 = s.cr4 := rfl
@[simp] theorem State.advance_xcr0 (len : Nat) :
    (s.advance len).xcr0 = s.xcr0 := rfl
@[simp] theorem State.advance_mxcsr (len : Nat) :
    (s.advance len).mxcsr = s.mxcsr := rfl
@[simp] theorem State.advance_segs (len : Nat) :
    (s.advance len).segs = s.segs := rfl
@[simp] theorem State.advance_mem (len : Nat) :
    (s.advance len).mem = s.mem := rfl
@[simp] theorem State.advance_runEnd (len : Nat) :
    (s.advance len).runEnd = s.runEnd := rfl
@[simp] theorem State.advance_choices (len : Nat) :
    (s.advance len).choices = s.choices := rfl

/-! ## `State.writeMm` -/

@[simp] theorem State.writeMm_cfg (d : Fin 8) (v : BitVec 64) :
    (s.writeMm d v).cfg = s.cfg := rfl
@[simp] theorem State.writeMm_mode (d : Fin 8) (v : BitVec 64) :
    (s.writeMm d v).mode = s.mode := rfl
@[simp] theorem State.writeMm_cpl (d : Fin 8) (v : BitVec 64) :
    (s.writeMm d v).cpl = s.cpl := rfl
@[simp] theorem State.writeMm_rip (d : Fin 8) (v : BitVec 64) :
    (s.writeMm d v).rip = s.rip := rfl
@[simp] theorem State.writeMm_gpr (d : Fin 8) (v : BitVec 64) :
    (s.writeMm d v).gpr = s.gpr := rfl
@[simp] theorem State.writeMm_zmm (d : Fin 8) (v : BitVec 64) :
    (s.writeMm d v).zmm = s.zmm := rfl
@[simp] theorem State.writeMm_x87 (d : Fin 8) (v : BitVec 64) :
    (s.writeMm d v).x87 = s.x87.set d (0xFFFF#16 ++ v) := rfl
@[simp] theorem State.writeMm_ftw (d : Fin 8) (v : BitVec 64) :
    (s.writeMm d v).ftw = 0x0000#16 := rfl
@[simp] theorem State.writeMm_fsw (d : Fin 8) (v : BitVec 64) :
    (s.writeMm d v).fsw = clearTop s.fsw := rfl
@[simp] theorem State.writeMm_k (d : Fin 8) (v : BitVec 64) :
    (s.writeMm d v).k = s.k := rfl
@[simp] theorem State.writeMm_eflags (d : Fin 8) (v : BitVec 64) :
    (s.writeMm d v).eflags = s.eflags := rfl
@[simp] theorem State.writeMm_cr0 (d : Fin 8) (v : BitVec 64) :
    (s.writeMm d v).cr0 = s.cr0 := rfl
@[simp] theorem State.writeMm_cr2 (d : Fin 8) (v : BitVec 64) :
    (s.writeMm d v).cr2 = s.cr2 := rfl
@[simp] theorem State.writeMm_cr4 (d : Fin 8) (v : BitVec 64) :
    (s.writeMm d v).cr4 = s.cr4 := rfl
@[simp] theorem State.writeMm_xcr0 (d : Fin 8) (v : BitVec 64) :
    (s.writeMm d v).xcr0 = s.xcr0 := rfl
@[simp] theorem State.writeMm_mxcsr (d : Fin 8) (v : BitVec 64) :
    (s.writeMm d v).mxcsr = s.mxcsr := rfl
@[simp] theorem State.writeMm_segs (d : Fin 8) (v : BitVec 64) :
    (s.writeMm d v).segs = s.segs := rfl
@[simp] theorem State.writeMm_mem (d : Fin 8) (v : BitVec 64) :
    (s.writeMm d v).mem = s.mem := rfl
@[simp] theorem State.writeMm_runEnd (d : Fin 8) (v : BitVec 64) :
    (s.writeMm d v).runEnd = s.runEnd := rfl
@[simp] theorem State.writeMm_choices (d : Fin 8) (v : BitVec 64) :
    (s.writeMm d v).choices = s.choices := rfl

/-! ## `State.writeXmmKeep` -/

@[simp] theorem State.writeXmmKeep_cfg (d : Fin 32) (v : BitVec 128) :
    (s.writeXmmKeep d v).cfg = s.cfg := rfl
@[simp] theorem State.writeXmmKeep_mode (d : Fin 32) (v : BitVec 128) :
    (s.writeXmmKeep d v).mode = s.mode := rfl
@[simp] theorem State.writeXmmKeep_cpl (d : Fin 32) (v : BitVec 128) :
    (s.writeXmmKeep d v).cpl = s.cpl := rfl
@[simp] theorem State.writeXmmKeep_rip (d : Fin 32) (v : BitVec 128) :
    (s.writeXmmKeep d v).rip = s.rip := rfl
@[simp] theorem State.writeXmmKeep_gpr (d : Fin 32) (v : BitVec 128) :
    (s.writeXmmKeep d v).gpr = s.gpr := rfl
@[simp] theorem State.writeXmmKeep_zmm (d : Fin 32) (v : BitVec 128) :
    (s.writeXmmKeep d v).zmm = s.zmm.set d ((s.zmm[d].extractLsb' 128 384 ++ v : BitVec (384 + 128))) := rfl
@[simp] theorem State.writeXmmKeep_x87 (d : Fin 32) (v : BitVec 128) :
    (s.writeXmmKeep d v).x87 = s.x87 := rfl
@[simp] theorem State.writeXmmKeep_ftw (d : Fin 32) (v : BitVec 128) :
    (s.writeXmmKeep d v).ftw = s.ftw := rfl
@[simp] theorem State.writeXmmKeep_fsw (d : Fin 32) (v : BitVec 128) :
    (s.writeXmmKeep d v).fsw = s.fsw := rfl
@[simp] theorem State.writeXmmKeep_k (d : Fin 32) (v : BitVec 128) :
    (s.writeXmmKeep d v).k = s.k := rfl
@[simp] theorem State.writeXmmKeep_eflags (d : Fin 32) (v : BitVec 128) :
    (s.writeXmmKeep d v).eflags = s.eflags := rfl
@[simp] theorem State.writeXmmKeep_cr0 (d : Fin 32) (v : BitVec 128) :
    (s.writeXmmKeep d v).cr0 = s.cr0 := rfl
@[simp] theorem State.writeXmmKeep_cr2 (d : Fin 32) (v : BitVec 128) :
    (s.writeXmmKeep d v).cr2 = s.cr2 := rfl
@[simp] theorem State.writeXmmKeep_cr4 (d : Fin 32) (v : BitVec 128) :
    (s.writeXmmKeep d v).cr4 = s.cr4 := rfl
@[simp] theorem State.writeXmmKeep_xcr0 (d : Fin 32) (v : BitVec 128) :
    (s.writeXmmKeep d v).xcr0 = s.xcr0 := rfl
@[simp] theorem State.writeXmmKeep_mxcsr (d : Fin 32) (v : BitVec 128) :
    (s.writeXmmKeep d v).mxcsr = s.mxcsr := rfl
@[simp] theorem State.writeXmmKeep_segs (d : Fin 32) (v : BitVec 128) :
    (s.writeXmmKeep d v).segs = s.segs := rfl
@[simp] theorem State.writeXmmKeep_mem (d : Fin 32) (v : BitVec 128) :
    (s.writeXmmKeep d v).mem = s.mem := rfl
@[simp] theorem State.writeXmmKeep_runEnd (d : Fin 32) (v : BitVec 128) :
    (s.writeXmmKeep d v).runEnd = s.runEnd := rfl
@[simp] theorem State.writeXmmKeep_choices (d : Fin 32) (v : BitVec 128) :
    (s.writeXmmKeep d v).choices = s.choices := rfl

/-! ## `State.writeVecZero` -/

@[simp] theorem State.writeVecZero_cfg {n : Nat} (d : Fin 32) (v : BitVec n) :
    (s.writeVecZero d v).cfg = s.cfg := rfl
@[simp] theorem State.writeVecZero_mode {n : Nat} (d : Fin 32) (v : BitVec n) :
    (s.writeVecZero d v).mode = s.mode := rfl
@[simp] theorem State.writeVecZero_cpl {n : Nat} (d : Fin 32) (v : BitVec n) :
    (s.writeVecZero d v).cpl = s.cpl := rfl
@[simp] theorem State.writeVecZero_rip {n : Nat} (d : Fin 32) (v : BitVec n) :
    (s.writeVecZero d v).rip = s.rip := rfl
@[simp] theorem State.writeVecZero_gpr {n : Nat} (d : Fin 32) (v : BitVec n) :
    (s.writeVecZero d v).gpr = s.gpr := rfl
@[simp] theorem State.writeVecZero_zmm {n : Nat} (d : Fin 32) (v : BitVec n) :
    (s.writeVecZero d v).zmm = s.zmm.set d (v.setWidth 512) := rfl
@[simp] theorem State.writeVecZero_x87 {n : Nat} (d : Fin 32) (v : BitVec n) :
    (s.writeVecZero d v).x87 = s.x87 := rfl
@[simp] theorem State.writeVecZero_ftw {n : Nat} (d : Fin 32) (v : BitVec n) :
    (s.writeVecZero d v).ftw = s.ftw := rfl
@[simp] theorem State.writeVecZero_fsw {n : Nat} (d : Fin 32) (v : BitVec n) :
    (s.writeVecZero d v).fsw = s.fsw := rfl
@[simp] theorem State.writeVecZero_k {n : Nat} (d : Fin 32) (v : BitVec n) :
    (s.writeVecZero d v).k = s.k := rfl
@[simp] theorem State.writeVecZero_eflags {n : Nat} (d : Fin 32) (v : BitVec n) :
    (s.writeVecZero d v).eflags = s.eflags := rfl
@[simp] theorem State.writeVecZero_cr0 {n : Nat} (d : Fin 32) (v : BitVec n) :
    (s.writeVecZero d v).cr0 = s.cr0 := rfl
@[simp] theorem State.writeVecZero_cr2 {n : Nat} (d : Fin 32) (v : BitVec n) :
    (s.writeVecZero d v).cr2 = s.cr2 := rfl
@[simp] theorem State.writeVecZero_cr4 {n : Nat} (d : Fin 32) (v : BitVec n) :
    (s.writeVecZero d v).cr4 = s.cr4 := rfl
@[simp] theorem State.writeVecZero_xcr0 {n : Nat} (d : Fin 32) (v : BitVec n) :
    (s.writeVecZero d v).xcr0 = s.xcr0 := rfl
@[simp] theorem State.writeVecZero_mxcsr {n : Nat} (d : Fin 32) (v : BitVec n) :
    (s.writeVecZero d v).mxcsr = s.mxcsr := rfl
@[simp] theorem State.writeVecZero_segs {n : Nat} (d : Fin 32) (v : BitVec n) :
    (s.writeVecZero d v).segs = s.segs := rfl
@[simp] theorem State.writeVecZero_mem {n : Nat} (d : Fin 32) (v : BitVec n) :
    (s.writeVecZero d v).mem = s.mem := rfl
@[simp] theorem State.writeVecZero_runEnd {n : Nat} (d : Fin 32) (v : BitVec n) :
    (s.writeVecZero d v).runEnd = s.runEnd := rfl
@[simp] theorem State.writeVecZero_choices {n : Nat} (d : Fin 32) (v : BitVec n) :
    (s.writeVecZero d v).choices = s.choices := rfl

/-! ## `State.countChoice` -/

@[simp] theorem State.countChoice_cfg (b : Bool) :
    (s.countChoice b).cfg = s.cfg := rfl
@[simp] theorem State.countChoice_mode (b : Bool) :
    (s.countChoice b).mode = s.mode := rfl
@[simp] theorem State.countChoice_cpl (b : Bool) :
    (s.countChoice b).cpl = s.cpl := rfl
@[simp] theorem State.countChoice_rip (b : Bool) :
    (s.countChoice b).rip = s.rip := rfl
@[simp] theorem State.countChoice_gpr (b : Bool) :
    (s.countChoice b).gpr = s.gpr := rfl
@[simp] theorem State.countChoice_zmm (b : Bool) :
    (s.countChoice b).zmm = s.zmm := rfl
@[simp] theorem State.countChoice_x87 (b : Bool) :
    (s.countChoice b).x87 = s.x87 := rfl
@[simp] theorem State.countChoice_ftw (b : Bool) :
    (s.countChoice b).ftw = s.ftw := rfl
@[simp] theorem State.countChoice_fsw (b : Bool) :
    (s.countChoice b).fsw = s.fsw := rfl
@[simp] theorem State.countChoice_k (b : Bool) :
    (s.countChoice b).k = s.k := rfl
@[simp] theorem State.countChoice_eflags (b : Bool) :
    (s.countChoice b).eflags = s.eflags := rfl
@[simp] theorem State.countChoice_cr0 (b : Bool) :
    (s.countChoice b).cr0 = s.cr0 := rfl
@[simp] theorem State.countChoice_cr2 (b : Bool) :
    (s.countChoice b).cr2 = s.cr2 := rfl
@[simp] theorem State.countChoice_cr4 (b : Bool) :
    (s.countChoice b).cr4 = s.cr4 := rfl
@[simp] theorem State.countChoice_xcr0 (b : Bool) :
    (s.countChoice b).xcr0 = s.xcr0 := rfl
@[simp] theorem State.countChoice_mxcsr (b : Bool) :
    (s.countChoice b).mxcsr = s.mxcsr := rfl
@[simp] theorem State.countChoice_segs (b : Bool) :
    (s.countChoice b).segs = s.segs := rfl
@[simp] theorem State.countChoice_mem (b : Bool) :
    (s.countChoice b).mem = s.mem := rfl
@[simp] theorem State.countChoice_runEnd (b : Bool) :
    (s.countChoice b).runEnd = s.runEnd := rfl
@[simp] theorem State.countChoice_choices (b : Bool) :
    (s.countChoice b).choices = if b then s.choices + 1 else s.choices := rfl

/-! ## `State.launch` -/

@[simp] theorem State.launch_cfg (program : List Byte) :
    (s.launch program).cfg = s.cfg := rfl
@[simp] theorem State.launch_mode (program : List Byte) :
    (s.launch program).mode = Mode.mode64 := rfl
@[simp] theorem State.launch_cpl (program : List Byte) :
    (s.launch program).cpl = 3 := rfl
@[simp] theorem State.launch_rip (program : List Byte) :
    (s.launch program).rip = s.rip := rfl
@[simp] theorem State.launch_gpr (program : List Byte) :
    (s.launch program).gpr = s.gpr := rfl
@[simp] theorem State.launch_zmm (program : List Byte) :
    (s.launch program).zmm = s.zmm := rfl
@[simp] theorem State.launch_x87 (program : List Byte) :
    (s.launch program).x87 = s.x87 := rfl
@[simp] theorem State.launch_ftw (program : List Byte) :
    (s.launch program).ftw = s.ftw := rfl
@[simp] theorem State.launch_fsw (program : List Byte) :
    (s.launch program).fsw = s.fsw &&& 0xFF7F#16 := rfl
@[simp] theorem State.launch_k (program : List Byte) :
    (s.launch program).k = s.k := rfl
@[simp] theorem State.launch_eflags (program : List Byte) :
    (s.launch program).eflags = s.eflags &&& 0xFFFDFEFF#32 := rfl
@[simp] theorem State.launch_cr0 (program : List Byte) :
    (s.launch program).cr0 = s.cr0 &&& 0xFFFBFFF3#32 := rfl
@[simp] theorem State.launch_cr2 (program : List Byte) :
    (s.launch program).cr2 = s.cr2 := rfl
@[simp] theorem State.launch_cr4 (program : List Byte) :
    (s.launch program).cr4 = s.cr4 ||| 0x00040200#32 := rfl
@[simp] theorem State.launch_xcr0 (program : List Byte) :
    (s.launch program).xcr0 = s.xcr0 ||| (if s.cfg.features.avx512f then 0xE6#64 else 0x06#64) := rfl
@[simp] theorem State.launch_mxcsr (program : List Byte) :
    (s.launch program).mxcsr = s.mxcsr := rfl
@[simp] theorem State.launch_segs (program : List Byte) :
    (s.launch program).segs = s.segs := rfl
@[simp] theorem State.launch_mem (program : List Byte) :
    (s.launch program).mem = s.mem.setBytes s.rip.toNat program := rfl
@[simp] theorem State.launch_runEnd (program : List Byte) :
    (s.launch program).runEnd = some (s.rip.toNat + program.length) := rfl
@[simp] theorem State.launch_choices (program : List Byte) :
    (s.launch program).choices = s.choices := rfl

end Sys2Proof.Machine
end

