-- ==== Sys2Proof/Laws/Ops.lean ====
section
/-!
SUPPORT. What each shared operation can do, said once: the table of exceptions, the memory read, and the
steps of an instruction.
-/
namespace Sys2Proof.Machine

open Sys2Proof

/-! ## The tables of exceptions -/

@[simp] theorem firstException_nil : firstException [] = none := rfl

@[simp] theorem firstException_cons (c : Bool) (x : Exception) (t : List (Bool × Exception)) :
    firstException ((c, x) :: t) = if c then some x else firstException t := rfl

/-- The MMX class raises nothing before its operand exactly when its conditions hold. -/
theorem mmxChecks_eq_none {ok : Bool} {len : Nat} {available : Bool} {s : State} :
    mmxChecks ok len available s = none ↔
      ok = true ∧ len ≤ maxLength ∧ available = true ∧ s.ReadyMmx := by
  rcases Nat.lt_or_ge maxLength len with hl | hl <;> cases ok <;> cases available <;> cases h1 : s.cr0Em <;>
    cases h2 : s.cr0Ts <;> cases h3 : s.fswEs <;>
    simp [State.ReadyMmx, mmxChecks, h1, h2, h3, hl, Nat.not_lt.mpr, Nat.not_le.mpr]

/-- The legacy SSE class raises nothing before its operand exactly when its conditions hold. -/
theorem sseChecks_eq_none {ok : Bool} {len : Nat} {available : Bool} {s : State} :
    sseChecks ok len available s = none ↔
      ok = true ∧ len ≤ maxLength ∧ available = true ∧ s.ReadySse := by
  rcases Nat.lt_or_ge maxLength len with hl | hl <;> cases ok <;> cases available <;> cases h1 : s.cr0Em <;>
    cases h2 : s.cr4Osfxsr <;> cases h3 : s.cr0Ts <;>
    simp [State.ReadySse, sseChecks, h1, h2, h3, hl, Nat.not_lt.mpr, Nat.not_le.mpr]

/-- The VEX class raises nothing before its operand exactly when its conditions hold. -/
theorem vexChecks_eq_none {ok : Bool} {len : Nat} {available : Bool} {s : State} :
    vexChecks ok len available s = none ↔
      ok = true ∧ len ≤ maxLength ∧ available = true ∧ s.ReadyVex := by
  rcases Nat.lt_or_ge maxLength len with hl | hl <;> cases ok <;> cases available <;> cases h1 : s.outsideModes <;>
    cases h2 : s.cr4Osxsave <;> cases h3 : s.cr0Ts <;> by_cases h4 : s.xcr0Avx = 3#2 <;>
    simp [State.ReadyVex, vexChecks, h1, h2, h3, h4, hl, Nat.not_lt.mpr, Nat.not_le.mpr]

/-- The EVEX classes raise nothing before the operand exactly when their conditions hold. -/
theorem evexChecks_eq_none {ok : Bool} {len : Nat} {available : Bool} {s : State} :
    evexChecks ok len available s = none ↔
      ok = true ∧ len ≤ maxLength ∧ available = true ∧ s.ReadyEvex := by
  rcases Nat.lt_or_ge maxLength len with hl | hl <;> cases ok <;> cases available <;> cases h1 : s.outsideModes <;>
    cases h2 : s.cr4Osxsave <;> cases h3 : s.cr0Ts <;> by_cases h4 : s.xcr0Avx = 3#2 <;>
    by_cases h5 : s.xcr0Avx512 = 7#3 <;>
    simp [State.ReadyEvex, evexChecks, h1, h2, h3, h4, h5, hl, Nat.not_lt.mpr, Nat.not_le.mpr]

/-! ## The steps of an instruction -/

/-- If an instruction answers a next state, its checks raised nothing, its source was read, and the next
state is its effect. -/
theorem perform_next {α : Type} {checks : Option Exception} {source : Except Stop α}
    {effect : α → State} {s t : State} (h : perform checks source effect s = .next t) :
    checks = none ∧ ∃ v, source = .ok v ∧ t = effect v := by
  unfold perform at h
  split at h
  · simp [raise] at h
  · split at h
    · next e => cases e <;> simp [Stop.result, raise] at h
    · next v => exact ⟨rfl, v, rfl, by simpa using h.symm⟩

/-- An instruction whose checks pass and whose source is read answers its effect. -/
theorem perform_ok {α : Type} {checks : Option Exception} {source : Except Stop α}
    {effect : α → State} {s : State} {v : α} (hc : checks = none) (hs : source = .ok v) :
    perform checks source effect s = .next (effect v) := by
  simp [perform, hc, hs]

/-- An instruction whose checks raise an exception answers it. -/
theorem perform_raise {α : Type} {checks : Option Exception} {source : Except Stop α}
    {effect : α → State} {s : State} {x : Exception} (hc : checks = some x) :
    perform checks source effect s = raise x s := by
  simp [perform, hc]

/-- An instruction whose checks pass and whose source stops answers the stop. -/
theorem perform_stop {α : Type} {checks : Option Exception} {source : Except Stop α}
    {effect : α → State} {s : State} {t : Stop} (hc : checks = none) (hs : source = .error t) :
    perform checks source effect s = t.result s := by
  simp [perform, hc, hs]

/-! ## The memory read -/

/-- A read that succeeds passed every check and gives the bytes at the address. -/
theorem memRead_ok {N : Nat} {s : State} {a : Access} {v : BitVec N} (h : memRead s a = .ok v) :
    memStop s a = none ∧ v = loadBytes s a.la a.size := by
  unfold memRead at h
  split at h
  · simp at h
  · next hn => exact ⟨hn, by simpa using h.symm⟩

/-- A readable operand passes every check. -/
theorem memStop_of_readable {s : State} {a : Access} (h : a.Readable s) : memStop s a = none := by
  obtain ⟨⟨hv, hseg⟩, hal, htr, hac, hmap⟩ := h
  have h1 : segStop s a = none := by
    rcases hseg with ⟨hm, hc⟩ | ⟨hm, hc⟩
    · simp only [segStop, hm, hv]
      simp only [reduceCtorEq, if_false, Bool.false_eq_true]
      rw [if_pos]
      simpa [List.all_eq_true] using hc
    · simp [segStop, hm, hv, hc]
  have h2 : alignStop a = none := by
    unfold alignStop
    split
    · next hh => exact absurd (hal hh.1) hh.2
    · rfl
  have h3 : pageStop s a = none := by
    simp only [pageStop, List.findSome?_eq_none_iff, List.mem_range]
    intro i hi
    have hi' := htr i hi
    unfold pageStopAt
    cases hp : translate s.cfg.pages s.privilege (s.byteAddr a.la i) with
    | physical pa => rfl
    | pageFault code => simp [hp, Translation.isPhysical] at hi'
  have h4 : acStop s a = none := by
    unfold acStop
    cases hr : a.ac with
    | never => rfl
    | always k =>
      rw [hr] at hac
      rcases hac with hac | hac <;> simp [hac]
    | perhaps k =>
      rw [hr] at hac
      rcases hac with hac | hac | hac <;> simp [hac]
  have h5 : mappedStop s a = none := by
    have : isMapped s a = true := by
      simp only [isMapped, List.all_eq_true, List.mem_range, List.any_eq_true]
      exact hmap
    simp [mappedStop, this]
  simp [memStop, h1, h2, h3, h4, h5]

/-- A readable operand is read. -/
theorem memRead_of_readable {N : Nat} {s : State} {a : Access} (h : a.Readable s) :
    memRead s a = .ok (loadBytes s a.la a.size : BitVec N) := by
  simp [memRead, memStop_of_readable h]

end Sys2Proof.Machine
end

