-- ==== Sys2Proof/Laws/Exec.lean ====
section
/-!
SUPPORT. What `exec` and `step` can do, said once: if they answer a next state, one of these cases holds.
-/
namespace Sys2Proof.Machine

open Sys2Proof

/-- The checks of a shape's class before its operand. -/
def shapeChecks (sh : Shape) (s : State) : Option Exception :=
  match sh with
  | .legacy false _ lead _ rm =>
    mmxChecks (legacyBitsOk lead) (legacyLength lead rm) (sh.available s.cfg.features) s
  | .legacy true _ lead _ rm =>
    sseChecks (legacyBitsOk lead) (legacyLength lead rm) (sh.available s.cfg.features) s
  | .vex _ _ lead v _ rm =>
    vexChecks (vexBitsOk lead) (vexLength lead v rm) (sh.available s.cfg.features) s
  | .evex _ l lead e _ rm =>
    evexChecks (evexBitsOk l lead e rm) (evexLength lead rm) (sh.available s.cfg.features) s

/-- The steps of a shape: the four classes. -/
def execShape (sh : Shape) (s : State) : Result :=
  match sh with
  | .legacy false l lead reg rm => execMmx l.bits (sh.available s.cfg.features) lead reg rm s
  | .legacy true l lead reg rm => execSse l.bits lead reg rm s
  | .vex false l lead v reg rm => execVex l.bits 128 (sh.available s.cfg.features) lead v reg rm s
  | .vex true l lead v reg rm => execVex l.bits 256 (sh.available s.cfg.features) lead v reg rm s
  | .evex vl l lead e reg rm =>
    execEvex l vl.bits (sh.available s.cfg.features) lead e reg rm s

/-- Every instruction runs as its shape does. -/
theorem exec_eq_execShape (i : Instr) (s : State) : exec i s = execShape i.shape s := by
  cases i <;> rfl

/-- A ready instruction passes the checks of its class. -/
theorem shapeChecks_of_ready {i : Instr} {s : State} (h : i.Ready s) :
    shapeChecks i.shape s = none := by
  obtain ⟨hw, hf, ha, hc⟩ := h
  have hf' : i.shape.length ≤ maxLength := of_decide_eq_true hf
  unfold Instr.wellFormed at hw
  generalize i.shape = sh at *
  rcases sh with ⟨wide, l, lead, reg, rm⟩ | ⟨wide, l, lead, v, reg, rm⟩ | ⟨vl, l, lead, e, reg, rm⟩
  · have hb : legacyBitsOk lead = true := by
      simp only [Shape.wellFormed, Bool.and_eq_true] at hw
      simpa [legacyBitsOk, List.all_eq_true, List.any_eq_false] using hw.1.2
    cases wide
    · exact mmxChecks_eq_none.mpr ⟨hb, hf', ha, hc⟩
    · exact sseChecks_eq_none.mpr ⟨hb, hf', ha, hc⟩
  · simp only [Shape.wellFormed, Bool.and_eq_true] at hw
    exact vexChecks_eq_none.mpr ⟨hw.1, hf', ha, hc⟩
  · simp only [Shape.wellFormed, Bool.and_eq_true] at hw
    exact evexChecks_eq_none.mpr ⟨by simp only [evexBitsOk, Bool.and_eq_true]; exact hw.1, hf', ha, hc⟩

/-- `t` is the effect of a shape on `s` with its source operand read. -/
def ShapeRan (s t : State) : Shape → Prop
  | .legacy false l lead reg rm =>
      ∃ v, s.mmxSource lead rm = .ok v ∧ t = s.mmxEffect l.bits lead reg rm v
  | .legacy true l lead reg rm =>
      ∃ v, s.sseSource lead rm = .ok v ∧ t = s.sseEffect l.bits lead reg rm v
  | .vex false l lead v reg rm =>
      ∃ v2, s.vexSource 128 lead v rm = .ok v2 ∧ t = s.vexEffect l.bits 128 lead v reg rm v2
  | .vex true l lead v reg rm =>
      ∃ v2, s.vexSource 256 lead v rm = .ok v2 ∧ t = s.vexEffect l.bits 256 lead v reg rm v2
  | .evex vl l lead e reg rm =>
      ∃ v2, s.evexSource l.bits vl.bits lead e rm = .ok v2 ∧
        t = s.evexEffect l.bits vl.bits lead e reg rm v2

/-- If a shape answers a next state, its class's checks passed, its source was read, and the state is its
effect. -/
theorem execShape_next {sh : Shape} {s t : State} (h : execShape sh s = .next t) :
    shapeChecks sh s = none ∧ ShapeRan s t sh := by
  rcases sh with ⟨wide, l, lead, reg, rm⟩ | ⟨wide, l, lead, v, reg, rm⟩ | ⟨vl, l, lead, e, reg, rm⟩
  · cases wide <;> exact perform_next h
  · cases wide <;> exact perform_next h
  · exact perform_next h

/-- If the checks of a shape raise, that is its outcome. -/
theorem execShape_raise {sh : Shape} {s : State} {x : Exception} (h : shapeChecks sh s = some x) :
    execShape sh s = raise x s := by
  rcases sh with ⟨wide, l, lead, reg, rm⟩ | ⟨wide, l, lead, v, reg, rm⟩ | ⟨vl, l, lead, e, reg, rm⟩
  · cases wide <;> exact perform_raise h
  · cases wide <;> exact perform_raise h
  · exact perform_raise h

/-- If the checks of a shape pass and its memory operand stops, that is its outcome. -/
theorem execShape_stop {sh : Shape} {s : State} {a : Access} {t : Stop}
    (hc : shapeChecks sh s = none) (ha : sh.access s = some a) (ht : memStop s a = some t) :
    execShape sh s = t.result s := by
  rcases sh with ⟨wide, l, lead, reg, rm⟩ | ⟨wide, l, lead, v, reg, rm⟩ | ⟨vl, l, lead, e, reg, rm⟩ <;>
    rcases rm with f | m
  · cases wide <;> simp [Shape.access] at ha
  · cases wide <;> simp only [Shape.access, Option.some.injEq] at ha <;> subst ha <;>
      exact perform_stop hc (by simp [State.mmxSource, State.sseSource, memRead, ht])
  · cases wide <;> simp [Shape.access] at ha
  · cases wide <;> simp only [Shape.access, Option.some.injEq] at ha <;> subst ha <;>
      exact perform_stop hc (by simp [State.vexSource, memRead, ht])
  · simp [Shape.access] at ha
  · simp only [Shape.access, Option.some.injEq] at ha
    subst ha
    exact perform_stop hc (by simp [State.evexSource, memRead, ht])

/-- If a step answers a next state, nothing refused it, the bytes at `rip` decode to a form whose end is an
address the next instruction can have, and the state is that form's. -/
theorem step_next {s t : State} (h : step s = .next t) :
    s.stepRefusal = none ∧ ∃ i rest, decode s.mode s.fetch = .form i rest ∧
      s.landingOk i.length = true ∧ exec i s = .next t := by
  unfold step runStep at h
  split at h
  · simp at h
  · next hr =>
    refine ⟨hr, ?_⟩
    unfold runDecoded at h
    split at h
    · next i rest hd =>
      split at h
      · next hl => exact ⟨i, rest, hd, hl, h⟩
      · simp at h
    · simp [raise] at h
    · simp [raise] at h
    · simp at h
    · simp at h
    · simp at h

end Sys2Proof.Machine
end

