-- ==== Sys2Proof/Laws/Fetch.lean ====
section
/-!
SUPPORT. Fetching: the lead bytes a step counts, and that the bytes it looks at decide what the instruction
is (30_encoding.md R113, R114).
-/
namespace Sys2Proof.Machine

open Sys2Proof

/-- The instruction byte at `rip + i`. -/
abbrev State.codeByte (s : State) (i : Nat) : Byte := s.mem.get (s.codeAddr i).toNat

/-! ## Counting lead bytes -/

theorem leadRun_some {s : State} {i : Nat} {p : LeadByte} (fuel : Nat)
    (h : leadByte? s.mode (s.codeByte i) = some p) :
    s.leadRun (fuel + 1) i = s.leadRun fuel (i + 1) + 1 := by
  simp only [State.leadRun, h]

theorem leadRun_none {s : State} {i : Nat} (fuel : Nat) (h : leadByte? s.mode (s.codeByte i) = none) :
    s.leadRun (fuel + 1) i = 0 := by
  simp only [State.leadRun, h]

/-- What the count says: the bytes counted are lead bytes, and the one after them is none unless the count
ran out of fuel. -/
theorem leadRun_spec (s : State) (fuel i : Nat) :
    s.leadRun fuel i ≤ fuel ∧
    (∀ j < s.leadRun fuel i, (leadByte? s.mode (s.codeByte (i + j))).isSome = true) ∧
    (s.leadRun fuel i < fuel → leadByte? s.mode (s.codeByte (i + s.leadRun fuel i)) = none) := by
  induction fuel generalizing i with
  | zero => simp [State.leadRun]
  | succ fuel ih =>
    obtain ⟨h1, h2, h3⟩ := ih (i + 1)
    cases hp : leadByte? s.mode (s.codeByte i) with
    | none => simpa [leadRun_none fuel hp] using hp
    | some p =>
      rw [leadRun_some fuel hp]
      refine ⟨by omega, fun j hj => ?_, fun h => ?_⟩
      · cases j with
        | zero => simp [hp]
        | succ j =>
          have := h2 j (by omega)
          rwa [show i + 1 + j = i + (j + 1) by omega] at this
      · have := h3 (by omega)
        rwa [show i + 1 + s.leadRun fuel (i + 1) = i + (s.leadRun fuel (i + 1) + 1) by omega] at this

/-- At least as many lead bytes are counted as stand there. -/
theorem le_leadRun {s : State} {fuel i n : Nat} (hn : n ≤ fuel)
    (h : ∀ j < n, (leadByte? s.mode (s.codeByte (i + j))).isSome = true) : n ≤ s.leadRun fuel i := by
  obtain ⟨h1, _, h3⟩ := leadRun_spec s fuel i
  refine Nat.le_of_not_lt fun hlt => ?_
  have := h _ hlt
  rw [h3 (by omega)] at this
  exact absurd this (by simp)

/-! ## The bytes fetched -/

@[simp] theorem fetch_length (s : State) : s.fetch.length = s.window := by simp [State.fetch]

theorem fetch_getElem? {s : State} {j : Nat} (h : j < s.window) :
    s.fetch[j]? = some (s.codeByte j) := by
  simp [State.fetch, h]

/-! ## The bytes that decide -/

theorem takeDisp32_enough {t : List Byte} (h : 4 ≤ t.length) : takeDisp32 t ≠ none := by
  match t, h with
  | _ :: _ :: _ :: _ :: _, _ => simp [takeDisp32]

theorem takeDisp_enough (md : BitVec 2) {t : List Byte} (h : 4 ≤ t.length) : takeDisp md t ≠ none := by
  unfold takeDisp
  repeat' split
  all_goals first
    | exact Option.some_ne_none _
    | exact absurd ‹takeDisp32 t = none› (takeDisp32_enough h)
    | exact absurd h (by simp)

/-- Six bytes hold every ModRM, SIB and displacement (30_encoding.md R113). -/
theorem parseModRm_enough {t : List Byte} (h : 6 ≤ t.length) : parseModRm t ≠ none := by
  match t, h with
  | mb :: sb :: t, h =>
    have h4 : 4 ≤ t.length := by simpa using h
    have h4' : 4 ≤ (sb :: t).length := Nat.le_succ_of_le h4
    simp only [parseModRm]
    repeat' split
    all_goals first
      | exact absurd ‹takeDisp32 t = none› (takeDisp32_enough h4)
      | exact absurd ‹takeDisp32 (sb :: t) = none› (takeDisp32_enough h4')
      | exact absurd ‹takeDisp _ t = none› (takeDisp_enough _ h4)
      | exact absurd ‹takeDisp _ (sb :: t) = none› (takeDisp_enough _ h4')
      | exact Option.some_ne_none _

theorem finish_decides (sh : Shape) (rest : List Byte) : sh.finish rest ≠ .outOfBytes := by
  unfold Shape.finish
  split <;> simp

theorem decodeVex_decides (m : Mode) (lead : List LeadByte) (v : Vex) (wide mapOk : Bool) (op : Byte)
    {t : List Byte} (h : 6 ≤ t.length) : decodeVex m lead v wide mapOk op t ≠ .outOfBytes := by
  intro hc
  unfold decodeVex at hc
  repeat' split at hc
  all_goals first
    | exact absurd hc (finish_decides _ _)
    | exact absurd ‹parseModRm t = none› (parseModRm_enough h)
    | exact Decoded.noConfusion hc

theorem decodeEvexFields_decides (m : Mode) (lead : List LeadByte) (ll : BitVec 2) (l : Lane) (e : Evex)
    {t : List Byte} (h : 6 ≤ t.length) : decodeEvexFields m lead ll l e t ≠ .outOfBytes := by
  intro hc
  unfold decodeEvexFields at hc
  repeat' split at hc
  all_goals first
    | exact absurd hc (finish_decides _ _)
    | exact absurd ‹parseModRm t = none› (parseModRm_enough h)
    | exact Decoded.noConfusion hc

/-- Eleven bytes after the lead bytes settle the verdict (30_encoding.md R113, R114). -/
theorem decodeBody_decides (m : Mode) (lead : List LeadByte) {t : List Byte} (h : tailLimit ≤ t.length) :
    decodeBody m lead t ≠ .outOfBytes := by
  match t, h with
  | b :: b1 :: b2 :: b3 :: b4 :: t, h =>
    have h6 : 6 ≤ t.length := by simpa [tailLimit] using h
    have h7 : 6 ≤ (b4 :: t).length := Nat.le_succ_of_le h6
    have h8 : 6 ≤ (b3 :: b4 :: t).length := Nat.le_succ_of_le h7
    have h9 : 6 ≤ (b2 :: b3 :: b4 :: t).length := Nat.le_succ_of_le h8
    intro hc
    simp only [decodeBody, decodeLegacy, decodeVex2, decodeVex3, decodeEvex] at hc
    repeat' split at hc
    all_goals first
      | exact absurd hc (finish_decides _ _)
      | exact absurd hc (decodeVex_decides _ _ _ _ _ _ h8)
      | exact absurd hc (decodeVex_decides _ _ _ _ _ _ h7)
      | exact absurd hc (decodeEvexFields_decides _ _ _ _ _ h6)
      | exact absurd ‹parseModRm _ = none› (parseModRm_enough h9)
      | exact Decoded.noConfusion hc

/-- Reading lead bytes leaves the run from its first byte that is none. -/
theorem scanLead_drop {m : Mode} {n : Nat} {bs : List Byte}
    (hl : ∀ j < n, ∃ b, bs[j]? = some b ∧ (leadByte? m b).isSome = true)
    (hn : ∃ b, bs[n]? = some b ∧ leadByte? m b = none) : (scanLead m bs).2 = bs.drop n := by
  induction n generalizing bs with
  | zero =>
    obtain ⟨b, h1, h2⟩ := hn
    cases bs with
    | nil => simp at h1
    | cons c t =>
      obtain rfl : c = b := by simpa using h1
      simp [scanLead, h2]
  | succ n ih =>
    obtain ⟨b, h1, h2⟩ := hl 0 (Nat.succ_pos n)
    cases bs with
    | nil => simp at h1
    | cons c t =>
      obtain rfl : c = b := by simpa using h1
      obtain ⟨p, hp⟩ := Option.isSome_iff_exists.mp h2
      have := ih (bs := t) (fun j hj => by simpa using hl (j + 1) (Nat.succ_lt_succ hj))
        (by simpa using hn)
      simp [scanLead, hp, this]

/-- Without an end address, and unless lead bytes fill the address space, the bytes fetched settle what the
instruction is (30_encoding.md R114, log 20). -/
theorem fetch_decides {s : State} (hm : s.mode ≠ .realAddress) (he : s.runEnd = none)
    (h : s.leadRun addressCount 0 < addressCount) : decode s.mode s.fetch ≠ .outOfBytes := by
  obtain ⟨_, hl, hn⟩ := leadRun_spec s addressCount 0
  have hw : s.window = s.leadRun addressCount 0 + tailLimit := by simp [State.window, he, State.reach]
  have hlt : s.leadRun addressCount 0 < s.window := by simp [hw, tailLimit]
  have hs : (scanLead s.mode s.fetch).2 = s.fetch.drop (s.leadRun addressCount 0) :=
    scanLead_drop (fun j hj => ⟨_, fetch_getElem? (hj.trans hlt), by simpa using hl j hj⟩)
      ⟨_, fetch_getElem? hlt, by simpa using hn h⟩
  have ht : tailLimit ≤ (scanLead s.mode s.fetch).2.length := by simp [hs, hw]
  unfold decode
  split
  · exact absurd ‹s.mode = .realAddress› hm
  · next hmode => rw [hmode] at ht; exact decodeBody_decides _ _ ht
  · next hmode => rw [hmode] at ht; exact decodeBody_decides _ _ ht

end Sys2Proof.Machine
end

