-- ==== Sys2Proof/Laws/Lanes.lean ====
section
/-!
SUPPORT. What a value made of lanes holds, bit by bit and lane by lane (00_scope.md R10, R15 to R17).
-/
namespace Sys2Proof.Machine

variable {N : Nat}

/-- Bit `i` of `ofLanes` is bit `i % w` of lane `i / w`. -/
theorem getLsbD_ofLanes {w : Nat} (hw : 0 < w) (n : Nat) (f : Nat → BitVec w) (i : Nat) :
    (ofLanes w n f : BitVec N).getLsbD i =
      (decide (i < N) && decide (i < w * n) && (f (i / w)).getLsbD (i % w)) := by
  induction n with
  | zero => simp [ofLanes]
  | succ n ih =>
    simp only [ofLanes, BitVec.getLsbD_or, ih, BitVec.getLsbD_shiftLeft, BitVec.getLsbD_setWidth]
    by_cases hN : i < N
    · by_cases h1 : i < w * n
      · have h2 : i < w * (n + 1) := by rw [Nat.mul_succ]; omega
        simp [hN, h1, h2]
      · by_cases h2 : i < w * (n + 1)
        · have h3 : i / w = n := by
            rw [Nat.div_eq_iff hw, Nat.mul_comm n w]
            rw [Nat.mul_succ] at h2
            omega
          have h4 : i % w = i - w * n := by
            have := Nat.div_add_mod i w
            rw [h3] at this
            omega
          have h5 : i - w * n < N := by omega
          simp [hN, h1, h2, h3, h4, h5]
        · have h3 : w ≤ i - w * n := by rw [Nat.mul_succ] at h2; omega
          simp [hN, h1, h2, BitVec.getLsbD_of_ge _ _ h3]
    · simp [hN]

/-- Lane `j` of `ofLanes w n f` is `f j`. -/
theorem lane_ofLanes {w n : Nat} (f : Nat → BitVec w) {j : Nat} (hj : j < n) (hN : w * n ≤ N) :
    lane w (ofLanes w n f : BitVec N) j = f j := by
  rcases Nat.eq_zero_or_pos w with rfl | hw
  · exact Subsingleton.elim _ _
  · ext i hi
    have h1 : w * j + i < w * n :=
      calc w * j + i < w * j + w := by omega
        _ = w * (j + 1) := (Nat.mul_succ w j).symm
        _ ≤ w * n := Nat.mul_le_mul_left w hj
    have h2 : w * j + i < N := by omega
    have h3 : (w * j + i) / w = j := by
      rw [Nat.mul_add_div hw, Nat.div_eq_of_lt hi, Nat.add_zero]
    have h4 : (w * j + i) % w = i := by
      rw [Nat.mul_add_mod, Nat.mod_eq_of_lt hi]
    rw [lane, BitVec.getElem_extractLsb', getLsbD_ofLanes hw]
    simp [h1, h2, h3, h4, BitVec.getLsbD_eq_getElem hi]

/-- `ofLanes` holds nothing from bit `w * n` up. -/
theorem getLsbD_ofLanes_high {w : Nat} (hw : 0 < w) (n : Nat) (f : Nat → BitVec w) {i : Nat}
    (hi : w * n ≤ i) : (ofLanes w n f : BitVec N).getLsbD i = false := by
  rw [getLsbD_ofLanes hw]
  simp [Nat.not_lt.mpr hi]

/-- Two values that agree on every lane are equal, when the lanes fill the width. -/
theorem eq_of_lanes {w n : Nat} (hw : 0 < w) (hN : N ≤ w * n) {a b : BitVec N}
    (h : ∀ j < n, lane w a j = lane w b j) : a = b := by
  ext i hi
  have hj : i / w < n := by
    apply Nat.div_lt_of_lt_mul
    omega
  have hm : i % w < w := Nat.mod_lt i hw
  have e := congrArg (fun v => v.getLsbD (i % w)) (h (i / w) hj)
  simp only [lane, BitVec.getLsbD_extractLsb', hm, decide_true, Bool.true_and,
    Nat.div_add_mod] at e
  simpa [BitVec.getLsbD_eq_getElem hi] using e

end Sys2Proof.Machine
end

