-- ==== Sys2Proof/Laws/Memory.lean ====
section
/-!
SUPPORT. Memory as data: reading after writing, and the canonical form kept by every memory operation.
-/
namespace Sys2Proof.Machine

open Sys2Proof

/-- Reading an entry put in front. -/
theorem Memory.get_cons (a : Nat) (v : Byte) (t : Memory) (b : Nat)
    (h : Memory.get t a = unlistedByte) :
    Memory.get (Memory.cons a v t) b = if a = b then v else Memory.get t b := by
  unfold Memory.cons
  split
  · next hv =>
    split
    · next hab => rw [← hab, h, hv]
    · rfl
  · rfl

/-- Below its first address a memory lists nothing. -/
theorem Memory.get_of_lt {low : Nat} {m : Memory} (h : Memory.wfFrom low m = true) {a : Nat}
    (ha : a < low) : Memory.get m a = unlistedByte := by
  induction m generalizing low with
  | nil => rfl
  | cons kv t ih =>
    obtain ⟨k, v⟩ := kv
    simp only [Memory.wfFrom, Bool.and_eq_true, decide_eq_true_eq] at h
    have hk : k ≠ a := by omega
    simp only [Memory.get, hk, if_false]
    exact ih h.2 (by omega)

/-- The canonical form from a higher address is one from a lower address. -/
theorem Memory.wfFrom_mono {low low' : Nat} {m : Memory} (h : Memory.wfFrom low m = true)
    (hl : low' ≤ low) : Memory.wfFrom low' m = true := by
  cases m with
  | nil => rfl
  | cons kv t =>
    obtain ⟨k, v⟩ := kv
    simp only [Memory.wfFrom, Bool.and_eq_true, decide_eq_true_eq] at h ⊢
    exact ⟨⟨by omega, h.1.2⟩, h.2⟩

/-- Putting an entry in front keeps the canonical form. -/
theorem Memory.wfFrom_cons {low a : Nat} {v : Byte} {t : Memory} (ha : low ≤ a)
    (h : Memory.wfFrom (a + 1) t = true) : Memory.wfFrom low (Memory.cons a v t) = true := by
  unfold Memory.cons
  split
  · exact Memory.wfFrom_mono h (by omega)
  · next hv => simp [Memory.wfFrom, ha, hv, h]

/-- A write keeps the canonical form, from any lower bound of the written address. -/
theorem Memory.wfFrom_set {low : Nat} {m : Memory} (h : Memory.wfFrom low m = true) {a : Nat} {v : Byte}
    (ha : low ≤ a) : Memory.wfFrom low (Memory.set m a v) = true := by
  induction m generalizing low with
  | nil => exact Memory.wfFrom_cons ha rfl
  | cons kx t ih =>
    obtain ⟨k, x⟩ := kx
    have h' := h
    simp only [Memory.wfFrom, Bool.and_eq_true, decide_eq_true_eq] at h
    simp only [Memory.set]
    split
    · next hlt => exact Memory.wfFrom_cons ha (by simp [Memory.wfFrom, h.1.2, h.2]; omega)
    · split
      · next hak => exact Memory.wfFrom_cons ha (by rw [hak]; exact h.2)
      · simp only [Memory.wfFrom, Bool.and_eq_true, decide_eq_true_eq]
        exact ⟨h.1, ih h.2 (by omega)⟩

/-- A write keeps the canonical form. -/
theorem Memory.wf_set {m : Memory} (h : m.wf = true) (a : Nat) (v : Byte) :
    (Memory.set m a v).wf = true :=
  Memory.wfFrom_set h (Nat.zero_le a)

/-- Writing a run of bytes keeps the canonical form. -/
theorem Memory.wf_setBytes {m : Memory} (h : m.wf = true) (a : Nat) (bs : List Byte) :
    (Memory.setBytes m a bs).wf = true := by
  induction bs generalizing m a with
  | nil => exact h
  | cons b t ih => exact ih (Memory.wf_set h a b) (a + 1)

/-- Reset memory has the canonical form. -/
theorem Memory.wf_reset : State.reset.mem.wf = true := rfl

end Sys2Proof.Machine
end

