-- ==== Sys2Proof/Laws/PerInstr.lean ====
section
/-!
SUPPORT. One lemma for each constructor of `Instr`: the encoder writes as many bytes as the length rule
of 30_encoding.md R113 counts.
-/
namespace Sys2Proof.Laws

open Sys2Proof

/-- A displacement's bytes, counted. -/
@[simp] theorem disp_bytes_length (d : Disp) : d.bytes.length = d.length := by
  cases d <;> rfl

/-- ModRM, SIB and displacement bytes, counted. -/
@[simp] theorem rm_bytes_length (reg : BitVec 3) (rm : RmOperand) :
    (rm.bytes reg).length = rm.length := by
  rcases rm with f | ⟨f, d⟩ | d | ⟨sc, ix, bs, d⟩ | ⟨sc, ix, d⟩ <;>
    simp [RmOperand.bytes, RmOperand.length, disp32Bytes] <;> omega

/-- The bytes of a shape, counted (30_encoding.md R113). -/
theorem shape_encode_length (sh : Shape) : sh.encode.length = sh.length := by
  cases sh with
  | legacy wide l lead reg rm =>
    simp [Shape.encode, Shape.length, legacyLength]; omega
  | vex wide l lead v reg rm =>
    cases v <;> simp [Shape.encode, Shape.length, vexLength, Vex.bytes] <;> omega
  | evex vl l lead e reg rm =>
    simp [Shape.encode, Shape.length, evexLength, Evex.bytes]; omega

/-- The encoding of `i` has the length of `i`. -/
def EncodedLength.Statement (i : Instr) : Prop := (encode i).length = i.length

theorem EncodedLength.paddbMm (lead : List LeadByte) (reg : BitVec 3) (rm : RmOperand) :
    EncodedLength.Statement (.paddbMm lead reg rm) := shape_encode_length _

theorem EncodedLength.paddwMm (lead : List LeadByte) (reg : BitVec 3) (rm : RmOperand) :
    EncodedLength.Statement (.paddwMm lead reg rm) := shape_encode_length _

theorem EncodedLength.padddMm (lead : List LeadByte) (reg : BitVec 3) (rm : RmOperand) :
    EncodedLength.Statement (.padddMm lead reg rm) := shape_encode_length _

theorem EncodedLength.paddqMm (lead : List LeadByte) (reg : BitVec 3) (rm : RmOperand) :
    EncodedLength.Statement (.paddqMm lead reg rm) := shape_encode_length _

theorem EncodedLength.paddbXmm (lead : List LeadByte) (reg : BitVec 3) (rm : RmOperand) :
    EncodedLength.Statement (.paddbXmm lead reg rm) := shape_encode_length _

theorem EncodedLength.paddwXmm (lead : List LeadByte) (reg : BitVec 3) (rm : RmOperand) :
    EncodedLength.Statement (.paddwXmm lead reg rm) := shape_encode_length _

theorem EncodedLength.padddXmm (lead : List LeadByte) (reg : BitVec 3) (rm : RmOperand) :
    EncodedLength.Statement (.padddXmm lead reg rm) := shape_encode_length _

theorem EncodedLength.paddqXmm (lead : List LeadByte) (reg : BitVec 3) (rm : RmOperand) :
    EncodedLength.Statement (.paddqXmm lead reg rm) := shape_encode_length _

theorem EncodedLength.vpaddbVexXmm (lead : List LeadByte) (v : Vex) (reg : BitVec 3) (rm : RmOperand) :
    EncodedLength.Statement (.vpaddbVexXmm lead v reg rm) := shape_encode_length _

theorem EncodedLength.vpaddwVexXmm (lead : List LeadByte) (v : Vex) (reg : BitVec 3) (rm : RmOperand) :
    EncodedLength.Statement (.vpaddwVexXmm lead v reg rm) := shape_encode_length _

theorem EncodedLength.vpadddVexXmm (lead : List LeadByte) (v : Vex) (reg : BitVec 3) (rm : RmOperand) :
    EncodedLength.Statement (.vpadddVexXmm lead v reg rm) := shape_encode_length _

theorem EncodedLength.vpaddqVexXmm (lead : List LeadByte) (v : Vex) (reg : BitVec 3) (rm : RmOperand) :
    EncodedLength.Statement (.vpaddqVexXmm lead v reg rm) := shape_encode_length _

theorem EncodedLength.vpaddbVexYmm (lead : List LeadByte) (v : Vex) (reg : BitVec 3) (rm : RmOperand) :
    EncodedLength.Statement (.vpaddbVexYmm lead v reg rm) := shape_encode_length _

theorem EncodedLength.vpaddwVexYmm (lead : List LeadByte) (v : Vex) (reg : BitVec 3) (rm : RmOperand) :
    EncodedLength.Statement (.vpaddwVexYmm lead v reg rm) := shape_encode_length _

theorem EncodedLength.vpadddVexYmm (lead : List LeadByte) (v : Vex) (reg : BitVec 3) (rm : RmOperand) :
    EncodedLength.Statement (.vpadddVexYmm lead v reg rm) := shape_encode_length _

theorem EncodedLength.vpaddqVexYmm (lead : List LeadByte) (v : Vex) (reg : BitVec 3) (rm : RmOperand) :
    EncodedLength.Statement (.vpaddqVexYmm lead v reg rm) := shape_encode_length _

theorem EncodedLength.vpaddbEvexXmm (lead : List LeadByte) (v : Evex) (reg : BitVec 3) (rm : RmOperand) :
    EncodedLength.Statement (.vpaddbEvexXmm lead v reg rm) := shape_encode_length _

theorem EncodedLength.vpaddwEvexXmm (lead : List LeadByte) (v : Evex) (reg : BitVec 3) (rm : RmOperand) :
    EncodedLength.Statement (.vpaddwEvexXmm lead v reg rm) := shape_encode_length _

theorem EncodedLength.vpadddEvexXmm (lead : List LeadByte) (v : Evex) (reg : BitVec 3) (rm : RmOperand) :
    EncodedLength.Statement (.vpadddEvexXmm lead v reg rm) := shape_encode_length _

theorem EncodedLength.vpaddqEvexXmm (lead : List LeadByte) (v : Evex) (reg : BitVec 3) (rm : RmOperand) :
    EncodedLength.Statement (.vpaddqEvexXmm lead v reg rm) := shape_encode_length _

theorem EncodedLength.vpaddbEvexYmm (lead : List LeadByte) (v : Evex) (reg : BitVec 3) (rm : RmOperand) :
    EncodedLength.Statement (.vpaddbEvexYmm lead v reg rm) := shape_encode_length _

theorem EncodedLength.vpaddwEvexYmm (lead : List LeadByte) (v : Evex) (reg : BitVec 3) (rm : RmOperand) :
    EncodedLength.Statement (.vpaddwEvexYmm lead v reg rm) := shape_encode_length _

theorem EncodedLength.vpadddEvexYmm (lead : List LeadByte) (v : Evex) (reg : BitVec 3) (rm : RmOperand) :
    EncodedLength.Statement (.vpadddEvexYmm lead v reg rm) := shape_encode_length _

theorem EncodedLength.vpaddqEvexYmm (lead : List LeadByte) (v : Evex) (reg : BitVec 3) (rm : RmOperand) :
    EncodedLength.Statement (.vpaddqEvexYmm lead v reg rm) := shape_encode_length _

theorem EncodedLength.vpaddbEvexZmm (lead : List LeadByte) (v : Evex) (reg : BitVec 3) (rm : RmOperand) :
    EncodedLength.Statement (.vpaddbEvexZmm lead v reg rm) := shape_encode_length _

theorem EncodedLength.vpaddwEvexZmm (lead : List LeadByte) (v : Evex) (reg : BitVec 3) (rm : RmOperand) :
    EncodedLength.Statement (.vpaddwEvexZmm lead v reg rm) := shape_encode_length _

theorem EncodedLength.vpadddEvexZmm (lead : List LeadByte) (v : Evex) (reg : BitVec 3) (rm : RmOperand) :
    EncodedLength.Statement (.vpadddEvexZmm lead v reg rm) := shape_encode_length _

theorem EncodedLength.vpaddqEvexZmm (lead : List LeadByte) (v : Evex) (reg : BitVec 3) (rm : RmOperand) :
    EncodedLength.Statement (.vpaddqEvexZmm lead v reg rm) := shape_encode_length _

end Sys2Proof.Laws
end

