-- ==== Sys2Proof/Laws/Table.lean ====
section
/-!
SUPPORT. The opcode table against the instructions (30_encoding.md R125): a well-formed instruction is
covered by exactly one row, its own. The feature flags against the CPUID bits (10_state.md R41).
-/
namespace Sys2Proof.Laws

open Sys2Proof

/-! ## The bytes under the masks -/

theorem vex_byte1 (r x b : Bool) :
    (BitVec.ofBool (!r) ++ BitVec.ofBool (!x) ++ BitVec.ofBool (!b) ++ 1#5 : Byte) &&& 0x1F#8 =
      0x01#8 := by revert r x b; decide

theorem vex_byte2 (w wide : Bool) (vvvv : BitVec 4) :
    (BitVec.ofBool w ++ ~~~vvvv ++ BitVec.ofBool wide ++ 1#2 : Byte) &&& 0x07#8 =
      if wide then 0x05#8 else 0x01#8 := by revert w wide vvvv; decide +kernel

theorem evex_p0 (r x b rHi : Bool) :
    (BitVec.ofBool (!r) ++ BitVec.ofBool (!x) ++ BitVec.ofBool (!b) ++ BitVec.ofBool (!rHi) ++ 1#4 :
      Byte) &&& 0x0F#8 = 0x01#8 := by revert r x b rHi; decide

theorem evex_p1 (w : Bool) (vvvv : BitVec 4) :
    (BitVec.ofBool w ++ ~~~vvvv ++ 5#3 : Byte) &&& 0x07#8 = 0x05#8 ∧
    (BitVec.ofBool w ++ ~~~vvvv ++ 5#3 : Byte) &&& 0x87#8 = if w then 0x85#8 else 0x05#8 := by
  revert w vvvv; decide +kernel

theorem evex_p2 (z bcst vHi : Bool) (aaa : BitVec 3) (vl : VecLen) :
    (BitVec.ofBool z ++ vl.ll ++ BitVec.ofBool bcst ++ BitVec.ofBool (!vHi) ++ aaa : Byte) &&& 0x60#8 =
      (0#1 ++ vl.ll ++ 0#5 : Byte) ∧
    (BitVec.ofBool z ++ vl.ll ++ BitVec.ofBool bcst ++ BitVec.ofBool (!vHi) ++ aaa : Byte) &&& 0x70#8 =
      (0#1 ++ vl.ll ++ BitVec.ofBool bcst ++ 0#4 : Byte) := by
  revert z bcst vHi aaa; cases vl <;> decide +kernel

/-! ## Exactly one row -/

/-- The rows that a byte run is of, among those of one format. -/
abbrev rowsOfRun (rows : List TableRow) (run : List Byte) : List TableRow :=
  rows.filter fun row => decide (List.zipWith (fun byte m => byte &&& m) run row.mask = row.pattern)

theorem vex_covered (run : List Byte) :
    (tableRows.filter fun row => decide (row.format = .vex) &&
      decide (List.zipWith (fun byte m => byte &&& m) run row.mask = row.pattern)) =
      rowsOfRun vexRows run := by
  simp [tableRows, mmxRows, sseRows, vexRows, evexRows, rowsOfRun, List.filter_cons]

theorem evex_covered (run : List Byte) :
    (tableRows.filter fun row => decide (row.format = .evex) &&
      decide (List.zipWith (fun byte m => byte &&& m) run row.mask = row.pattern)) =
      rowsOfRun evexRows run := by
  simp [tableRows, mmxRows, sseRows, vexRows, evexRows, rowsOfRun, List.filter_cons]

/-- The VEX rows of a header: one. -/
theorem vex_rows (b1 b2 : Byte) (wide : Bool) (l : Lane) (h1 : b1 &&& 0x1F#8 = 0x01#8)
    (h2 : b2 &&& 0x07#8 = if wide then 0x05#8 else 0x01#8) (lead : List LeadByte) (v : Vex)
    (reg : BitVec 3) (rm : RmOperand) :
    (rowsOfRun vexRows [0xC4#8, b1, b2, l.opcode]).map TableRow.id =
      [(Shape.vex wide l lead v reg rm).instr.rowId] := by
  cases wide <;> cases l <;>
    simp [rowsOfRun, vexRows, h1, h2, Lane.opcode, Shape.instr, Instr.rowId]

/-- The EVEX rows of a header whose fields fit the lane width: one. -/
theorem evex_rows (p0 p1 p2 : Byte) (w bcst : Bool) (vl : VecLen) (l : Lane) (h0 : p0 &&& 0x0F#8 = 0x01#8)
    (h1 : p1 &&& 0x07#8 = 0x05#8) (h1w : p1 &&& 0x87#8 = if w then 0x85#8 else 0x05#8)
    (h2 : p2 &&& 0x60#8 = (0#1 ++ vl.ll ++ 0#5 : Byte))
    (h2b : p2 &&& 0x70#8 = (0#1 ++ vl.ll ++ BitVec.ofBool bcst ++ 0#4 : Byte))
    (hw : match l with | .byte => True | .word => True | .dword => w = false | .qword => w = true)
    (hb : match l with | .byte => bcst = false | .word => bcst = false | .dword => True | .qword => True)
    (lead : List LeadByte) (e : Evex) (reg : BitVec 3) (rm : RmOperand) :
    (rowsOfRun evexRows [0x62#8, p0, p1, p2, l.opcode]).map TableRow.id =
      [(Shape.evex vl l lead e reg rm).instr.rowId] := by
  cases l <;> simp only at hw hb <;> cases vl <;>
    simp [rowsOfRun, evexRows, h0, h1, h1w, h2, h2b, hw, hb, Lane.opcode, VecLen.ll,
      Shape.instr, Instr.rowId]

/-- Exactly one row covers a well-formed shape, the row of its constructor (30_encoding.md R125). -/
theorem rows_of_shape {sh : Shape} (h : sh.wellFormed = true) :
    (tableRows.filter fun row => row.covers sh).map TableRow.id = [sh.instr.rowId] := by
  rcases sh with ⟨wide, l, lead, reg, rm⟩ | ⟨wide, l, lead, v, reg, rm⟩ | ⟨vl, l, lead, e, reg, rm⟩
  · have hw : hasOpSize lead = wide := by
      simp only [Shape.wellFormed, Bool.and_eq_true, decide_eq_true_eq] at h
      exact h.1.1
    simp only [TableRow.covers, Shape.format, Shape.normalised, hw]
    cases wide <;> cases l <;> rfl
  · obtain ⟨r, x, b, w, vvvv, hv⟩ : ∃ r x b w vvvv, v.widened = .three r x b w vvvv := by
      cases v <;> exact ⟨_, _, _, _, _, rfl⟩
    simp only [TableRow.covers, Shape.format, Shape.normalised, hv]
    refine (congrArg (List.map TableRow.id) (vex_covered _)).trans ?_
    exact vex_rows _ _ wide l (vex_byte1 r x b) (vex_byte2 w wide vvvv) lead v reg rm
  · simp only [Shape.wellFormed, Bool.and_eq_true] at h
    simp only [TableRow.covers, Shape.format, Shape.normalised]
    refine (congrArg (List.map TableRow.id) (evex_covered _)).trans ?_
    have hw := h.1.1.1.1.2
    have hb := h.1.1.2
    refine evex_rows _ _ _ e.w e.bcst vl l (evex_p0 ..) (evex_p1 ..).1 (evex_p1 ..).2 (evex_p2 ..).1
      (evex_p2 ..).2 ?_ ?_ lead e reg rm
    · cases l <;> first | trivial | simpa [Evex.wOk] using hw
    · cases l <;> first | trivial | simpa [Evex.nbOk] using hb

/-- The same for an instruction. -/
theorem rows_of_instr {i : Instr} (h : i.wellFormed = true) :
    (tableRows.filter fun row => row.covers i.shape).map TableRow.id = [i.rowId] := by
  simpa using rows_of_shape h

/-! ## CPUID -/

/-- The two feature readings are inverse to each other (10_state.md R41). -/
theorem features_of_record (f : Features) : f.record.features = f := by
  rcases f with ⟨a, b, c, d, e, g, h⟩
  revert a b c d e g h
  decide +kernel

end Sys2Proof.Laws
end

