-- ==== Sys2Proof/Tests/Slice0.lean ====
section
/-!
SUPPORT. The model's own tests: ill-formed terms that WellFormed refuses, the decoder on bytes written out
in spec/30_encoding.md and spec/95_test_vectors.md, one or two steps of each form with the results that
95_test_vectors.md and the rules' examples give, the fault vectors of its V7 and V8, and for each
obligation with hypotheses a state and operands that meet them.
-/
namespace Sys2Proof.Tests

-- One theorem at a time: as parallel tasks, these many kernel evaluations run out of threads.
set_option Elab.async false

open Sys2Proof Sys2Proof.Machine

/-! ## Helpers -/

/-- A launch at 400000H (95_test_vectors.md, conventions). -/
def boot (program : List Byte) : State :=
  { State.reset with rip := 0x400000#64 }.launch program

/-- The operands of 95_test_vectors.md. -/
def a64 : BitVec 64 := 0x7FFF8000FF0180FF#64
def b64 : BitVec 64 := 0x0001800001FF8001#64
def a512 : Vec :=
  0x0123456789ABCDEFFEDCBA987654321000000000FFFFFFFFFFFFFFFF0000000080000000000000007FFFFFFFFFFFFFFF7FFF8000FF0180FFFFFFFFFFFFFFFFFF#512
def b512 : Vec :=
  0x11111111111111110123456789ABCDF000000001FFFFFFFF0000000100000001800000000000000000000000000000010001800001FF80010000000000000001#512
def o512 : Vec :=
  0xAAAAAAAAAAAAAAAA5555555555555555AAAAAAAAAAAAAAAA5555555555555555AAAAAAAAAAAAAAAA5555555555555555AAAAAAAAAAAAAAAA5555555555555555#512

/-- `zmm0 = O512`, `zmm1 = A512`, `zmm2 = B512`, `k1 = m`; the low parts of `A512` and `B512` are the A and
B of every width. -/
def vecs (program : List Byte) (m : BitVec 64) : State :=
  { boot program with
    zmm := (((Vector.replicate 32 0#512).set 0 o512).set 1 a512).set 2 b512
    k := (Vector.replicate 8 0#64).set 1 m }

/-- `gpr0 = a` and the bytes `bs` at `a`. -/
def withData (s : State) (a : Addr) (bs : List Byte) : State :=
  { s with gpr := s.gpr.set 0 a, mem := s.mem.setBytes a.toNat bs }

/-- A vector register after an outcome. -/
def zmmAfter (r : Result) (i : Fin 32) : Option Vec :=
  match r with
  | .next t => some t.zmm[i]
  | _ => none

/-- An MMX register after an outcome. -/
def mmAfter (r : Result) (i : Fin 8) : Option (BitVec 64) :=
  match r with
  | .next t => some (t.mm i)
  | _ => none

/-- Does an outcome complete? -/
def completes (r : Result) : Bool :=
  match r with
  | .next _ => true
  | _ => false

/-- The fault of an outcome. -/
def faultOf (r : Result) : Option Fault :=
  match r with
  | .fault f => some f
  | _ => none

/-- The refusal of an outcome. -/
def refusalOf (r : Result) : Option Refusal :=
  match r with
  | .refused f => some f
  | _ => none

/-- An outcome that completes has a next state. -/
theorem exists_next {r : Result} (h : completes r = true) : ∃ t, r = .next t := by
  cases r with
  | next t => exact ⟨t, rfl⟩
  | fault f => cases h
  | refused f => cases h

/-! ## WellFormed refuses ill-formed terms, one for each check -/

theorem test_wf_base_100 : (MemOperand.base 4#3 .noDisp).wellFormed = false := by decide
theorem test_wf_base_101_without_disp : (MemOperand.base 5#3 .noDisp).wellFormed = false := by decide
theorem test_wf_sib_base_101_without_disp :
    (MemOperand.sib 0#2 0#3 5#3 .noDisp).wellFormed = false := by decide
theorem test_wf_mmx_with_66 : (Instr.paddbMm [.opSize] 0#3 (.reg 0#3)).wellFormed = false := by decide
theorem test_wf_sse_without_66 : (Instr.paddbXmm [] 0#3 (.reg 0#3)).wellFormed = false := by decide
theorem test_wf_lock : (Instr.paddbMm [.lock] 0#3 (.reg 0#3)).wellFormed = false := by decide
theorem test_wf_repne : (Instr.paddbMm [.repne] 0#3 (.reg 0#3)).wellFormed = false := by decide
theorem test_wf_rep : (Instr.paddbXmm [.opSize, .rep] 0#3 (.reg 0#3)).wellFormed = false := by decide
theorem test_wf_66_before_vex :
    (Instr.vpaddbVexXmm [.opSize] (.two false 1#4) 0#3 (.reg 0#3)).wellFormed = false := by decide
theorem test_wf_rex_before_vex :
    (Instr.vpaddbVexXmm [.rex false false false false] (.two false 1#4) 0#3 (.reg 0#3)).wellFormed =
      false := by decide

/-- EVEX fields with everything zero but those given. -/
def evexOf (w z bcst : Bool) (vvvv : BitVec 4) (aaa : BitVec 3) : Evex :=
  { r := false, x := false, b := false, rHi := false, w := w, vvvv := vvvv, z := z, bcst := bcst,
    vHi := false, aaa := aaa }

theorem test_wf_66_before_evex :
    (Instr.vpaddbEvexXmm [.opSize] (evexOf false false false 1#4 0#3) 0#3 (.reg 0#3)).wellFormed =
      false := by decide
theorem test_wf_evex_dword_w1 :
    (Instr.vpadddEvexXmm [] (evexOf true false false 1#4 0#3) 0#3 (.reg 0#3)).wellFormed = false := by
  decide
theorem test_wf_evex_qword_w0 :
    (Instr.vpaddqEvexXmm [] (evexOf false false false 1#4 0#3) 0#3 (.reg 0#3)).wellFormed = false := by
  decide
theorem test_wf_evex_zeroing_without_mask :
    (Instr.vpaddbEvexXmm [] (evexOf false true false 1#4 0#3) 0#3 (.reg 0#3)).wellFormed = false := by
  decide
theorem test_wf_evex_broadcast_on_bytes :
    (Instr.vpaddbEvexXmm [] (evexOf false false true 1#4 0#3) 0#3
      (.mem (.base 0#3 .noDisp))).wellFormed = false := by decide
theorem test_wf_evex_broadcast_of_register :
    (Instr.vpadddEvexXmm [] (evexOf false false true 1#4 0#3) 0#3 (.reg 0#3)).wellFormed = false := by
  decide
theorem test_fits_16_bytes :
    (Instr.paddbXmm (List.replicate 13 .opSize) 0#3 (.reg 1#3)).fits = false := by decide
theorem test_admitted_32_rex :
    (Instr.paddbMm [.rex false false false false] 0#3 (.reg 0#3)).admitted .mode32 = false := by decide
theorem test_admitted_32_67 :
    (Instr.vpaddbVexXmm [.addrSize] (.two false 1#4) 0#3 (.reg 0#3)).admitted .mode32 = false := by
  decide
theorem test_admitted_32_high_vvvv :
    (Instr.vpaddbVexXmm [] (.two false 8#4) 0#3 (.reg 0#3)).admitted .mode32 = false := by decide

/-! ## Decoding, constructor by constructor (95_test_vectors.md V2 to V5) -/

theorem test_decode_paddbMm : decode .mode64
    [0x0F#8, 0xFC#8, 0xC1#8] =
    .form (.paddbMm [] 0#3 (.reg 1#3)) [] := by decide +kernel
theorem test_decode_paddwMm : decode .mode64
    [0x0F#8, 0xFD#8, 0x13#8] =
    .form (.paddwMm [] 2#3 (.mem (.base 3#3 .noDisp))) [] := by decide +kernel
theorem test_decode_padddMm : decode .mode64
    [0x0F#8, 0xFE#8, 0x5C#8, 0x88#8, 0x10#8] =
    .form (.padddMm [] 3#3 (.mem (.sib 2#2 1#3 0#3 (.disp8 0x10#8)))) [] := by decide +kernel
theorem test_decode_paddqMm : decode .mode64
    [0x0F#8, 0xD4#8, 0x0D#8, 0x00#8, 0x01#8, 0x00#8, 0x00#8] =
    .form (.paddqMm [] 1#3 (.mem (.relative 0x100#32))) [] := by decide +kernel
theorem test_decode_paddbXmm : decode .mode64
    [0x66#8, 0x41#8, 0x0F#8, 0xFC#8, 0x04#8, 0x24#8] =
    .form (.paddbXmm [.opSize, .rex false false false true] 0#3
      (.mem (.sib 0#2 4#3 4#3 .noDisp))) [] := by decide +kernel
theorem test_decode_paddwXmm : decode .mode64
    [0x66#8, 0x45#8, 0x0F#8, 0xFD#8, 0xC7#8] =
    .form (.paddwXmm [.opSize, .rex false true false true] 0#3 (.reg 7#3)) [] := by decide +kernel
theorem test_decode_padddXmm : decode .mode64
    [0x66#8, 0x0F#8, 0xFE#8, 0xCA#8] =
    .form (.padddXmm [.opSize] 1#3 (.reg 2#3)) [] := by decide +kernel
theorem test_decode_paddqXmm : decode .mode64
    [0x66#8, 0x0F#8, 0xD4#8, 0x5C#8, 0x24#8, 0x08#8] =
    .form (.paddqXmm [.opSize] 3#3 (.mem (.sib 0#2 4#3 4#3 (.disp8 0x08#8)))) [] := by decide +kernel
theorem test_decode_vpaddbVexXmm : decode .mode64
    [0xC5#8, 0xF1#8, 0xFC#8, 0xC2#8] =
    .form (.vpaddbVexXmm [] (.two false 1#4) 0#3 (.reg 2#3)) [] := by decide +kernel
theorem test_decode_vpaddwVexXmm : decode .mode64
    [0xC4#8, 0x41#8, 0x31#8, 0xFD#8, 0xC2#8] =
    .form (.vpaddwVexXmm [] (.three true false true false 9#4) 0#3 (.reg 2#3)) [] := by decide +kernel
theorem test_decode_vpadddVexXmm : decode .mode64
    [0xC4#8, 0xC1#8, 0x69#8, 0xFE#8, 0x08#8] =
    .form (.vpadddVexXmm [] (.three false false true false 2#4) 1#3
      (.mem (.base 0#3 .noDisp))) [] := by decide +kernel
theorem test_decode_vpaddqVexXmm : decode .mode64
    [0xC5#8, 0x81#8, 0xD4#8, 0xCB#8] =
    .form (.vpaddqVexXmm [] (.two false 15#4) 1#3 (.reg 3#3)) [] := by decide +kernel
theorem test_decode_vpaddbVexYmm : decode .mode64
    [0xC5#8, 0xF5#8, 0xFC#8, 0xC2#8] =
    .form (.vpaddbVexYmm [] (.two false 1#4) 0#3 (.reg 2#3)) [] := by decide +kernel
theorem test_decode_vpaddwVexYmm : decode .mode64
    [0xC5#8, 0xED#8, 0xFD#8, 0x0D#8, 0x10#8, 0x00#8, 0x00#8, 0x00#8] =
    .form (.vpaddwVexYmm [] (.two false 2#4) 1#3 (.mem (.relative 0x10#32))) [] := by decide +kernel
theorem test_decode_vpadddVexYmm : decode .mode64
    [0xC5#8, 0xF5#8, 0xFE#8, 0xC2#8] =
    .form (.vpadddVexYmm [] (.two false 1#4) 0#3 (.reg 2#3)) [] := by decide +kernel
theorem test_decode_vpaddqVexYmm : decode .mode64
    [0xC5#8, 0x15#8, 0xD4#8, 0x65#8, 0xE0#8] =
    .form (.vpaddqVexYmm [] (.two true 13#4) 4#3 (.mem (.base 5#3 (.disp8 0xE0#8)))) [] := by decide +kernel
theorem test_decode_vpaddbEvexXmm : decode .mode64
    [0x62#8, 0xF1#8, 0x6D#8, 0x09#8, 0xFC#8, 0xCB#8] =
    .form (.vpaddbEvexXmm [] (evexOf false false false 2#4 1#3) 1#3 (.reg 3#3)) [] := by decide +kernel
theorem test_decode_vpaddwEvexXmm : decode .mode64
    [0x62#8, 0xF1#8, 0x6D#8, 0x8D#8, 0xFD#8, 0x48#8, 0x01#8] =
    .form (.vpaddwEvexXmm [] (evexOf false true false 2#4 5#3) 1#3
      (.mem (.base 0#3 (.disp8 0x01#8)))) [] := by decide +kernel
theorem test_decode_vpadddEvexXmm : decode .mode64
    [0x62#8, 0xA1#8, 0x75#8, 0x00#8, 0xFE#8, 0xC2#8] =
    .form (.vpadddEvexXmm []
      { r := false, x := true, b := false, rHi := true, w := false, vvvv := 1#4, z := false,
        bcst := false, vHi := true, aaa := 0#3 } 0#3 (.reg 2#3)) [] := by decide +kernel
theorem test_decode_vpaddqEvexXmm : decode .mode64
    [0x62#8, 0xF1#8, 0xED#8, 0x18#8, 0xD4#8, 0x48#8, 0x01#8] =
    .form (.vpaddqEvexXmm [] (evexOf true false true 2#4 0#3) 1#3
      (.mem (.base 0#3 (.disp8 0x01#8)))) [] := by decide +kernel
theorem test_decode_vpaddbEvexYmm : decode .mode64
    [0x62#8, 0xF1#8, 0x75#8, 0x29#8, 0xFC#8, 0xC2#8] =
    .form (.vpaddbEvexYmm [] (evexOf false false false 1#4 1#3) 0#3 (.reg 2#3)) [] := by decide +kernel
theorem test_decode_vpaddwEvexYmm : decode .mode64
    [0x62#8, 0xF1#8, 0x5D#8, 0x2A#8, 0xFD#8, 0xDD#8] =
    .form (.vpaddwEvexYmm [] (evexOf false false false 4#4 2#3) 3#3 (.reg 5#3)) [] := by decide +kernel
theorem test_decode_vpadddEvexYmm : decode .mode64
    [0x62#8, 0xF1#8, 0x6D#8, 0x28#8, 0xFE#8, 0x48#8, 0x01#8] =
    .form (.vpadddEvexYmm [] (evexOf false false false 2#4 0#3) 1#3
      (.mem (.base 0#3 (.disp8 0x01#8)))) [] := by decide +kernel
theorem test_decode_vpaddqEvexYmm : decode .mode64
    [0x62#8, 0xF1#8, 0xE5#8, 0x38#8, 0xD4#8, 0x50#8, 0xFF#8] =
    .form (.vpaddqEvexYmm [] (evexOf true false true 3#4 0#3) 2#3
      (.mem (.base 0#3 (.disp8 0xFF#8)))) [] := by decide +kernel
theorem test_decode_vpaddbEvexZmm : decode .mode64
    [0x62#8, 0x81#8, 0x55#8, 0x40#8, 0xFC#8, 0x64#8, 0xCC#8, 0x02#8] =
    .form (.vpaddbEvexZmm []
      { r := false, x := true, b := true, rHi := true, w := false, vvvv := 5#4, z := false,
        bcst := false, vHi := true, aaa := 0#3 } 4#3 (.mem (.sib 3#2 1#3 4#3 (.disp8 0x02#8)))) [] := by decide +kernel
theorem test_decode_vpaddwEvexZmm : decode .mode64
    [0x62#8, 0x01#8, 0x0D#8, 0x40#8, 0xFD#8, 0xFD#8] =
    .form (.vpaddwEvexZmm []
      { r := true, x := true, b := true, rHi := true, w := false, vvvv := 14#4, z := false,
        bcst := false, vHi := true, aaa := 0#3 } 7#3 (.reg 5#3)) [] := by decide +kernel
theorem test_decode_vpadddEvexZmm : decode .mode64
    [0x62#8, 0xF1#8, 0x75#8, 0x48#8, 0xFE#8, 0x80#8, 0x10#8, 0x00#8, 0x00#8, 0x00#8] =
    .form (.vpadddEvexZmm [] (evexOf false false false 1#4 0#3) 0#3
      (.mem (.base 0#3 (.disp32 0x10#32)))) [] := by decide +kernel
theorem test_decode_vpaddqEvexZmm : decode .mode64
    [0x62#8, 0xE1#8, 0x8D#8, 0x47#8, 0xD4#8, 0x48#8, 0x01#8] =
    .form (.vpaddqEvexZmm []
      { r := false, x := false, b := false, rHi := true, w := true, vvvv := 14#4, z := false,
        bcst := false, vHi := true, aaa := 7#3 } 1#3 (.mem (.base 0#3 (.disp8 0x01#8)))) [] := by decide +kernel

/-- 95_test_vectors.md V6: near misses are #UD, refused, or too long. -/
theorem test_decode_ud :
    ∀ bs ∈ [
      [0xF0#8, 0x0F#8, 0xFC#8, 0x03#8],
      [0xF3#8, 0x0F#8, 0xFC#8, 0xC1#8],
      [0xF2#8, 0x0F#8, 0xFE#8, 0xC1#8],
      [0x66#8, 0xC5#8, 0xF1#8, 0xFC#8, 0xC2#8],
      [0x62#8, 0xF5#8, 0x75#8, 0x48#8, 0xFC#8, 0xC2#8],
      [0x62#8, 0xF1#8, 0x71#8, 0x48#8, 0xFC#8, 0xC2#8],
      [0x62#8, 0xF1#8, 0x75#8, 0x68#8, 0xFC#8, 0xC2#8],
      [0x62#8, 0xF1#8, 0xF5#8, 0x48#8, 0xFE#8, 0xC2#8],
      [0x62#8, 0xF1#8, 0x75#8, 0x48#8, 0xD4#8, 0xC2#8],
      [0x62#8, 0xF1#8, 0x75#8, 0x88#8, 0xFC#8, 0xC2#8],
      [0x62#8, 0xF1#8, 0x75#8, 0x18#8, 0xFE#8, 0xC2#8],
      [0x62#8, 0xF1#8, 0x75#8, 0x58#8, 0xFC#8, 0x00#8]],
      decode .mode64 bs = .ud := by decide +kernel

theorem test_decode_refused :
    ∀ bs ∈ [[0x0F#8, 0xFB#8, 0xC1#8], [0xC5#8, 0xF1#8, 0xFB#8, 0xC2#8],
      [0xC5#8, 0xF2#8, 0xFC#8, 0xC2#8]], decode .mode64 bs = .notAForm := by decide +kernel

/-- Twelve `66` bytes make 15 bytes; a thirteenth is one too many (R113). -/
theorem test_decode_fifteen_bytes : decode .mode64 (List.replicate 12 0x66#8 ++ [0x0F#8, 0xFC#8, 0xC1#8]) =
    .form (.paddbXmm (List.replicate 12 .opSize) 0#3 (.reg 1#3)) [] := by decide +kernel

theorem test_decode_sixteen_bytes :
    decode .mode64 (List.replicate 13 0x66#8 ++ [0x0F#8, 0xFC#8, 0xC1#8]) = .tooLong := by
  decide +kernel

/-- In 32-bit mode `C5` is LDS unless the next byte's top bits are ones, and a REX byte is another
instruction (R118). -/
theorem test_decode_mode32 :
    decode .mode32 [0xC5#8, 0xF1#8, 0xFC#8, 0xC2#8] =
      .form (.vpaddbVexXmm [] (.two false 1#4) 0#3 (.reg 2#3)) [] ∧
    decode .mode32 [0xC5#8, 0x71#8, 0xFC#8, 0xC2#8] = .notAForm ∧
    decode .mode32 [0x4C#8, 0x0F#8, 0xFC#8, 0xC1#8] = .notAForm ∧
    decode .mode32 [0x67#8, 0x0F#8, 0xFC#8, 0x00#8] = .mode32Encoding := by decide +kernel

/-- A word of the opcode table, its last byte in bits 7:0, and the step that runs it. -/
theorem test_table_word : decodeTableWord 24 0x0FFCC1 = some (.paddbMm [] 0#3 (.reg 1#3)) ∧
    completes (step (State.reset.withFetchWord 24 0x0FFCC1)) = true ∧
    completes (step (State.reset.withFetchWord 48 0x62F17558FE00)) = true := by decide +kernel

/-- The table's words are read with bit 0 in the last byte only: this #UD run is no row (R125, V6). -/
theorem test_table_word_no_row : decodeTableWord 48 0x62F17558FC0F = none ∧
    decodeTableWord 32 0x660FFCC1 = some (.paddbXmm [.opSize] 0#3 (.reg 1#3)) := by decide +kernel

/-- Any number of lead bytes is read before the verdict (R114 step 3, R232 step 1): #UD, refused, #GP(0). -/
theorem test_step_many_lead_bytes :
    faultOf (step (boot (List.replicate 40 0xF0#8 ++ [0x0F#8, 0xFC#8, 0xC1#8]))) =
      some (.ud 0x400000#64) ∧
    refusalOf (step (boot (List.replicate 40 0x66#8 ++ [0x0F#8, 0xFB#8, 0xC1#8]))) = some .notAForm ∧
    faultOf (step (boot (List.replicate 40 0x66#8 ++ [0x0F#8, 0xFC#8, 0xC1#8]))) =
      some (.gp 0x400000#64) := by decide +kernel

/-- Bytes cut off by the end address: a verdict that the opcode byte settles stands, the #GP(0) of a length
that is certain to exceed 15 bytes needs the rest of the form (log 35). -/
theorem test_step_cut_off :
    faultOf (step (boot [0xF0#8, 0x0F#8, 0xFC#8])) = some (.ud 0x400000#64) ∧
    faultOf (step (boot [0x66#8, 0xC5#8, 0xF1#8, 0xFC#8])) = some (.ud 0x400000#64) ∧
    refusalOf (step (boot [0x66#8, 0xC5#8, 0xF1#8])) = some .pastEnd ∧
    refusalOf (step (boot [0xF0#8, 0x0F#8])) = some .pastEnd ∧
    refusalOf (step (boot (List.replicate 13 0x66#8 ++ [0x0F#8, 0xFC#8]))) = some .pastEnd := by decide +kernel

/-- In 32-bit mode the #UD of R104 comes before the refusal of R118 (log 34). -/
theorem test_decode_mode32_ud_first :
    decode .mode32 [0x66#8, 0x67#8, 0xC5#8, 0xF1#8, 0xFC#8, 0xC2#8] = .ud ∧
    decode .mode32 [0x67#8, 0xC5#8, 0xF1#8, 0xFC#8, 0xC2#8] = .mode32Encoding := by decide +kernel

/-- The bits of R41. -/
theorem test_cpuid_bits :
    (CpuidRecord.mk 0x04800000#32 0x10000000#32 0xC0010020#32).features = State.reset.cfg.features ∧
    (CpuidRecord.mk 0xFB7FFFFF#32 0xEFFFFFFF#32 0x3FFEFFDF#32).features =
      Features.mk false false false false false false false := by decide +kernel

/-- The widths of R5: 512 with `AVX512F`, 256 with `AVX` alone, 128 with `SSE2` alone; no other is
consistent. -/
theorem test_maxvl_of_features :
    ([Features.mk true true true true true true true, .mk true true true true false false false,
        .mk true true false false false false false].map fun f =>
      [MaxVl.bits128, .bits256, .bits512].map fun v =>
        Params.consistent { State.reset.cfg with features := f, maxVl := v }) =
    [[false, false, true], [false, true, false], [true, false, false]] := by decide +kernel

/-- Faults of the decoder before the test of `rip + len`, that test before the faults of execution (log
36): at the top of the low canonical addresses, 16 bytes, a LOCK prefix, and a form with `CR0.TS = 1`. -/
theorem test_step_landing_order :
    faultOf (step ({ State.reset with rip := 0x00007FFFFFFFFFF0#64 }.launch
      (List.replicate 13 0x66#8 ++ [0x0F#8, 0xFC#8, 0xC1#8]))) = some (.gp 0x00007FFFFFFFFFF0#64) ∧
    faultOf (step ({ State.reset with rip := 0x00007FFFFFFFFFFC#64 }.launch
      ([0xF0#8, 0x0F#8, 0xFC#8, 0xC1#8]))) = some (.ud 0x00007FFFFFFFFFFC#64) ∧
    refusalOf (step { State.launch { State.reset with rip := 0x00007FFFFFFFFFFD#64 } ([0x0F#8, 0xFC#8, 0xC1#8]) with
      cr0 := 8#32 }) = some .nextRipNotCanonical := by decide +kernel

/-! ## Steps (95_test_vectors.md V1 to V4, and the examples of R181 to R192) -/

/-- `mm0 = a64`, `mm1 = b64`, each tag empty, `TOP = 5`, `ES = 0`. -/
def mmx (program : List Byte) : State :=
  { boot program with
    x87 := ((Vector.replicate 8 0#80).set 0 (0x3FFF#16 ++ a64)).set 1 (0x1234#16 ++ b64)
    ftw := 0xFFFF#16
    fsw := 0x2800#16 }

theorem test_step_paddbMm : mmAfter (step (mmx [0x0F#8, 0xFC#8, 0xC1#8])) 0 =
    some 0x7F00000000000000#64 := by decide +kernel
theorem test_step_paddwMm : mmAfter (step (mmx [0x0F#8, 0xFD#8, 0xC1#8])) 0 =
    some 0x8000000001000100#64 := by decide +kernel
theorem test_step_padddMm : mmAfter (step (mmx [0x0F#8, 0xFE#8, 0xC1#8])) 0 =
    some 0x8001000001010100#64 := by decide +kernel
theorem test_step_paddqMm : mmAfter (step (mmx [0x0F#8, 0xD4#8, 0xC1#8])) 0 =
    some 0x8001000101010100#64 := by decide +kernel

/-- R26: the side effects of an MMX form. -/
theorem test_step_mmx_side_effects :
    (match step (mmx [0x0F#8, 0xFC#8, 0xC1#8]) with
      | .next t => some (t.ftw, t.fsw, (t.x87[0]).extractLsb' 64 16, t.x87[1], t.rip)
      | _ => none) =
    some (0#16, 0#16, 0xFFFF#16, 0x1234#16 ++ b64, 0x400003#64) := by decide +kernel

/-- `paddbXmm` keeps the bits above 127 of its destination. -/
theorem test_step_paddbXmm : zmmAfter (step (vecs [0x66#8, 0x0F#8, 0xFC#8, 0xCA#8] 0#64)) 1 =
    some 0x0123456789ABCDEFFEDCBA987654321000000000FFFFFFFFFFFFFFFF0000000080000000000000007FFFFFFFFFFFFFFF7F00000000000000FFFFFFFFFFFFFF00#512 := by
  decide +kernel
/-- `paddwXmm` keeps the bits above 127 of its destination. -/
theorem test_step_paddwXmm : zmmAfter (step (vecs [0x66#8, 0x0F#8, 0xFD#8, 0xCA#8] 0#64)) 1 =
    some 0x0123456789ABCDEFFEDCBA987654321000000000FFFFFFFFFFFFFFFF0000000080000000000000007FFFFFFFFFFFFFFF8000000001000100FFFFFFFFFFFF0000#512 := by
  decide +kernel
/-- `padddXmm` keeps the bits above 127 of its destination. -/
theorem test_step_padddXmm : zmmAfter (step (vecs [0x66#8, 0x0F#8, 0xFE#8, 0xCA#8] 0#64)) 1 =
    some 0x0123456789ABCDEFFEDCBA987654321000000000FFFFFFFFFFFFFFFF0000000080000000000000007FFFFFFFFFFFFFFF8001000001010100FFFFFFFF00000000#512 := by
  decide +kernel
/-- `paddqXmm` keeps the bits above 127 of its destination. -/
theorem test_step_paddqXmm : zmmAfter (step (vecs [0x66#8, 0x0F#8, 0xD4#8, 0xCA#8] 0#64)) 1 =
    some 0x0123456789ABCDEFFEDCBA987654321000000000FFFFFFFFFFFFFFFF0000000080000000000000007FFFFFFFFFFFFFFF80010001010101000000000000000000#512 := by
  decide +kernel

theorem test_step_vpaddbVexXmm : zmmAfter (step (vecs [0xC5#8, 0xF1#8, 0xFC#8, 0xC2#8] 0#64)) 0 =
    some 0x7F00000000000000FFFFFFFFFFFFFF00#512 := by decide +kernel
theorem test_step_vpaddwVexXmm : zmmAfter (step (vecs [0xC5#8, 0xF1#8, 0xFD#8, 0xC2#8] 0#64)) 0 =
    some 0x8000000001000100FFFFFFFFFFFF0000#512 := by decide +kernel
theorem test_step_vpadddVexXmm : zmmAfter (step (vecs [0xC5#8, 0xF1#8, 0xFE#8, 0xC2#8] 0#64)) 0 =
    some 0x8001000001010100FFFFFFFF00000000#512 := by decide +kernel
theorem test_step_vpaddqVexXmm : zmmAfter (step (vecs [0xC5#8, 0xF1#8, 0xD4#8, 0xC2#8] 0#64)) 0 =
    some 0x80010001010101000000000000000000#512 := by decide +kernel
theorem test_step_vpaddbVexYmm : zmmAfter (step (vecs [0xC5#8, 0xF5#8, 0xFC#8, 0xC2#8] 0#64)) 0 =
    some 0x00000000000000007FFFFFFFFFFFFF007F00000000000000FFFFFFFFFFFFFF00#512 := by decide +kernel
theorem test_step_vpaddwVexYmm : zmmAfter (step (vecs [0xC5#8, 0xF5#8, 0xFD#8, 0xC2#8] 0#64)) 0 =
    some 0x00000000000000007FFFFFFFFFFF00008000000001000100FFFFFFFFFFFF0000#512 := by decide +kernel
theorem test_step_vpadddVexYmm : zmmAfter (step (vecs [0xC5#8, 0xF5#8, 0xFE#8, 0xC2#8] 0#64)) 0 =
    some 0x00000000000000007FFFFFFF000000008001000001010100FFFFFFFF00000000#512 := by decide +kernel
theorem test_step_vpaddqVexYmm : zmmAfter (step (vecs [0xC5#8, 0xF5#8, 0xD4#8, 0xC2#8] 0#64)) 0 =
    some 0x0000000000000000800000000000000080010001010101000000000000000000#512 := by decide +kernel

theorem test_step_vpaddbEvexXmm :
    zmmAfter (step (vecs [0x62#8, 0xF1#8, 0x75#8, 0x09#8, 0xFC#8, 0xC2#8] 0xFF#64)) 0 =
    some 0xAAAAAAAAAAAAAAAAFFFFFFFFFFFFFF00#512 := by
  decide +kernel
theorem test_step_vpaddwEvexXmm :
    zmmAfter (step (vecs [0x62#8, 0xF1#8, 0x75#8, 0x89#8, 0xFD#8, 0xC2#8] 0xA5#64)) 0 =
    some 0x80000000010000000000FFFF00000000#512 := by
  decide +kernel
theorem test_step_vpadddEvexXmm :
    zmmAfter (step (vecs [0x62#8, 0xF1#8, 0x75#8, 0x09#8, 0xFE#8, 0xC2#8] 0x6#64)) 0 =
    some 0xAAAAAAAA01010100FFFFFFFF55555555#512 := by
  decide +kernel
theorem test_step_vpaddqEvexXmm :
    zmmAfter (step (vecs [0x62#8, 0xF1#8, 0xF5#8, 0x09#8, 0xD4#8, 0xC2#8] 0x2#64)) 0 =
    some 0x80010001010101005555555555555555#512 := by
  decide +kernel
theorem test_step_vpaddbEvexYmm :
    zmmAfter (step (vecs [0x62#8, 0xF1#8, 0x75#8, 0x29#8, 0xFC#8, 0xC2#8] 0xFFFF0000#64)) 0 =
    some 0x00000000000000007FFFFFFFFFFFFF00AAAAAAAAAAAAAAAA5555555555555555#512 := by
  decide +kernel
theorem test_step_vpaddwEvexYmm :
    zmmAfter (step (vecs [0x62#8, 0xF1#8, 0x75#8, 0x29#8, 0xFD#8, 0xC2#8] 0x0F0F#64)) 0 =
    some 0xAAAAAAAAAAAAAAAA7FFFFFFFFFFF0000AAAAAAAAAAAAAAAAFFFFFFFFFFFF0000#512 := by
  decide +kernel
theorem test_step_vpadddEvexYmm :
    zmmAfter (step (vecs [0x62#8, 0xF1#8, 0x75#8, 0x29#8, 0xFE#8, 0xC2#8] 0x81#64)) 0 =
    some 0x00000000AAAAAAAA5555555555555555AAAAAAAAAAAAAAAA5555555500000000#512 := by
  decide +kernel
theorem test_step_vpaddqEvexYmm :
    zmmAfter (step (vecs [0x62#8, 0xF1#8, 0xF5#8, 0x29#8, 0xD4#8, 0xC2#8] 0x9#64)) 0 =
    some 0x00000000000000005555555555555555AAAAAAAAAAAAAAAA0000000000000000#512 := by
  decide +kernel
theorem test_step_vpaddbEvexZmm :
    zmmAfter (step (vecs [0x62#8, 0xF1#8, 0x75#8, 0x48#8, 0xFC#8, 0xC2#8] 0x0#64)) 0 =
    some 0x123456789ABCDE00FFFFFFFFFFFFFF0000000001FEFEFEFEFFFFFF000000000100000000000000007FFFFFFFFFFFFF007F00000000000000FFFFFFFFFFFFFF00#512 := by
  decide +kernel
theorem test_step_vpaddwEvexZmm :
    zmmAfter (step (vecs [0x62#8, 0xF1#8, 0x75#8, 0xC9#8, 0xFD#8, 0xC2#8] 0x80000001#64)) 0 =
    some 0x12340000000000000000000000000000000000000000000000000000000000000000000000000000000000000000000000000000000000000000000000000000#512 := by
  decide +kernel
theorem test_step_vpadddEvexZmm :
    zmmAfter (step (vecs [0x62#8, 0xF1#8, 0x75#8, 0x48#8, 0xFE#8, 0xC2#8] 0x0#64)) 0 =
    some 0x123456789ABCDF00FFFFFFFF0000000000000001FFFFFFFE000000000000000100000000000000007FFFFFFF000000008001000001010100FFFFFFFF00000000#512 := by
  decide +kernel
theorem test_step_vpaddqEvexZmm :
    zmmAfter (step (vecs [0x62#8, 0xF1#8, 0xF5#8, 0x49#8, 0xD4#8, 0xC2#8] 0xFFFFFFFFFFFFFFFF#64)) 0 =
    some 0x123456789ABCDF00000000000000000000000002FFFFFFFE00000000000000010000000000000000800000000000000080010001010101000000000000000000#512 := by
  decide +kernel

/-- V4 E1, E2: an empty writemask keeps the low bits and clears the others, or clears all. -/
theorem test_step_empty_mask :
    zmmAfter (step (vecs [0x62#8, 0xF1#8, 0x75#8, 0x09#8, 0xFC#8, 0xC2#8] 0xFFFF0000#64)) 0 =
      some 0xAAAAAAAAAAAAAAAA5555555555555555#512 ∧
    zmmAfter (step (vecs [0x62#8, 0xF1#8, 0x75#8, 0xA9#8, 0xFD#8, 0xC2#8] 0#64)) 0 = some 0#512 := by
  decide +kernel

/-- V4 E6: a broadcast doubleword to 8 lanes, lanes 0 and 7 written, the others zeroed. -/
theorem test_step_broadcast_dword :
    zmmAfter (step (withData (vecs [0x62#8, 0xF1#8, 0x75#8, 0xB9#8, 0xFE#8, 0x00#8] 0x81#64) 0x20004#64
      [0xFF#8, 0xFF#8, 0xFF#8, 0xFF#8])) 0 =
    some 0x7FFFFFFF000000000000000000000000000000000000000000000000FFFFFFFE#512 := by decide +kernel

/-- V4 E7: a broadcast quadword to 8 lanes. -/
theorem test_step_broadcast_qword :
    zmmAfter (step (withData (vecs [0x62#8, 0xF1#8, 0xF5#8, 0x58#8, 0xD4#8, 0x00#8] 0#64) 0x20008#64
      [0x00#8, 0x00#8, 0x00#8, 0x00#8, 0x00#8, 0x00#8, 0x00#8, 0x80#8])) 0 =
    some 0x8123456789ABCDEF7EDCBA987654321080000000FFFFFFFF7FFFFFFF000000000000000000000000FFFFFFFFFFFFFFFFFFFF8000FF0180FF7FFFFFFFFFFFFFFF#512 := by
  decide +kernel

/-- The bytes of `B128` in memory order (R53). -/
def b128Bytes : List Byte :=
  [0x01#8, 0x00#8, 0x00#8, 0x00#8, 0x00#8, 0x00#8, 0x00#8, 0x00#8,
    0x01#8, 0x80#8, 0xFF#8, 0x01#8, 0x00#8, 0x80#8, 0x01#8, 0x00#8]

/-- V7: a little-endian quadword, at an unaligned address. -/
theorem test_step_little_endian :
    mmAfter (step (withData (boot [0x0F#8, 0xD4#8, 0x00#8]) 0x10001#64
      [0x01#8, 0x80#8, 0xFF#8, 0x01#8, 0x00#8, 0x80#8, 0x01#8, 0x00#8])) 0 =
    some 0x0001800001FF8001#64 := by decide +kernel

/-- P4: the same misaligned operand faults under the legacy form and completes under the VEX form. -/
theorem test_step_misaligned :
    faultOf (step (withData (vecs [0x66#8, 0x0F#8, 0xFE#8, 0x08#8] 0#64) 0x10008#64 b128Bytes)) =
      some (.gp 0x400000#64) ∧
    zmmAfter (step (withData (vecs [0xC5#8, 0xF1#8, 0xFE#8, 0x08#8] 0#64) 0x10008#64 b128Bytes)) 1 =
      some 0x8001000001010100FFFFFFFF00000000#512 := by decide +kernel

/-- Alignment checking on: `CR0.AM = 1`, `EFLAGS.AC = 1`, `CPL = 3`. -/
def checked (s : State) : State :=
  { s with cr0 := s.cr0 ||| 0x40000#32, eflags := s.eflags ||| 0x40000#32, cpl := 3 }

/-- V7: an MMX operand off its alignment is #AC(0), a VEX operand is not. -/
theorem test_step_alignment_check :
    faultOf (step (checked (withData (boot [0x0F#8, 0xFC#8, 0x00#8]) 0x10001#64 []))) =
      some (.ac 0x400000#64) ∧
    completes (step (checked (withData (boot [0xC5#8, 0xF1#8, 0xFE#8, 0x08#8]) 0x10001#64 []))) =
      true := by decide +kernel

/-- The page of 2000H is not present. -/
def paged (s : State) : State :=
  { s with cfg := { s.cfg with pages := [
      { range := { first := 0, last := 0x1FFF }, user := .maps 0#64, supervisor := .maps 0#64 },
      { range := { first := 0x2000, last := 0x2FFF }, user := .faults false 0#29,
        supervisor := .faults false 0#29 },
      { range := { first := 0x3000, last := 2 ^ 64 - 1 }, user := .maps 0x3000#64,
        supervisor := .maps 0x3000#64 }] } }

/-- P6: a page-crossing operand, code 4, the lowest faulting address. -/
theorem test_step_page_fault :
    faultOf (step (paged (withData (boot [0x62#8, 0xF1#8, 0x75#8, 0x48#8, 0xFC#8, 0x00#8]) 0x1FE0#64
      []))) = some (.pf 0x400000#64 4#32 0x2000#64) := by decide +kernel

/-- V7: a non-canonical operand is #GP(0) through `DS`, #SS(0) through `SS`. -/
theorem test_step_non_canonical :
    faultOf (step (withData (boot [0xC5#8, 0xF1#8, 0xFE#8, 0x00#8]) 0x0000800000000000#64 [])) =
      some (.gp 0x400000#64) ∧
    faultOf (step { boot [0xC5#8, 0xF1#8, 0xFE#8, 0x45#8, 0x00#8] with
      gpr := (Vector.replicate 16 0#64).set 5 0x0000800000000000#64 }) =
      some (.ss 0x400000#64) := by decide +kernel

/-- The six programs of V8, as MMX, SSE, VEX.128, VEX.256, EVEX byte and EVEX doubleword forms. -/
def v8 : List (List Byte) :=
  [[0x0F#8, 0xFC#8, 0xC1#8], [0x66#8, 0x0F#8, 0xFC#8, 0xCA#8], [0xC5#8, 0xF1#8, 0xFC#8, 0xC2#8],
    [0xC5#8, 0xF5#8, 0xFC#8, 0xC2#8], [0x62#8, 0xF1#8, 0x75#8, 0x08#8, 0xFC#8, 0xC2#8],
    [0x62#8, 0xF1#8, 0x75#8, 0x48#8, 0xFE#8, 0xC2#8]]

/-- The vectors of the faults of V8's programs under one changed premise, 0 where one completes. -/
def verdicts (change : State → State) : List Nat :=
  v8.map fun p => ((faultOf (step (change (boot p)))).map Fault.vector).getD 0

theorem test_v8_no_change : verdicts id = [0, 0, 0, 0, 0, 0] := by decide +kernel
theorem test_v8_em : verdicts (fun s => { s with cr0 := s.cr0 ||| 4#32 }) = [6, 6, 0, 0, 0, 0] := by
  decide +kernel
theorem test_v8_ts : verdicts (fun s => { s with cr0 := s.cr0 ||| 8#32 }) = [7, 7, 7, 7, 7, 7] := by
  decide +kernel
theorem test_v8_em_ts : verdicts (fun s => { s with cr0 := s.cr0 ||| 12#32 }) = [6, 6, 7, 7, 7, 7] := by
  decide +kernel
theorem test_v8_osfxsr : verdicts (fun s => { s with cr4 := 0x40000#32 }) = [0, 6, 0, 0, 0, 0] := by
  decide +kernel
theorem test_v8_osxsave : verdicts (fun s => { s with cr4 := 0x200#32 }) = [0, 0, 6, 6, 6, 6] := by
  decide +kernel
theorem test_v8_xcr0_3 : verdicts (fun s => { s with xcr0 := 3#64 }) = [0, 0, 6, 6, 6, 6] := by
  decide +kernel
theorem test_v8_xcr0_7 : verdicts (fun s => { s with xcr0 := 7#64 }) = [0, 0, 0, 0, 6, 6] := by
  decide +kernel
theorem test_v8_es : verdicts (fun s => { s with fsw := 0x80#16 }) = [16, 0, 0, 0, 0, 0] := by
  decide +kernel

/-- The features without those named. -/
def lacking (g : Features → Features) (s : State) : State :=
  { s with cfg := { s.cfg with features := g s.cfg.features } }

/-- `Features` of MMX, SSE2 and AVX. -/
def upToAvx (f : Features) : Features :=
  { f with avx2 := false, avx512f := false, avx512bw := false, avx512vl := false }

theorem test_v8_no_avx2 : verdicts (lacking upToAvx) = [0, 0, 0, 6, 6, 6] := by decide +kernel
theorem test_v8_no_avx512vl : verdicts (lacking fun f => { f with avx512vl := false }) =
    [0, 0, 0, 0, 6, 0] := by decide +kernel
theorem test_v8_no_avx512bw : verdicts (lacking fun f => { f with avx512bw := false }) =
    [0, 0, 0, 0, 6, 0] := by decide +kernel

/-- D21: PADDQ on MMX registers needs `SSE2` too. -/
theorem test_step_paddq_mm_needs_sse2 :
    faultOf (step (lacking (fun f => { f with sse2 := false }) (boot [0x0F#8, 0xD4#8, 0xC1#8]))) =
      some (.ud 0x400000#64) := by decide +kernel


/-! ## States and operands that meet the hypotheses of the obligations -/

/-- `Ready` as a check. -/
def readyB (i : Instr) (s : State) : Bool :=
  i.wellFormed && i.fits && i.shape.noUd s && !s.cr0Ts && !s.fswEs

/-- What the check says. -/
theorem ready_of {i : Instr} {s : State} (h : readyB i s = true) : i.Ready s := by
  simp only [readyB, Shape.noUd, Bool.and_eq_true, Bool.not_eq_true'] at h
  obtain ⟨⟨⟨⟨hw, hf⟩, ha, hu⟩, ht⟩, he⟩ := h
  refine ⟨hw, hf, ha, ?_⟩
  revert hu
  rcases i.shape with ⟨wide, l, lead, reg, rm⟩ | ⟨wide, l, lead, v, reg, rm⟩ | ⟨vl, l, lead, e, reg, rm⟩ <;>
    intro hu
  · cases wide
    · simp only [Shape.cls, Bool.not_eq_true'] at hu
      exact ⟨hu, ht, he⟩
    · simp only [Shape.cls, Bool.and_eq_true, Bool.not_eq_true'] at hu
      exact ⟨hu.1, hu.2, ht⟩
  · simp only [Shape.cls, Bool.and_eq_true, Bool.not_eq_true', decide_eq_true_eq] at hu
    exact ⟨hu.1.1, hu.1.2, hu.2, ht⟩
  · simp only [Shape.cls, Bool.and_eq_true, Bool.not_eq_true', decide_eq_true_eq] at hu
    exact ⟨hu.1.1.1, hu.1.1.2, hu.1.2, hu.2, ht⟩

/-- `[rax]`. -/
def atRax : RmOperand := .mem (.base 0#3 .noDisp)

/-- A form of each class with a register operand. -/
def mmxReg : Instr := .paddbMm [] 0#3 (.reg 1#3)
def sseReg : Instr := .paddbXmm [.opSize] 1#3 (.reg 2#3)
def vexReg : Instr := .vpaddbVexXmm [] (.two false 1#4) 0#3 (.reg 2#3)
def evexReg : Instr := .vpadddEvexZmm [] (evexOf false false false 1#4 0#3) 0#3 (.reg 2#3)

/-- A form of each class with the operand `[rax]`, and a broadcast of each element size. -/
def mmxMem : Instr := .paddbMm [] 0#3 atRax
def sseMem : Instr := .padddXmm [.opSize] 1#3 atRax
def vexMem : Instr := .vpadddVexXmm [] (.two false 1#4) 1#3 atRax
def evexMem : Instr := .vpaddbEvexZmm [] (evexOf false false false 1#4 0#3) 0#3 atRax
def bcst32 : Instr := .vpadddEvexZmm [] (evexOf false false true 1#4 0#3) 0#3 atRax
def bcst64 : Instr := .vpaddqEvexYmm [] (evexOf true false true 1#4 0#3) 0#3 atRax

/-- A launch with `rax = a`. -/
def rax (a : Addr) : State := withData (boot (encode mmxReg)) a []

/-- The alignment check cannot apply, as a check that leaves the free choice of U9 aside. -/
def acPassesB (r : AcRule) (s : State) (la : Addr) : Bool :=
  match r with
  | .never => true
  | .always k => !s.alignmentChecking || la.toNat % k == 0
  | .perhaps k => !s.alignmentChecking || la.toNat % k == 0

/-- What the check says. -/
theorem acPasses_of {r : AcRule} {s : State} {la : Addr} (h : acPassesB r s la = true) :
    r.Passes s la := by
  cases r with
  | never => trivial
  | always k => simpa [acPassesB] using h
  | perhaps k =>
    simp only [acPassesB, Bool.or_eq_true, Bool.not_eq_true', beq_iff_eq] at h
    exact h.imp_right .inl

/-- `Readable`, as a check. -/
def readableB (a : Access) (s : State) : Bool :=
  decide (a.InSegment s) && decide a.Aligned && decide (a.Translated s) && acPassesB a.ac s a.la &&
    decide (a.Mapped s)

/-- What the check says. -/
theorem readable_of {a : Access} {s : State} (h : readableB a s = true) : a.Readable s := by
  simp only [readableB, Bool.and_eq_true, decide_eq_true_eq] at h
  exact ⟨h.1.1.1.1, h.1.1.1.2, h.1.1.2, acPasses_of h.1.2, h.2⟩

theorem witness_decode_of_encode :
    ∀ i ∈ [mmxReg, sseMem, vexMem, evexMem, bcst64,
        Instr.paddbXmm (List.replicate 12 .opSize) 0#3 (.reg 1#3)],
      i.wellFormed = true ∧ i.fits = true ∧ i.admitted .mode32 = true := by decide +kernel

theorem witness_legacy_selection :
    (RmOperand.reg 1#3).wellFormed = true ∧
    legacyLength (List.replicate 12 LeadByte.opSize) (.reg 1#3) = 15 ∧
    legacyLength (List.replicate 12 LeadByte.lock) (.reg 1#3) = 15 ∧
    legacyLength (List.replicate 12 LeadByte.addrSize) (.reg 1#3) = 15 := by decide +kernel

/-- Forms that a prefix turns into #UD, each as the only instruction of a launch. -/
def lockForms : List Instr :=
  [.paddbMm [.lock] 0#3 atRax, .paddqXmm [.opSize, .lock] 0#3 (.reg 1#3),
    .vpaddwVexYmm [.lock] (.two false 1#4) 0#3 (.reg 2#3),
    .vpadddEvexZmm [.lock] (evexOf false false false 1#4 0#3) 0#3 (.reg 2#3)]

theorem witness_lock :
    ∀ i ∈ lockForms, LeadByte.lock ∈ i.shape.lead ∧ (boot (encode i)).Runnable ∧
      i.admitted (boot (encode i)).mode = true ∧ (boot (encode i)).fetch = encode i ++ [] := by
  decide +kernel

theorem witness_before_vex_evex :
    ∀ i ∈ [Instr.vpaddbVexXmm [.opSize] (.two false 1#4) 0#3 (.reg 2#3),
        .vpaddbVexXmm [.rex true true true true] (.two false 1#4) 0#3 (.reg 2#3),
        .vpaddbEvexXmm [.rep] (evexOf false false false 1#4 0#3) 0#3 (.reg 2#3),
        .vpaddbEvexXmm [.repne, .seg .fs] (evexOf false false false 1#4 0#3) 0#3 (.reg 2#3)],
      (i.shape.cls = .vex ∨ i.shape.cls = .evex) ∧
      (∃ p ∈ i.shape.lead, p ≠ .addrSize ∧ p.beforeVex = false) ∧
      (boot (encode i)).Runnable ∧ i.admitted (boot (encode i)).mode = true ∧
      (boot (encode i)).fetch = encode i ++ [] := by decide +kernel

theorem witness_broadcast_bit :
    ∀ i ∈ [Instr.vpaddbEvexXmm [] (evexOf false false true 1#4 0#3) 0#3 (.reg 2#3),
        .vpaddwEvexZmm [] (evexOf false false true 1#4 0#3) 0#3 atRax],
      (boot (encode i)).Runnable ∧ i.admitted (boot (encode i)).mode = true ∧
      (boot (encode i)).fetch = encode i ++ [] := by decide +kernel

/-- Bytes of other instructions: another opcode, map or `pp`, in each class (R116, last row). -/
theorem witness_other_instructions :
    (∀ l : Lane, 0xFB#8 ≠ l.opcode) ∧ (0xF0#8).extractLsb' 0 2 ≠ 1#2 ∧ (0xE2#8).extractLsb' 0 5 ≠ 1#5 ∧
    (0xF2#8).extractLsb' 2 2 = 0#2 ∧ (0xF2#8).extractLsb' 0 2 ≠ 1#2 ∧ (0x75#8).getLsbD 2 = true ∧
    leadByte? .mode64 0x90#8 = none ∧
    [[0x0F#8, 0xFB#8, 0xC1#8], [0xC5#8, 0xF0#8, 0xFC#8, 0xC2#8], [0xC4#8, 0xE2#8, 0x71#8, 0xFC#8, 0xC2#8],
      [0x62#8, 0xF2#8, 0x75#8, 0x48#8, 0xFC#8, 0xC2#8], [0x90#8]].map (decode .mode64) =
      List.replicate 5 .notAForm := by
  refine ⟨fun l => by cases l <;> decide, ?_⟩
  decide +kernel

/-- Each of the alternatives of the EVEX field rule holds of one of V6's byte runs. -/
theorem witness_evex_reserved :
    (0xF5#8).extractLsb' 2 2 ≠ 0#2 ∧ (0x71#8).getLsbD 2 = false ∧
    (0xF1#8).extractLsb' 0 2 = 1#2 ∧ (0x75#8).extractLsb' 0 2 = 1#2 ∧
    (0x68#8).extractLsb' 5 2 = 3#2 ∧ (0xF5#8).getLsbD 7 = true ∧ (0x75#8).getLsbD 7 = false ∧
    ((0x88#8).getLsbD 7 = true ∧ (0x88#8).extractLsb' 0 3 = 0#3) ∧ (0x58#8).getLsbD 4 = true ∧
    ((0x18#8).getLsbD 4 = true ∧ (0xC2#8).extractLsb' 6 2 = 3#2) := by decide +kernel

theorem witness_w_bit : (evexOf true false false 1#4 0#3).w = true ∧
    (evexOf false false false 1#4 0#3).w = false := by decide

theorem witness_too_long :
    ∀ i ∈ [Instr.paddbXmm (List.replicate 13 .opSize) 0#3 (.reg 1#3),
        .vpaddbVexXmm (List.replicate 12 .addrSize) (.two false 1#4) 0#3 (.reg 2#3)],
      i.wellFormed = true ∧ (encode i).length = 16 ∧ (boot (encode i)).Runnable ∧
      i.admitted (boot (encode i)).mode = true ∧ (boot (encode i)).fetch = encode i ++ [] := by
  decide +kernel

theorem witness_register_numbers : ∀ w r x b, LeadByte.opSize ≠ .rex w r x b := by
  intro w r x b
  simp

theorem witness_two_byte_vex :
    (∀ d, RmOperand.reg 2#3 ≠ .mem (.relative d)) ∧
    vexLength (List.replicate 10 LeadByte.addrSize) (.three false false false false 1#4) (.reg 2#3) =
      15 := by
  refine ⟨fun d => by simp, by decide⟩

/-- A launch whose next instruction's address is not canonical. -/
def atTheTop : State :=
  { State.reset with rip := 0x00007FFFFFFFFFFD#64 }.launch (encode mmxReg)

theorem witness_step_runs :
    (boot (encode mmxReg)).Runnable ∧
    decode .mode64 (boot (encode mmxReg)).fetch = .form mmxReg [] ∧
    (boot (encode mmxReg)).landingOk mmxReg.length = true ∧ atTheTop.Runnable ∧
    decode atTheTop.mode atTheTop.fetch = .form mmxReg [] ∧
    atTheTop.landingOk mmxReg.length = false := by decide +kernel

/-- A 32-bit-mode state whose next bytes are `67 0F FC 00`. -/
def in32 : State :=
  { boot [0x67#8, 0x0F#8, 0xFC#8, 0x00#8] with
    mode := .mode32
    segs := { State.reset.segs with cs := resetSegment 0#64 } }

theorem witness_other_verdicts :
    (boot [0xF0#8, 0x0F#8, 0xFC#8, 0x03#8]).Runnable ∧
    decode .mode64 (boot [0xF0#8, 0x0F#8, 0xFC#8, 0x03#8]).fetch = .ud ∧
    decode .mode64 (boot (List.replicate 13 0x66#8 ++ encode mmxReg)).fetch = .tooLong ∧
    decode .mode64 (boot [0x0F#8, 0xFB#8, 0xC1#8]).fetch = .notAForm ∧
    in32.Runnable ∧ decode in32.mode in32.fetch = .mode32Encoding ∧
    (boot [0x0F#8, 0xFC#8]).Runnable ∧ decode .mode64 (boot [0x0F#8, 0xFC#8]).fetch = .outOfBytes ∧
    (boot []).runEnd = some (boot []).ip.toNat ∧ (boot []).virtual8086 = false ∧
    (boot []).eflagsTf = false := by decide +kernel

theorem witness_step_keeps_invariant :
    ∀ i ∈ [mmxReg, sseReg, vexReg, evexReg, bcst32],
      (boot (encode i)).Inv ∧ (boot (encode i)).cfg.consistent = true ∧ completes (step (boot (encode i))) = true := by decide +kernel

theorem witness_launch :
    State.reset.cfg.needsMet = true ∧
    (∀ i ∈ [mmxReg, sseReg, vexReg, evexReg], i.wellFormed = true ∧ i.fits = true ∧
      i.shape.available State.reset.cfg.features = true) ∧
    State.reset.mem.wf = true ∧ canonical State.reset.cfg.vaBits State.reset.rip = true ∧
    canonical State.reset.cfg.vaBits (State.reset.rip + BitVec.ofNat 64 mmxReg.length) = true ∧
    State.reset.rip.toNat + (encode mmxReg ++ []).length ≤ 2 ^ 64 := by decide +kernel

theorem witness_step_completes : ∃ t, step (boot (encode mmxReg)) = .next t :=
  exists_next (by decide +kernel)

/-- Two bytes to the end address are not enough for one step. -/
theorem witness_run_bounded :
    (boot [0x0F#8, 0xFC#8]).runEnd = some 0x400002 ∧
    0x400002 - (boot [0x0F#8, 0xFC#8]).ip.toNat < 3 * 1 := by decide +kernel

theorem witness_exec_completes :
    ∀ i ∈ [mmxReg, sseReg, vexReg, evexReg, mmxMem, vexMem, evexMem, bcst32],
      completes (exec i (boot [])) = true := by decide +kernel

theorem witness_run_two_steps :
    ∃ t, Sys2Proof.core.run 2 (boot (encode mmxReg ++ encode sseReg)) = .next t :=
  exists_next (by decide +kernel)

theorem witness_mmx_result :
    (boot []).MmxSourceIs [] (.reg 1#3) ((boot []).mm 1) ∧ mmxReg.Ready (boot []) ∧
    (rax 0x10001#64).MmxSourceIs [] atRax 0#64 ∧ mmxMem.Ready (rax 0x10001#64) :=
  ⟨rfl, ready_of (by decide +kernel), ⟨readable_of (by decide +kernel), by decide +kernel⟩,
    ready_of (by decide +kernel)⟩

theorem witness_sse_result :
    (boot []).SseSourceIs [.opSize] (.reg 2#3) ((boot []).vecLow 128 2) ∧ sseReg.Ready (boot []) ∧
    (rax 0x10010#64).SseSourceIs [.opSize] atRax 0#128 ∧ sseMem.Ready (rax 0x10010#64) :=
  ⟨rfl, ready_of (by decide +kernel), ⟨readable_of (by decide +kernel), by decide +kernel⟩,
    ready_of (by decide +kernel)⟩

theorem witness_vex_result :
    (boot []).VexSourceIs 128 [] (.two false 1#4) (.reg 2#3) ((boot []).vecLow 128 2) ∧
    vexReg.Ready (boot []) ∧
    (rax 0x10001#64).VexSourceIs 256 [] (.two false 1#4) atRax 0#256 ∧
    (Instr.vpadddVexYmm [] (.two false 1#4) 1#3 atRax).Ready (rax 0x10001#64) :=
  ⟨rfl, ready_of (by decide +kernel), ⟨readable_of (by decide +kernel), by decide +kernel⟩,
    ready_of (by decide +kernel)⟩

theorem witness_evex_byte_result :
    (rax 0x10001#64).EvexSourceIs 8 512 [] (evexOf false false false 1#4 0#3) atRax 0#512 ∧
    evexMem.Ready (rax 0x10001#64) :=
  ⟨⟨readable_of (by decide +kernel), by decide +kernel⟩, ready_of (by decide +kernel)⟩

theorem witness_evex_dword_result :
    (boot []).EvexSourceIs 32 512 [] (evexOf false false false 1#4 0#3) (.reg 2#3)
      ((boot []).vecLow 512 2) ∧ evexReg.Ready (boot []) ∧
    (rax 0x10001#64).EvexSourceIs 64 256 [] (evexOf true false true 1#4 0#3) atRax 0#256 ∧
    bcst64.Ready (rax 0x10001#64) :=
  ⟨rfl, ready_of (by decide +kernel), ⟨readable_of (by decide +kernel), by decide +kernel⟩,
    ready_of (by decide +kernel)⟩

theorem witness_missing_feature :
    (boot []).cfg.features = (boot []).cfg.features.record.features ∧
    ∀ i ∈ [mmxReg, sseReg, vexReg, evexReg], i.wellFormed = true ∧ i.fits = true ∧
      i.shape.available { (boot []).cfg.features with
        mmx := false, sse2 := false, avx := false, avx512f := false } = false := by decide +kernel

theorem witness_control_bits :
    (∀ i ∈ [mmxReg, sseReg, vexReg, evexReg], i.wellFormed = true ∧ i.fits = true) ∧
    State.reset.cr4.getLsbD 18 = false ∧ State.reset.cr4.getLsbD 9 = false ∧
    State.reset.xcr0.extractLsb' 1 2 ≠ 3#2 ∧ State.reset.xcr0.extractLsb' 5 3 ≠ 7#3 ∧
    { boot [] with cr0 := 4#32 }.cr0.getLsbD 2 = true := by decide +kernel

theorem witness_task_switched :
    { boot [] with cr0 := 8#32 }.cr0.getLsbD 3 = true ∧
    (∀ i ∈ [mmxReg, sseReg, vexReg, evexReg], i.wellFormed = true ∧ i.fits = true ∧
      i.shape.noUd { boot [] with cr0 := 8#32 } = true ∧
      i.shape.noUd { boot [] with cr0 := 12#32, cr4 := 0#32 } = false) := by decide +kernel

theorem witness_pending_x87 :
    mmxReg.shape.cls = .mmx ∧ mmxReg.wellFormed = true ∧ mmxReg.fits = true ∧
    mmxReg.shape.noUd { boot [] with fsw := 0x80#16 } = true ∧
    { boot [] with fsw := 0x80#16 }.cr0.getLsbD 3 = false ∧
    { boot [] with fsw := 0x80#16 }.fsw.getLsbD 7 = true ∧ vexReg.shape.cls ≠ .mmx := by
  decide +kernel

/-- One fault of each kind (the choice of U9 is free, so #AC is an MMX operand's). -/
theorem witness_faults :
    [faultOf (exec mmxReg State.reset), faultOf (exec sseReg State.reset),
      faultOf (exec mmxReg { boot [] with cr0 := 8#32 }),
      faultOf (exec mmxReg { boot [] with fsw := 0x80#16 }),
      faultOf (exec sseMem (rax 1#64)), faultOf (exec evexMem (paged (rax 0x1FE0#64))),
      faultOf (exec mmxMem (checked (rax 1#64)))] =
    [none, some (.ud 0xFFF0#64), some (.nm 0x400000#64), some (.mf 0x400000#64),
      some (.gp 0x400000#64), some (.pf 0x400000#64 4#32 0x2000#64), some (.ac 0x400000#64)] := by
  decide +kernel

/-- The last canonical address before the hole, with an operand that reaches into it. -/
theorem witness_segment_faults :
    vexMem.Ready (rax 0x00007FFFFFFFFFFF#64) ∧
    (vexMem.access (rax 0x00007FFFFFFFFFFF#64)).any (fun a => decide (1 < a.size) &&
      canonical 48 ((rax 0x00007FFFFFFFFFFF#64).byteAddr a.la 0) &&
      !canonical 48 ((rax 0x00007FFFFFFFFFFF#64).byteAddr a.la 1)) = true ∧
    (rax 0x00007FFFFFFFFFFF#64).virtual8086 = false :=
  ⟨ready_of (by decide +kernel), by decide +kernel, by decide +kernel⟩

/-- In 32-bit mode an 8-byte operand at FFF9H ends one byte past a 64 KiB limit. -/
theorem witness_segment_faults_mode32 :
    mmxMem.Ready { rax 0xFFF9#64 with mode := .mode32 } ∧
    (mmxMem.access { rax 0xFFF9#64 with mode := .mode32 }).any (fun a =>
      !segCheck (resetSegment 0#64) a.ea a.size) = true ∧
    (mmxMem.access { rax 0xFFF8#64 with mode := .mode32 }).any (fun a =>
      segCheck (resetSegment 0#64) a.ea a.size) = true :=
  ⟨ready_of (by decide +kernel), by decide +kernel, by decide +kernel⟩

/-- The operand of an instruction in a state, if it has one, meets `p`. -/
def operandHas (i : Instr) (s : State) (p : Access → Bool) : Bool :=
  (i.access s).any p

theorem witness_sse_misaligned :
    sseMem.Ready (rax 1#64) ∧ sseMem.shape.cls = .sse ∧
    operandHas sseMem (rax 1#64) (fun a =>
      decide (a.InSegment (rax 1#64)) && decide (a.la.toNat % 16 ≠ 0)) = true :=
  ⟨ready_of (by decide +kernel), by decide +kernel, by decide +kernel⟩

theorem witness_page_fault :
    evexMem.Ready (paged (rax 0x1FE0#64)) ∧
    operandHas evexMem (paged (rax 0x1FE0#64)) (fun a =>
      decide (a.InSegment (paged (rax 0x1FE0#64))) && decide (32 < a.size) && !a.aligned16 &&
      ((List.range 32).all fun j => (translate (paged (rax 0x1FE0#64)).cfg.pages .user
        ((paged (rax 0x1FE0#64)).byteAddr a.la j)).isPhysical) &&
      decide (translate (paged (rax 0x1FE0#64)).cfg.pages .user
        ((paged (rax 0x1FE0#64)).byteAddr a.la 32) = .pageFault 4#32)) = true :=
  ⟨ready_of (by decide +kernel), by decide +kernel⟩

theorem witness_alignment_check :
    (∀ i ∈ [mmxMem, vexMem, evexMem, bcst32, bcst64],
      readyB i (checked (rax 1#64)) = true ∧ operandHas i (checked (rax 1#64)) (fun a =>
        decide (a.InSegment (checked (rax 1#64))) && decide a.Aligned &&
        decide (a.Translated (checked (rax 1#64))) && decide (a.Mapped (checked (rax 1#64))) &&
        decide (a.la.toNat % 8 ≠ 0) && decide (a.la.toNat % 4 ≠ 0)) = true) ∧
    (readyB sseMem (checked (rax 16#64)) = true ∧ operandHas sseMem (checked (rax 16#64)) (fun a =>
        decide (a.InSegment (checked (rax 16#64))) && decide a.Aligned &&
        decide (a.Translated (checked (rax 16#64))) && decide (a.Mapped (checked (rax 16#64)))) =
      true) ∧
    (checked (rax 1#64)).alignmentChecking = true ∧
    faultOf (exec mmxMem (checked (rax 1#64))) = some (.ac 0x400000#64) := by decide +kernel

/-- Memory up to 1007H only: the last byte of an 8-byte operand at 1001H is outside. -/
def lowMemory (s : State) : State :=
  { s with cfg := { s.cfg with mapped := [{ first := 0, last := 0x1007 }] } }

theorem witness_not_mapped :
    mmxMem.Ready (lowMemory (rax 0x1001#64)) ∧
    operandHas mmxMem (lowMemory (rax 0x1001#64)) (fun a =>
      decide (a.InSegment (lowMemory (rax 0x1001#64))) && decide a.Aligned &&
      decide (a.Translated (lowMemory (rax 0x1001#64))) &&
      acPassesB a.ac (lowMemory (rax 0x1001#64)) a.la &&
      decide (∀ r ∈ (lowMemory (rax 0x1001#64)).cfg.mapped,
        r.contains ((lowMemory (rax 0x1001#64)).byteAddr a.la 7).toNat = false)) = true ∧
    completes (exec mmxMem (lowMemory (rax 0x1000#64))) = true :=
  ⟨ready_of (by decide +kernel), by decide +kernel, by decide +kernel⟩

/-- A misaligned broadcast under alignment checking is readable when the free choice of U9 lets it pass. -/
theorem witness_misaligned_broadcast
    (h : Config.bcstMisalignedFaults (checked (rax 1#64)).choices = false) :
    bcst32.Ready (checked (rax 1#64)) ∧
    ∃ a, bcst32.access (checked (rax 1#64)) = some a ∧ a.la.toNat % 4 ≠ 0 ∧
      (checked (rax 1#64)).alignmentChecking = true ∧ a.Readable (checked (rax 1#64)) :=
  ⟨ready_of (by decide +kernel), _, rfl, by decide +kernel, by decide +kernel, by decide +kernel,
    by decide +kernel, by decide +kernel, .inr (.inr h), by decide +kernel⟩

/-- The faults of a page that is not present and of one that is, as user and as supervisor: the codes of
20_memory.md R70. -/
theorem witness_page_fault_codes :
    ([(false, (3 : Fin 4)), (true, 3), (false, 0), (true, 0)].map fun p =>
      faultOf (exec mmxMem { rax 0x2000#64 with
        cpl := p.2
        cfg := { State.reset.cfg with pages := [
          { range := { first := 0, last := 0xFFFFF }, user := .faults p.1 2#29,
            supervisor := .faults p.1 2#29 }] } })) =
    [0x14#32, 0x15#32, 0x10#32, 0x11#32].map fun c => some (.pf 0x400000#64 c 0x2000#64) := by
  decide +kernel

/-- What completes under alignment checking: an aligned MMX operand, a misaligned full-width one. -/
theorem witness_completes_aligned :
    (checked (rax 8#64)).alignmentChecking = true ∧
    completes (exec mmxMem (checked (rax 8#64))) = true ∧
    completes (exec vexMem (checked (rax 1#64))) = true ∧
    completes (exec bcst32 (checked (rax 4#64))) = true := by decide +kernel

theorem witness_little_endian : (boot (encode mmxReg)).mode = .mode64 ∧
    2 < (boot (encode mmxReg)).window ∧ ¬ 3 < (boot (encode mmxReg)).window ∧
    (1 + 1) * 4 ≤ 8 := by decide +kernel

/-- The program of `in32`, reached with a `CS` base that makes the sum wrap at `2^32`. -/
def in32HighCs : State :=
  { in32 with
    segs := { in32.segs with cs := resetSegment 0xFFF00000#64 }
    rip := 0x500000#64
    runEnd := none }

/-- In 32-bit mode the fetch adds the base of `CS` (log 38). -/
theorem witness_fetch_mode32 : in32HighCs.mode = .mode32 ∧ 1 < in32HighCs.window ∧
    in32HighCs.fetch[1]? = some 0x0F#8 := by decide +kernel

/-- The ends of the two canonical ranges and of the hole (R58). -/
theorem witness_canonical :
    canonical 48 0x00007FFFFFFFFFFF#64 = true ∧ canonical 48 0x0000800000000000#64 = false ∧
    canonical 48 0xFFFF7FFFFFFFFFFF#64 = false ∧ canonical 48 0xFFFF800000000000#64 = true ∧
    canonical 64 0x8000000000000000#64 = true ∧ canonical 1 0#64 = true ∧
    canonical 1 1#64 = false := by decide +kernel

theorem witness_effective_addresses :
    (boot []).mode = .mode64 ∧ hasAddrSize [] = false ∧ hasAddrSize [.addrSize] = true ∧
    (∀ q : Fin 16, q.val = 8 * true.toNat + (4#3).toNat → (boot []).gpr[12] = (boot []).gpr[q]) ∧
    (∀ q : Fin 16, q.val = 8 * false.toNat + (4#3).toNat →
      0#64 = if q.val = 4 then 0#64 else (boot []).gpr[q] * BitVec.ofNat 64 (2 ^ (0#2).toNat)) := by
  decide +kernel

theorem witness_effective_addresses_mode32 : in32.mode = .mode32 ∧
    (∀ q : Fin 16, q.val = 8 * false.toNat + (3#3).toNat → 0#32 = (in32.gpr[q]).setWidth 32) ∧
    (∀ q : Fin 16, q.val = 8 * false.toNat + (4#3).toNat →
      0#32 = if q.val = 4 then 0#32 else (in32.gpr[q]).setWidth 32 * BitVec.ofNat 32 (2 ^ (0#2).toNat)) := by
  decide +kernel

theorem witness_segments :
    (∀ h, LeadByte.seg h ∉ [LeadByte.addrSize]) ∧ (mmxMem.access (boot [])).isSome = true ∧
    (boot []).mode = .mode64 ∧ in32.mode = .mode32 ∧ (mmxMem.access in32).isSome = true := by
  refine ⟨fun h => by simp, ?_⟩
  decide +kernel

/-- EVEX forms with `[rax + 1 * N]`, one for each scale of R111. -/
theorem witness_compressed_displacement :
    ([Instr.vpadddEvexXmm [] (evexOf false false true 1#4 0#3) 0#3 (.mem (.base 0#3 (.disp8 1#8))),
      .vpaddqEvexXmm [] (evexOf true false true 1#4 0#3) 0#3 (.mem (.base 0#3 (.disp8 1#8))),
      .vpaddbEvexXmm [] (evexOf false false false 1#4 0#3) 0#3 (.mem (.base 0#3 (.disp8 1#8))),
      .vpaddwEvexYmm [] (evexOf false false false 1#4 0#3) 0#3 (.mem (.base 0#3 (.disp8 1#8))),
      .vpadddEvexZmm [] (evexOf false false false 1#4 0#3) 0#3 (.mem (.base 0#3 (.disp8 1#8))),
      .vpadddEvexZmm [] (evexOf false false false 1#4 0#3) 0#3
        (.mem (.base 0#3 (.disp32 16#32)))].map fun i =>
      (i.wellFormed, ((i.access (boot [])).map fun a => a.ea.toNat))) =
    [(true, some 4), (true, some 8), (true, some 16), (true, some 32), (true, some 64),
      (true, some 16)] := by decide +kernel

theorem witness_footprint :
    ([mmxMem, sseMem, vexMem, evexMem, bcst32, bcst64, mmxReg].map fun i =>
      (i.access (boot [])).map Access.size) =
    [some 8, some 16, some 16, some 64, some 4, some 8, none] := by decide +kernel

theorem witness_memory : (Memory.set [] 5 1#8).wf = true ∧
    ((Memory.set [] 5 1#8).set 5 0#8) = [] := by decide +kernel

theorem witness_masks :
    (5#3 ≠ 0#3) ∧ (∀ j < 512 / 32, ((Vector.replicate 8 0xFFFF#64)[(5#3).toNat]).getLsbD j = true) ∧
    (∀ j < 512 / 32, ((Vector.replicate 8 0xFFFF0000#64)[(5#3).toNat]).getLsbD j = false) ∧
    completes (exec (.vpadddEvexZmm [] (evexOf false false false 1#4 5#3) 0#3 (.reg 2#3))
      { boot [] with k := Vector.replicate 8 0xFFFF0000#64 }) = true := by decide +kernel

theorem witness_unmasked_evex_is_vex :
    (evexOf false false false 1#4 0#3).vvvv = vexVvvv (.two false 1#4) ∧
    completes (exec vexReg (boot [])) = true ∧
    completes (exec (.vpaddbEvexXmm [] (evexOf false false false 1#4 0#3) 0#3 (.reg 2#3)) (boot [])) =
      true := by decide +kernel

theorem witness_register_forms :
    ∀ i ∈ [mmxReg, sseReg, vexReg, evexReg], i.access (boot []) = none := by decide +kernel

theorem witness_write_only :
    vexSrc1 (.two false 1#4) ≠ vexDest (.two false 1#4) 0#3 ∧
    vecNum false false 2#3 ≠ vexDest (.two false 1#4) 0#3 ∧
    evexSrc1 (evexOf false true false 1#4 1#3) ≠ evexDest (evexOf false true false 1#4 1#3) 0#3 ∧
    (evexOf false true false 1#4 1#3).z = true := by decide +kernel

end Sys2Proof.Tests
end

