-- ==== Sys2Proof/Proofs/LanePrimitives.lean ====
section
/-!
What the lane primitives of 00_scope.md R15 to R17 hold in each lane, at any width `N` the lanes fit in, and
the obligation that says so of values made of exactly `n` lanes.
-/
namespace Sys2Proof.Machine

variable {N : Nat}

/-- `ofLanes` looks at its first `n` lanes only. -/
theorem ofLanes_congr {w n : Nat} {f g : Nat → BitVec w} (h : ∀ j < n, f j = g j) :
    (ofLanes w n f : BitVec N) = ofLanes w n g := by
  induction n with
  | zero => rfl
  | succ n ih =>
    have low : (ofLanes w n f : BitVec N) = ofLanes w n g := ih fun j hj => h j (Nat.lt_succ_of_lt hj)
    rw [ofLanes, ofLanes, low, h n (Nat.lt_succ_self n)]

@[simp] theorem maskSelects_none (j : Nat) : maskSelects none j = true := rfl

@[simp] theorem maskSelects_some (k : BitVec 64) (j : Nat) : maskSelects (some k) j = k.getLsbD j := rfl

theorem maskSelects_iff (m : Option (BitVec 64)) (j : Nat) :
    maskSelects m j = true ↔ m = none ∨ ∃ k, m = some k ∧ k.getLsbD j = true := by
  cases m with
  | none => simp
  | some k => simp

theorem lane_addLanes {w n j : Nat} (a b : BitVec N) (hj : j < n) (hN : w * n ≤ N) :
    lane w (addLanes w n a b) j = lane w a j + lane w b j :=
  lane_ofLanes _ hj hN

theorem lane_broadcast {w n j : Nat} (e : BitVec w) (hj : j < n) (hN : w * n ≤ N) :
    lane w (broadcast n e : BitVec N) j = e :=
  lane_ofLanes _ hj hN

theorem lane_maskMerge {w n j : Nat} (m : Option (BitVec 64)) (z : Bool) (old new : BitVec N)
    (hj : j < n) (hN : w * n ≤ N) :
    lane w (maskMerge w n m z old new) j =
      if maskSelects m j then lane w new j else if z then 0#w else lane w old j :=
  lane_ofLanes _ hj hN

/-- A merge depends on its mask only through the selection of the first `n` lanes. -/
theorem maskMerge_congr {w n : Nat} {m m' : Option (BitVec 64)} (z : Bool) (old new : BitVec N)
    (h : ∀ j < n, maskSelects m j = maskSelects m' j) :
    maskMerge w n m z old new = maskMerge w n m' z old new :=
  ofLanes_congr fun j hj => by rw [h j hj]

/-- Settles O52, a clause from each primitive's lane lemma, the last from `maskMerge_congr`. -/
theorem lanePrimitives : Obligations.LanePrimitives := by
  unfold Obligations.LanePrimitives
  refine ⟨fun w n j a b hj => ?sum, fun w n j e hj => lane_broadcast e hj le_rfl,
    fun w n j m z old new hj => ?merge, fun w n k k' z old new h => maskMerge_congr z old new h⟩
  case sum => rw [lane_addLanes a b hj le_rfl, BitVec.toNat_add]
  case merge =>
    simp only [lane_maskMerge m z old new hj le_rfl, maskSelects_iff]
    cases z with
    | false => simp only [Bool.false_eq_true, if_false, if_true]
    | true => simp only [Bool.true_eq_false, if_false, if_true]

end Sys2Proof.Machine
end

