-- ==== Sys2Proof/Proofs/DecodeLength.lean ====
section
/-!
How many bytes a decoded form takes (30_encoding.md R113, R114): its length and the bytes left over make up the
run that was decoded, and the length is 3 to 15.
-/
namespace Sys2Proof

open Sys2Proof.Laws

/-- If the verdict is a form, it is at most 15 bytes long, and with the bytes after it it makes `n` bytes. -/
def Decoded.Spans (d : Decoded) (n : Nat) : Prop :=
  ∀ i rest, d = .form i rest → i.length ≤ maxLength ∧ i.length + rest.length = n

theorem Decoded.spans_ud (n : Nat) : Decoded.ud.Spans n := fun _ _ h => by cases h

theorem Decoded.spans_notAForm (n : Nat) : Decoded.notAForm.Spans n := fun _ _ h => by cases h

theorem Decoded.spans_mode32Encoding (n : Nat) : Decoded.mode32Encoding.Spans n := fun _ _ h => by cases h

theorem Decoded.spans_outOfBytes (n : Nat) : Decoded.outOfBytes.Spans n := fun _ _ h => by cases h

theorem Decoded.Spans.ite {c : Prop} [Decidable c] {x y : Decoded} {n : Nat} (hx : x.Spans n)
    (hy : y.Spans n) : (if c then x else y).Spans n := by
  split <;> assumption

@[simp] theorem length_instr (sh : Shape) : sh.instr.length = sh.length := by
  rw [Instr.length, shape_instr]

theorem Shape.finish_spans {sh : Shape} {rest : List Byte} {n : Nat}
    (h : sh.length + rest.length = n) : (sh.finish rest).Spans n := by
  intro i rest' hf
  unfold Shape.finish at hf
  split at hf
  · next hl =>
    obtain ⟨rfl, rfl⟩ := Decoded.form.inj hf
    exact ⟨by simpa using hl, by simpa using h⟩
  · cases hf

theorem length_of_parseModRm {t rest : List Byte} {reg : BitVec 3} {rm : RmOperand}
    (h : parseModRm t = some (reg, rm, rest)) : rm.length + rest.length = t.length := by
  obtain ⟨hbytes, -⟩ := bytes_of_parseModRm h
  rw [hbytes, List.length_append, rm_bytes_length]

/-- The bytes before the opcode of a VEX form are those of its header. -/
theorem vexLength_eq (lead : List LeadByte) (v : Vex) (wide : Bool) (rm : RmOperand) :
    vexLength lead v rm = lead.length + (v.bytes wide).length + 1 + rm.length := by
  cases v <;> rfl

/-! ## Each encoding, after its lead bytes and escape byte -/

theorem decodeLegacy_spans (m : Mode) (lead : List LeadByte) (t : List Byte) :
    (decodeLegacy m lead t).Spans (lead.length + 1 + t.length) := by
  rcases t with _ | ⟨op, t⟩
  · exact Decoded.spans_outOfBytes _
  simp only [decodeLegacy]
  cases lane? op with
  | none => exact Decoded.spans_notAForm _
  | some l =>
    refine .ite (Decoded.spans_mode32Encoding _) (.ite (Decoded.spans_ud _) ?_)
    rcases hp : parseModRm t with _ | ⟨reg, rm, rest⟩
    · exact Decoded.spans_outOfBytes _
    · have := length_of_parseModRm hp
      exact Shape.finish_spans (by simp only [Shape.length, legacyLength, List.length_cons]; omega)

theorem decodeVex_spans (m : Mode) (lead : List LeadByte) (v : Vex) (wide mapOk : Bool) (op : Byte)
    (t : List Byte) :
    (decodeVex m lead v wide mapOk op t).Spans (lead.length + (v.bytes wide).length + 1 + t.length) := by
  unfold decodeVex
  refine .ite (Decoded.spans_ud _) (.ite (Decoded.spans_notAForm _) ?_)
  cases lane? op with
  | none => exact Decoded.spans_notAForm _
  | some l =>
    refine .ite (Decoded.spans_mode32Encoding _) ?_
    rcases hp : parseModRm t with _ | ⟨reg, rm, rest⟩
    · exact Decoded.spans_outOfBytes _
    · have := length_of_parseModRm hp
      exact Shape.finish_spans (by rw [Shape.length, vexLength_eq lead v wide]; omega)

theorem decodeVex2_spans (m : Mode) (lead : List LeadByte) (t : List Byte) :
    (decodeVex2 m lead t).Spans (lead.length + 1 + t.length) := by
  match t with
  | [] | [_] => exact Decoded.spans_outOfBytes _
  | b1 :: op :: t =>
    refine .ite (Decoded.spans_notAForm _) ?_
    convert decodeVex_spans m lead (.two (!b1.getLsbD 7) (~~~(b1.extractLsb' 3 4))) (b1.getLsbD 2) _ op t
      using 1
    simp only [Vex.bytes, List.length_cons, List.length_nil]
    omega

theorem decodeVex3_spans (m : Mode) (lead : List LeadByte) (t : List Byte) :
    (decodeVex3 m lead t).Spans (lead.length + 1 + t.length) := by
  match t with
  | [] | [_] | [_, _] => exact Decoded.spans_outOfBytes _
  | b1 :: b2 :: op :: t =>
    refine .ite (Decoded.spans_notAForm _) ?_
    convert decodeVex_spans m lead (.three (!b1.getLsbD 7) (!b1.getLsbD 6) (!b1.getLsbD 5)
      (b2.getLsbD 7) (~~~(b2.extractLsb' 3 4))) (b2.getLsbD 2) _ op t using 1
    simp only [Vex.bytes, List.length_cons, List.length_nil]
    omega

theorem decodeEvexFields_spans (m : Mode) (lead : List LeadByte) (ll : BitVec 2) (l : Lane) (e : Evex)
    (t : List Byte) : (decodeEvexFields m lead ll l e t).Spans (lead.length + 5 + t.length) := by
  unfold decodeEvexFields
  refine .ite (Decoded.spans_mode32Encoding _) ?_
  cases vecLen? ll with
  | none => exact Decoded.spans_ud _
  | some vl =>
    refine .ite (Decoded.spans_ud _) (.ite (Decoded.spans_ud _) (.ite (Decoded.spans_ud _) ?_))
    rcases hp : parseModRm t with _ | ⟨reg, rm, rest⟩
    · exact Decoded.spans_outOfBytes _
    · have := length_of_parseModRm hp
      exact .ite (Decoded.spans_ud _)
        (Shape.finish_spans (by simp only [Shape.length, evexLength]; omega))

theorem decodeEvex_spans (m : Mode) (lead : List LeadByte) (t : List Byte) :
    (decodeEvex m lead t).Spans (lead.length + 1 + t.length) := by
  match t with
  | [] | [_] | [_, _] | [_, _, _] => exact Decoded.spans_outOfBytes _
  | p0 :: p1 :: p2 :: op :: t =>
    refine .ite (Decoded.spans_notAForm _) (.ite (Decoded.spans_ud _) (.ite (Decoded.spans_ud _)
      (.ite (Decoded.spans_notAForm _) ?_)))
    cases lane? op with
    | none => exact Decoded.spans_notAForm _
    | some l =>
      convert decodeEvexFields_spans m lead (p2.extractLsb' 5 2) l _ t using 1
      simp only [List.length_cons]
      omega

/-! ## The whole run -/

theorem decodeBody_spans (m : Mode) (lead : List LeadByte) (t : List Byte) :
    (decodeBody m lead t).Spans (lead.length + t.length) := by
  rcases t with _ | ⟨b, t⟩
  · exact Decoded.spans_outOfBytes _
  rw [show lead.length + (b :: t).length = lead.length + 1 + t.length by rw [List.length_cons]; omega]
  exact .ite (decodeLegacy_spans m lead t) (.ite (decodeVex2_spans m lead t)
    (.ite (decodeVex3_spans m lead t) (.ite (decodeEvex_spans m lead t) (Decoded.spans_notAForm _))))

theorem decode_spans (m : Mode) (bs : List Byte) : (decode m bs).Spans bs.length := by
  have body (m : Mode) : (decodeBody m (scanLead m bs).1 (scanLead m bs).2).Spans bs.length := by
    have hlen := congrArg List.length (scanLead_spec m bs).1
    rw [List.length_append, List.length_map] at hlen
    exact hlen ▸ decodeBody_spans m _ _
  cases m with
  | realAddress => exact Decoded.spans_notAForm _
  | mode64 => exact body .mode64
  | mode32 => exact body .mode32

/-- Escape, opcode and ModRM are at least three bytes (30_encoding.md R113). -/
theorem three_le_length (i : Instr) : 3 ≤ i.length := by
  have hrm (rm : RmOperand) : 1 ≤ rm.length := by
    rcases rm with _ | ⟨_, _⟩ | _ | ⟨_, _, _, _⟩ | ⟨_, _, _⟩ <;> simp only [RmOperand.length] <;> omega
  unfold Instr.length
  rcases i.shape with ⟨_, _, lead, _, rm⟩ | ⟨wide, _, lead, v, _, rm⟩ | ⟨_, _, lead, _, _, rm⟩
  · have := hrm rm
    simp only [Shape.length, legacyLength]
    omega
  · have := hrm rm
    cases v <;> simp only [Shape.length, vexLength] <;> omega
  · have := hrm rm
    simp only [Shape.length, evexLength]
    omega

end Sys2Proof
end

