-- ==== Sys2Proof/Proofs/ExecEffect.lean ====
section
/-!
What a form that completes changes (10_state.md R20, R23, R28, R29, R32): the frame, the instruction pointer and a
bound on the vector registers; and the width that its features give `MAXVL` (00_scope.md R6).
-/
namespace Sys2Proof

open Sys2Proof.Machine

/-! ## Features and `MAXVL` -/

theorem MaxVl.bits_ge (v : MaxVl) : 128 ≤ v.bits := by cases v <;> decide

theorem MaxVl.bits_ge_of_ne {v : MaxVl} (h : v ≠ .bits128) : 256 ≤ v.bits := by
  cases v with
  | bits128 => exact absurd rfl h
  | bits256 => decide
  | bits512 => decide

theorem VecLen.bits_le (vl : VecLen) : vl.bits ≤ MaxVl.bits512.bits := by cases vl <;> decide

/-- The needs of 00_scope.md R6 as implications. -/
theorem Params.needsMet_iff {p : Params} :
    p.needsMet = true ↔
      (p.features.avx512f = true → p.maxVl = .bits512) ∧ (p.features.avx = true → p.maxVl ≠ .bits128) ∧
        (p.features.avx2 = true → p.features.avx = true) ∧
        (p.features.avx512bw = true → p.features.avx512f = true) ∧
        (p.features.avx512vl = true → p.features.avx512f = true) := by
  have implies (a b : Bool) : (!a || b) = true ↔ (a = true → b = true) := by cases a <;> simp
  simp only [Params.needsMet, Bool.and_eq_true, implies, decide_eq_true_eq, and_assoc]

/-- Every EVEX form needs `AVX512F`, by its own flag or by those of its row. -/
theorem avx512f_of_evex_available {p : Params} (hp : p.needsMet = true) {vl : VecLen} {l : Lane}
    {lead : List LeadByte} {e : Evex} {reg : BitVec 3} {rm : RmOperand}
    (h : (Shape.evex vl l lead e reg rm).available p.features = true) : p.features.avx512f = true := by
  obtain ⟨-, -, -, hbw, hvl⟩ := Params.needsMet_iff.mp hp
  cases vl with
  | vl128 => cases l <;> exact hvl (Bool.and_eq_true_iff.mp h).1
  | vl256 => cases l <;> exact hvl (Bool.and_eq_true_iff.mp h).1
  | vl512 =>
    cases l with
    | byte => exact hbw h
    | word => exact hbw h
    | dword => exact h
    | qword => exact h

/-- How many low bits of a vector register a form writes (10_state.md R23). -/
def Shape.vecBits : Shape → Nat
  | .legacy false _ _ _ _ => 0
  | .legacy true _ _ _ _ => 128
  | .vex false _ _ _ _ _ => 128
  | .vex true _ _ _ _ _ => 256
  | .evex vl _ _ _ _ _ => vl.bits

theorem Shape.vecBits_le_maxVl {p : Params} (hp : p.needsMet = true) {sh : Shape}
    (h : sh.available p.features = true) : sh.vecBits ≤ p.maxVl.bits := by
  obtain ⟨hf, havx, havx2, -, -⟩ := Params.needsMet_iff.mp hp
  match sh, h with
  | .legacy false .., _ => exact Nat.zero_le _
  | .legacy true .., _ => exact p.maxVl.bits_ge
  | .vex false .., _ => exact p.maxVl.bits_ge
  | .vex true .., h => exact MaxVl.bits_ge_of_ne (havx (havx2 h))
  | .evex vl .., h => exact hf (avx512f_of_evex_available hp h) ▸ vl.bits_le

end Sys2Proof

namespace Sys2Proof.Machine

open Sys2Proof

/-! ## What a form that completes has passed -/

theorem available_of_shapeChecks {sh : Shape} {s : State} (h : shapeChecks sh s = none) :
    sh.available s.cfg.features = true := by
  match sh, h with
  | .legacy false .., h => obtain ⟨-, -, ha, -⟩ := mmxChecks_eq_none.mp h; exact ha
  | .legacy true .., h => obtain ⟨-, -, ha, -⟩ := sseChecks_eq_none.mp h; exact ha
  | .vex .., h => obtain ⟨-, -, ha, -⟩ := vexChecks_eq_none.mp h; exact ha
  | .evex .., h => obtain ⟨-, -, ha, -⟩ := evexChecks_eq_none.mp h; exact ha

theorem exec_next {i : Instr} {s t : State} (h : exec i s = .next t) :
    i.shape.available s.cfg.features = true ∧ ShapeRan s t i.shape := by
  rw [exec_eq_execShape] at h
  obtain ⟨hchecks, hran⟩ := execShape_next h
  exact ⟨available_of_shapeChecks hchecks, hran⟩

/-! ## The frame and the instruction pointer -/

theorem ShapeRan.keepsAllButData {s t : State} {sh : Shape} (h : ShapeRan s t sh) :
    s.KeepsAllButData t := by
  match sh, h with
  | .legacy false .., ⟨_, _, ht⟩ | .legacy true .., ⟨_, _, ht⟩ | .vex false .., ⟨_, _, ht⟩
  | .vex true .., ⟨_, _, ht⟩ | .evex .., ⟨_, _, ht⟩ => subst ht; constructor <;> rfl

theorem ShapeRan.rip {s t : State} {sh : Shape} (h : ShapeRan s t sh) :
    t.rip = addAddr s.mode s.rip (BitVec.ofNat 64 sh.length) := by
  match sh, h with
  | .legacy false .., ⟨_, _, ht⟩ | .legacy true .., ⟨_, _, ht⟩ | .vex false .., ⟨_, _, ht⟩
  | .vex true .., ⟨_, _, ht⟩ | .evex .., ⟨_, _, ht⟩ => subst ht; rfl

/-! ## The vector registers -/

/-- No vector register holds a bit from `n` up. -/
def State.VecBelow (s : State) (n : Nat) : Prop :=
  ∀ i : Fin 32, s.zmm[i].toNat < 2 ^ n

theorem vecBelow_of_set {s t : State} {n : Nat} {d : Fin 32} {v : Vec} (hs : s.VecBelow n)
    (hv : v.toNat < 2 ^ n) (ht : t.zmm = s.zmm.set d v) : t.VecBelow n := by
  intro i
  simp only [ht, Fin.getElem_fin, Vector.getElem_set]
  split
  · exact hv
  · exact hs i

theorem writeVecZero_vecBelow {s : State} {m n : Nat} (hs : s.VecBelow m) (hn : n ≤ m) (d : Fin 32)
    (v : BitVec n) : (s.writeVecZero d v).VecBelow m := by
  refine vecBelow_of_set hs ?_ rfl
  calc (v.setWidth 512).toNat = v.toNat % 2 ^ 512 := BitVec.toNat_setWidth ..
    _ ≤ v.toNat := Nat.mod_le ..
    _ < 2 ^ n := v.isLt
    _ ≤ 2 ^ m := Nat.pow_le_pow_right Nat.two_pos hn

/-- Replacing the low `n` bits of a value keeps a bound that is not among them. -/
theorem toNat_replaceLow_lt {N n k m : Nat} {x : BitVec N} (hx : x.toNat < 2 ^ m) (hn : n ≤ m)
    (v : BitVec n) : (x.extractLsb' n k ++ v).toNat < 2 ^ m := by
  have high : (x.extractLsb' n k).toNat <<< n < 2 ^ m := calc
    (x.extractLsb' n k).toNat <<< n = x.toNat / 2 ^ n % 2 ^ k * 2 ^ n := by
      rw [BitVec.extractLsb'_toNat, Nat.shiftRight_eq_div_pow, Nat.shiftLeft_eq]
    _ ≤ x.toNat / 2 ^ n * 2 ^ n := Nat.mul_le_mul_right _ (Nat.mod_le ..)
    _ ≤ x.toNat := Nat.div_mul_le_self ..
    _ < 2 ^ m := hx
  have low : v.toNat < 2 ^ m := v.isLt.trans_le (Nat.pow_le_pow_right Nat.two_pos hn)
  rw [BitVec.toNat_append]
  exact Nat.or_lt_two_pow high low

theorem writeXmmKeep_vecBelow {s : State} {m : Nat} (hs : s.VecBelow m) (hm : 128 ≤ m) (d : Fin 32)
    (v : BitVec 128) : (s.writeXmmKeep d v).VecBelow m :=
  vecBelow_of_set hs (toNat_replaceLow_lt (hs d) hm v) rfl

theorem ShapeRan.vecBelow {s t : State} {sh : Shape} {m : Nat} (h : ShapeRan s t sh)
    (hsh : sh.vecBits ≤ m) (hs : s.VecBelow m) : t.VecBelow m := by
  match sh, h with
  | .legacy false .., ⟨_, _, ht⟩ => exact ht ▸ hs
  | .legacy true .., ⟨_, _, ht⟩ => exact ht ▸ writeXmmKeep_vecBelow hs hsh _ _
  | .vex false .., ⟨_, _, ht⟩ => exact ht ▸ writeVecZero_vecBelow hs hsh _ _
  | .vex true .., ⟨_, _, ht⟩ => exact ht ▸ writeVecZero_vecBelow hs hsh _ _
  | .evex .., ⟨_, _, ht⟩ => exact ht ▸ writeVecZero_vecBelow hs hsh _ _

end Sys2Proof.Machine
end

