-- ==== Sys2Proof/Proofs/StepInvariant.lean ====
section
/-!
What a step that completes does to the instruction pointer (10_state.md R31, R32; 70_reset_and_hazards.md R266),
the invariant along it, and the state after reset (10_state.md R44).
-/
namespace Sys2Proof.Machine

open Sys2Proof Sys2Proof.Laws

/-! ## A step that completes -/

/-- The step from `s` to `t` ran the form `i`, whose bytes lie in the window and end where an instruction can
begin. -/
structure StepRan (s t : State) (i : Instr) : Prop where
  decoded : ∃ rest, decode s.mode s.fetch = .form i rest
  ran : exec i s = .next t
  landing : s.landingOk i.length = true
  fits : i.length ≤ maxLength
  inWindow : i.length ≤ s.window

theorem exists_stepRan {s t : State} (h : step s = .next t) : ∃ i, StepRan s t i := by
  obtain ⟨-, i, rest, hd, hl, hx⟩ := step_next h
  obtain ⟨hfits, hspan⟩ := decode_spans s.mode s.fetch i rest hd
  rw [fetch_length] at hspan
  exact ⟨i, ⟨rest, hd⟩, hx, hl, hfits, by omega⟩

theorem exec_rip {i : Instr} {s t : State} (h : exec i s = .next t) :
    t.rip = (s.advance i.length).rip :=
  (exec_next h).2.rip

theorem exec_keepsAllButData {i : Instr} {s t : State} (h : exec i s = .next t) :
    s.KeepsAllButData t :=
  (exec_next h).2.keepsAllButData

/-- Settles O21: the decoder's length is the encoder's, and a form that completes advances by it. -/
theorem stepAdvancesByTheLength : Obligations.StepAdvancesByTheLength := by
  unfold Obligations.StepAdvancesByTheLength
  intro s t h
  obtain ⟨i, hran⟩ := exists_stepRan h
  obtain ⟨rest, hd⟩ := hran.decoded
  have hlen : (encode i).length = i.length := shape_encode_length i.shape
  exact ⟨i, rest, hd, hran.ran, hlen ▸ three_le_length i, hlen ▸ hran.fits, hlen ▸ exec_rip hran.ran⟩

/-! ## The next instruction pointer -/

@[simp] theorem low32_toNat (a : Addr) : (low32 a).toNat = a.toNat % 2 ^ 32 := by
  simp only [low32, BitVec.toNat_setWidth]
  omega

/-- Where the next instruction can begin, no bit is carried out of the address (10_state.md R32). -/
theorem advance_ip_toNat {s : State} {len : Nat} (h : s.landingOk len = true) :
    (s.advance len).ip.toNat = s.ip.toNat + len := by
  unfold State.landingOk State.ip at *
  simp only [State.advance_mode, State.advance_rip]
  cases hm : s.mode with
  | mode64 =>
    simp only [hm, Bool.and_eq_true, decide_eq_true_eq] at h
    simp only [addAddr, BitVec.toNat_add, BitVec.toNat_ofNat]
    omega
  | mode32 =>
    simp only [hm, low32_toNat, decide_eq_true_eq] at h
    simp only [addAddr, low32_toNat, BitVec.toNat_add, BitVec.toNat_ofNat]
    omega
  | realAddress => simp [hm] at h

theorem advance_ripInRange {s : State} {len : Nat} (h : s.landingOk len = true) :
    (s.advance len).ripInRange = true := by
  rw [State.ripInRange, State.advance_rip]
  unfold State.landingOk at h
  cases hm : s.mode with
  | mode64 =>
    simp only [hm, Bool.and_eq_true] at h
    simpa [hm, addAddr] using h.2
  | mode32 =>
    simp only [hm, addAddr, State.advance_mode, low32_toNat, decide_eq_true_eq]
    omega
  | realAddress => simp [hm] at h

theorem ip_congr {s t : State} (hm : t.mode = s.mode) (hr : t.rip = s.rip) : t.ip = s.ip := by
  rw [State.ip, State.ip, hm, hr]

theorem ripInRange_congr {s t : State} (hm : t.mode = s.mode) (hc : t.cfg = s.cfg)
    (hr : t.rip = s.rip) : t.ripInRange = s.ripInRange := by
  rw [State.ripInRange, State.ripInRange, hm, hc, hr]

theorem insideRun_congr {s t : State} (hm : t.mode = s.mode) (he : t.runEnd = s.runEnd)
    (hr : t.rip = s.rip) : t.insideRun = s.insideRun := by
  rw [State.insideRun, State.insideRun, he, ip_congr hm hr]

theorem insideRun_iff {s : State} :
    s.insideRun = true ↔ ∀ e, s.runEnd = some e → s.ip.toNat ≤ e := by
  unfold State.insideRun
  cases s.runEnd <;> simp

theorem window_le {s : State} {e : Nat} (h : s.runEnd = some e) : s.window ≤ e - s.ip.toNat := by
  simp only [State.window, h]
  exact Nat.min_le_right ..

/-- An instruction whose bytes lie in the window ends inside the run (70_reset_and_hazards.md R266). -/
theorem advance_insideRun {s : State} {len : Nat} (hpos : 0 < len) (hland : s.landingOk len = true)
    (hwin : len ≤ s.window) : (s.advance len).insideRun = true := by
  refine insideRun_iff.mpr fun e he => ?_
  have := window_le (s := s) he
  rw [advance_ip_toNat hland]
  omega

/-! ## The invariant -/

theorem step_keeps_inv {s t : State} (hinv : s.Inv) (h : step s = .next t) : t.Inv := by
  obtain ⟨hmem, hneeds, hvec, hmask, -, -⟩ := hinv
  obtain ⟨i, hran⟩ := exists_stepRan h
  obtain ⟨havail, heffect⟩ := exec_next hran.ran
  have keep := heffect.keepsAllButData
  have hrip : t.rip = (s.advance i.length).rip := exec_rip hran.ran
  have range : t.ripInRange = (s.advance i.length).ripInRange :=
    ripInRange_congr keep.mode keep.cfg hrip
  have inside : t.insideRun = (s.advance i.length).insideRun :=
    insideRun_congr keep.mode keep.runEnd hrip
  have hpos : 0 < i.length := Nat.lt_of_lt_of_le (by decide) (three_le_length i)
  refine ⟨keep.mem ▸ hmem, keep.cfg ▸ hneeds, ?vectors, keep.cfg ▸ keep.k ▸ hmask, ?range, ?inside⟩
  case vectors => exact keep.cfg ▸ heffect.vecBelow (Shape.vecBits_le_maxVl hneeds havail) hvec
  case range => exact range ▸ advance_ripInRange hran.landing
  case inside => exact inside ▸ advance_insideRun hpos hran.landing hran.inWindow

theorem step_keepsAllButData {s t : State} (h : step s = .next t) : s.KeepsAllButData t := by
  obtain ⟨_, hran⟩ := exists_stepRan h
  exact exec_keepsAllButData hran.ran

/-- Settles O18: `step_keeps_inv`, and no step changes the parameters. -/
theorem stepKeepsTheInvariant : Obligations.StepKeepsTheInvariant := by
  unfold Obligations.StepKeepsTheInvariant
  exact fun s t hinv h => ⟨step_keeps_inv hinv h, fun hc => (step_keepsAllButData h).cfg ▸ hc⟩

/-! ## Reset -/

theorem reset_zmm (i : Fin 32) : State.reset.zmm[i] = 0#512 := Vector.getElem_replicate ..

theorem reset_inv : State.reset.Inv := by
  have zero (i : Fin 32) : State.reset.zmm[i].toNat = 0 := by rw [reset_zmm, BitVec.toNat_zero]
  exact ⟨Memory.wf_reset, rfl, fun i => (zero i).trans_lt (Nat.two_pow_pos _), .inl rfl, rfl, rfl⟩

/-- Settles O17. -/
theorem resetHasTheInvariant : Obligations.ResetHasTheInvariant :=
  ⟨reset_inv, rfl⟩

/-- R44's mode refuses every step: the spec gives real-address mode no decoder (R45, log 3). -/
theorem step_of_realAddress {s : State} (h : s.mode = .realAddress) :
    step s = .refused .realAddressMode := by
  have hr : s.stepRefusal = some .realAddressMode := if_pos h
  simp only [step, runStep, hr]

/-- Settles O16: the numbers of R44's table are those of `State.reset`, register file by register file. -/
theorem resetValues : Obligations.ResetValues := by
  unfold Obligations.ResetValues
  refine ⟨rfl, rfl, rfl, rfl, rfl, rfl, rfl, rfl, ?gpr, ?x87, rfl, rfl, ?zmm, rfl, rfl, rfl, ?step⟩
  case gpr => exact fun n _ _ _ => Vector.getElem_replicate ..
  case x87 => exact fun n => Vector.getElem_replicate ..
  case zmm =>
    intro n
    have hz : State.reset.zmm[n.val] = 0#512 := reset_zmm ⟨n, by omega⟩
    rw [hz, BitVec.setWidth_zero]
  case step => exact step_of_realAddress rfl

end Sys2Proof.Machine
end

