-- ==== Sys2Proof/Proofs/Launch.lean ====
section
/-!
The recommended premises of 10_state.md R46, bit by bit, and that a launch makes every form of its features ready.
-/
namespace Sys2Proof.Machine

open Sys2Proof

/-! ## The control bits of a launch -/

section
variable (s : State) (program : List Byte)

@[simp] theorem launch_cr0Em : (s.launch program).cr0Em = false := by
  simp [State.cr0Em]

@[simp] theorem launch_cr0Ts : (s.launch program).cr0Ts = false := by
  simp [State.cr0Ts]

@[simp] theorem launch_cr0Am : (s.launch program).cr0Am = false := by
  simp [State.cr0Am]

@[simp] theorem launch_cr4Osfxsr : (s.launch program).cr4Osfxsr = true := by
  simp [State.cr4Osfxsr]

@[simp] theorem launch_cr4Osxsave : (s.launch program).cr4Osxsave = true := by
  simp [State.cr4Osxsave]

@[simp] theorem launch_eflagsTf : (s.launch program).eflagsTf = false := by
  simp [State.eflagsTf]

@[simp] theorem launch_eflagsVm : (s.launch program).eflagsVm = false := by
  simp [State.eflagsVm]

@[simp] theorem launch_fswEs : (s.launch program).fswEs = false := by
  simp [State.fswEs]

@[simp] theorem launch_alignmentChecking : (s.launch program).alignmentChecking = false := by
  simp [State.alignmentChecking]

@[simp] theorem launch_outsideModes : (s.launch program).outsideModes = false := by
  simp [State.outsideModes, State.virtual8086]

@[simp] theorem launch_xcr0Avx : (s.launch program).xcr0Avx = 3#2 := by
  have ones (x : BitVec 2) : x ||| 3#2 = 3#2 := by revert x; decide
  rw [State.xcr0Avx, State.launch_xcr0, BitVec.extractLsb'_or]
  split <;> exact ones _

theorem launch_xcr0Avx512 (h : s.cfg.features.avx512f = true) :
    (s.launch program).xcr0Avx512 = 7#3 := by
  have ones (x : BitVec 3) : x ||| 7#3 = 7#3 := by revert x; decide
  rw [State.xcr0Avx512, State.launch_xcr0, BitVec.extractLsb'_or, if_pos h]
  exact ones _

end

/-! ## Readiness -/

/-- The premises let each class run, the EVEX classes where `AVX512F` makes the launch set `XCR0[7:5]`. -/
theorem launch_controlsAllow (s : State) (program : List Byte) {sh : Shape}
    (hneeds : s.cfg.needsMet = true) (havail : sh.available s.cfg.features = true) :
    sh.ControlsAllow (s.launch program) := by
  match sh, havail with
  | .legacy false .., _ => exact ⟨by simp, by simp, by simp⟩
  | .legacy true .., _ => exact ⟨by simp, by simp, by simp⟩
  | .vex .., _ => exact ⟨by simp, by simp, by simp, by simp⟩
  | .evex .., havail =>
    have hf := avx512f_of_evex_available hneeds havail
    exact ⟨by simp, by simp, by simp, launch_xcr0Avx512 s program hf, by simp⟩

/-- Settles O19: the premises bit by bit, then `launch_controlsAllow`. -/
theorem launchMeetsThePremises : Obligations.LaunchMeetsThePremises := by
  unfold Obligations.LaunchMeetsThePremises
  intro s program hneeds
  refine ⟨⟨rfl, rfl, by simp, by simp, by simp, by simp, by simp, launch_xcr0Avx512 s program, by simp,
    by simp, by simp⟩, fun i hw hfits havail => ?ready⟩
  case ready => exact ⟨hw, hfits, havail, launch_controlsAllow s program hneeds havail⟩

end Sys2Proof.Machine
end

