-- ==== Sys2Proof/Proofs/MmxResult.lean ====
section
/-!
The MMX forms (40_padd_mmx.md R140 to R144): a form that is ready and whose source can be read completes, with
the lane sums and the side effects of 10_state.md R26.
-/
namespace Sys2Proof.Machine

open Sys2Proof Sys2Proof.Laws

theorem mmxSource_of_sourceIs {s : State} {lead : List LeadByte} {rm : RmOperand} {v : BitVec 64}
    (h : s.MmxSourceIs lead rm v) : s.mmxSource lead rm = .ok v := by
  cases rm with
  | reg f => exact congrArg Except.ok h.symm
  | mem m =>
    obtain ⟨hread, hv⟩ := h
    exact hv ▸ memRead_of_readable hread

theorem exec_mmx_of_ready {i : Instr} {s : State} {l : Lane} {lead : List LeadByte} {reg : BitVec 3}
    {rm : RmOperand} {v : BitVec 64} (hshape : i.shape = .legacy false l lead reg rm) (hready : i.Ready s)
    (hv : s.MmxSourceIs lead rm v) : exec i s = .next (s.mmxEffect l.bits lead reg rm v) := by
  have hchecks := shapeChecks_of_ready hready
  rw [hshape] at hchecks
  rw [exec_eq_execShape, hshape]
  exact perform_ok hchecks (mmxSource_of_sourceIs hv)

/-- Settles O25: each of the four forms has the MMX shape of its lane width, and the sum is `addLanes`. -/
theorem mmxFormsResult : Obligations.MmxFormsResult := by
  unfold Obligations.MmxFormsResult
  intro lead reg rm s v hv l i hi hready
  have hshape : i.shape = .legacy false l lead reg rm := by
    simp only [List.mem_cons, Prod.mk.injEq, List.not_mem_nil, or_false] at hi
    rcases hi with ⟨rfl, rfl⟩ | ⟨rfl, rfl⟩ | ⟨rfl, rfl⟩ | ⟨rfl, rfl⟩ <;> rfl
  have hlen : (encode i).length = legacyLength lead rm := by
    rw [encode, shape_encode_length, hshape, Shape.length]
  have hwidth : l.bits * (64 / l.bits) ≤ 64 := Nat.mul_div_le ..
  refine ⟨addLanes l.bits (64 / l.bits) (s.mm (mmNum reg)) v,
    fun j hj => lane_addLanes _ _ hj hwidth, ?_⟩
  rw [exec_mmx_of_ready hshape hready hv, hlen]
  rfl

end Sys2Proof.Machine
end

