-- ==== Sys2Proof/Proofs/MaskBits.lean ====
section
/-!
Which opmask bits take part (10_state.md R27, R28): a form commutes with a change of the opmask file that leaves
bits `KL-1:0` of the register it names.
-/
namespace Sys2Proof.Machine

open Sys2Proof

/-- Another opmask file. -/
def State.withK (s : State) (k' : Vector (BitVec 64) 8) : State := { s with k := k' }

/-- An instruction whose checks and source do not see a change `g` of the state, which keeps `rip`, and whose
effect commutes with it, commutes with it. -/
theorem perform_mapNext {α : Type} {checks : Option Exception} {source : Except Stop α}
    {effect effect' : α → State} {s s' : State} {g : State → State} (hrip : s'.rip = s.rip)
    (heffect : ∀ v, effect' v = g (effect v)) :
    perform checks source effect' s' = mapNext g (perform checks source effect s) := by
  unfold perform
  rcases checks with _ | x
  · rcases source with (x | r) | v
    · simp only [Stop.result, raise, mapNext, hrip]
    · rfl
    · simp only [mapNext, heffect]
  · simp only [raise, mapNext, hrip]

/-- `k'` has the bits of `s.k` that the writemask of a form of `n` lanes reads (30_encoding.md R108). -/
def State.MaskAgrees (s : State) (k' : Vector (BitVec 64) 8) (aaa : BitVec 3) (n : Nat) : Prop :=
  aaa ≠ 0#3 → ∀ j < n, (k'[aaa.toNat]).getLsbD j = (s.k[aaa.toNat]).getLsbD j

theorem maskSelects_withK {s : State} {k' : Vector (BitVec 64) 8} {aaa : BitVec 3} {n j : Nat}
    (h : s.MaskAgrees k' aaa n) (hj : j < n) :
    maskSelects ((s.withK k').writemask aaa) j = maskSelects (s.writemask aaa) j := by
  unfold State.writemask
  split
  · rfl
  · next ha => exact h ha j hj

theorem evexValue_withK {s : State} {k' : Vector (BitVec 64) 8} {w n : Nat} {e : Evex}
    (h : s.MaskAgrees k' e.aaa (n / w)) (reg : BitVec 3) (v : BitVec n) :
    (s.withK k').evexValue w n e reg v = s.evexValue w n e reg v :=
  maskMerge_congr _ _ _ fun _ hj => maskSelects_withK h hj

theorem evexEffect_withK {s : State} {k' : Vector (BitVec 64) 8} {w n : Nat} {e : Evex}
    (h : s.MaskAgrees k' e.aaa (n / w)) (lead : List LeadByte) (reg : BitVec 3) (rm : RmOperand)
    (v : BitVec n) :
    (s.withK k').evexEffect w n lead e reg rm v = (s.evexEffect w n lead e reg rm v).withK k' := by
  rw [State.evexEffect, evexValue_withK h]
  rfl

/-- Only the writemask of an EVEX form reads the opmask file. -/
theorem execShape_withK {sh : Shape} {s : State} {k' : Vector (BitVec 64) 8}
    (h : ∀ vl l lead e reg rm, sh = .evex vl l lead e reg rm →
      s.MaskAgrees k' e.aaa (vl.bits / l.bits)) :
    execShape sh (s.withK k') = mapNext (State.withK · k') (execShape sh s) := by
  match sh, h with
  | .legacy false .., _ | .legacy true .., _ | .vex false .., _ | .vex true .., _ =>
    exact perform_mapNext rfl fun _ => rfl
  | .evex vl l lead e reg rm, h =>
    exact perform_mapNext rfl (evexEffect_withK (h vl l lead e reg rm rfl) lead reg rm)

/-- Settles O56, by `execShape_withK`. -/
theorem maskBitsRead : Obligations.MaskBitsRead := by
  unfold Obligations.MaskBitsRead
  intro i s k' h
  rw [exec_eq_execShape, exec_eq_execShape]
  exact execShape_withK h

end Sys2Proof.Machine
end

