-- ==== Sys2Proof/Proofs/RunFrame.lean ====
section
/-!
What no form and no run changes (20_memory.md R52, R74; 10_state.md R29): `KeepsAllButData` is reflexive and
transitive, so that it holds along a run because it holds of each step.
-/
namespace Sys2Proof.Machine

open Sys2Proof

theorem State.KeepsAllButData.refl (s : State) : s.KeepsAllButData s := by
  constructor <;> rfl

theorem State.KeepsAllButData.trans {s t u : State} (hst : s.KeepsAllButData t)
    (htu : t.KeepsAllButData u) : s.KeepsAllButData u where
  cfg := htu.cfg.trans hst.cfg
  mode := htu.mode.trans hst.mode
  cpl := htu.cpl.trans hst.cpl
  gpr := htu.gpr.trans hst.gpr
  k := htu.k.trans hst.k
  eflags := htu.eflags.trans hst.eflags
  cr0 := htu.cr0.trans hst.cr0
  cr2 := htu.cr2.trans hst.cr2
  cr4 := htu.cr4.trans hst.cr4
  xcr0 := htu.xcr0.trans hst.xcr0
  mxcsr := htu.mxcsr.trans hst.mxcsr
  segs := htu.segs.trans hst.segs
  mem := htu.mem.trans hst.mem
  runEnd := htu.runEnd.trans hst.runEnd

/-- A run of `k + 1` steps that completes is a step that completes and a run of `k` steps from there. -/
theorem run_succ_next {M : Host.Core} {k : Nat} {s t : M.State} (h : M.run (k + 1) s = .next t) :
    ∃ u, M.step s = .next u ∧ M.run k u = .next t := by
  rw [Host.Core.run] at h
  split at h
  · next u hu => exact ⟨u, hu, h⟩
  · cases h
  · cases h

theorem run_keepsAllButData {k : Nat} {s t : State} (h : Sys2Proof.core.run k s = .next t) :
    s.KeepsAllButData t := by
  induction k generalizing s with
  | zero =>
    obtain rfl : s = t := Host.Outcome.next.inj h
    exact .refl s
  | succ k ih =>
    obtain ⟨u, hstep, hrun⟩ := run_succ_next h
    exact (step_keepsAllButData hstep).trans (ih hrun)

/-- Settles O23: the frame of a form that completes has memory and EFLAGS in it. -/
theorem formsWriteNoMemoryNoFlag : Obligations.FormsWriteNoMemoryNoFlag := by
  unfold Obligations.FormsWriteNoMemoryNoFlag
  intro i s t h
  have keep := exec_keepsAllButData h
  exact ⟨keep.eflags, fun a => congrArg (Memory.get · a) keep.mem, keep⟩

/-- Settles O24, by induction on the number of steps. -/
theorem runKeepsAllButData : Obligations.RunKeepsAllButData :=
  fun _ _ _ => run_keepsAllButData

end Sys2Proof.Machine
end

