-- ==== Sys2Proof/Proofs/MemoryData.lean ====
section
/-!
The model's memory as data (20_memory.md R53, R62, log 8): what a write leaves at each address, and that the
canonical form is determined by what is read.
-/
namespace Sys2Proof.Machine

open Sys2Proof

theorem Memory.wfFrom_cons_iff {low k : Nat} {v : Byte} {t : Memory} :
    Memory.wfFrom low ((k, v) :: t) = true ↔
      low ≤ k ∧ v ≠ unlistedByte ∧ Memory.wfFrom (k + 1) t = true := by
  simp only [Memory.wfFrom, Bool.and_eq_true, decide_eq_true_eq, and_assoc]

/-- A write is read back and changes no other byte. -/
theorem Memory.get_set {low : Nat} {m : Memory} (h : Memory.wfFrom low m = true) (a b : Nat) (v : Byte) :
    (m.set a v).get b = if b = a then v else m.get b := by
  induction m generalizing low with
  | nil => simp only [Memory.set, Memory.get_cons a v [] b rfl, eq_comm]
  | cons entry t ih =>
    obtain ⟨k, x⟩ := entry
    obtain ⟨hlow, hx, ht⟩ := Memory.wfFrom_cons_iff.mp h
    rw [Memory.set]
    rcases lt_trichotomy a k with hak | rfl | hka
    · have unlisted : Memory.get ((k, x) :: t) a = unlistedByte :=
        Memory.get_of_lt (Memory.wfFrom_cons_iff.mpr ⟨le_rfl, hx, ht⟩) hak
      rw [if_pos hak, Memory.get_cons _ _ _ _ unlisted]
      simp only [eq_comm]
    · have unlisted : Memory.get t a = unlistedByte := Memory.get_of_lt ht (Nat.lt_succ_self a)
      rw [if_neg (lt_irrefl a), if_pos rfl, Memory.get_cons _ _ _ _ unlisted]
      simp only [Memory.get, eq_comm]
      split <;> rfl
    · rw [if_neg hka.not_gt, if_neg hka.ne']
      simp only [Memory.get, ih ht]
      by_cases hkb : k = b
      · rw [if_pos hkb, if_pos hkb, if_neg (hkb ▸ hka.ne)]
      · rw [if_neg hkb, if_neg hkb]

/-- A canonical memory that reads like one whose first entry is at `k` reads a listed byte there, so `k` is not below
its addresses. -/
theorem Memory.le_of_get_eq {low k : Nat} {x : Byte} {t m : Memory} (hx : x ≠ unlistedByte)
    (hm : Memory.wfFrom low m = true) (h : ∀ a, Memory.get ((k, x) :: t) a = m.get a) : low ≤ k := by
  by_contra hlt
  have hk : x = m.get k := by simpa only [Memory.get, if_true] using h k
  exact hx (hk.trans (Memory.get_of_lt hm (Nat.lt_of_not_le hlt)))

/-- Canonical memories that read alike are equal. -/
theorem Memory.eq_of_get_eq {low low' : Nat} {m m' : Memory} (hm : Memory.wfFrom low m = true)
    (hm' : Memory.wfFrom low' m' = true) (h : ∀ a, m.get a = m'.get a) : m = m' := by
  induction m generalizing low low' m' with
  | nil =>
    cases m' with
    | nil => rfl
    | cons entry t =>
      obtain ⟨k, x⟩ := entry
      obtain ⟨-, hx, -⟩ := Memory.wfFrom_cons_iff.mp hm'
      have := Memory.le_of_get_eq (low := k + 1) hx (m := []) rfl fun a => (h a).symm
      omega
  | cons entry t ih =>
    obtain ⟨k, x⟩ := entry
    obtain ⟨-, hx, ht⟩ := Memory.wfFrom_cons_iff.mp hm
    cases m' with
    | nil =>
      have := Memory.le_of_get_eq (low := k + 1) hx (m := []) rfl h
      omega
    | cons entry' t' =>
      obtain ⟨k', x'⟩ := entry'
      obtain ⟨-, hx', ht'⟩ := Memory.wfFrom_cons_iff.mp hm'
      obtain rfl : k = k' := le_antisymm
        (Memory.le_of_get_eq hx' (Memory.wfFrom_cons_iff.mpr ⟨le_rfl, hx, ht⟩) fun a => (h a).symm)
        (Memory.le_of_get_eq hx (Memory.wfFrom_cons_iff.mpr ⟨le_rfl, hx', ht'⟩) h)
      obtain rfl : x = x' := by simpa only [Memory.get, if_true] using h k
      have tails (a : Nat) : Memory.get t a = Memory.get t' a := by
        by_cases hka : k = a
        · subst hka
          rw [Memory.get_of_lt ht (Nat.lt_succ_self k), Memory.get_of_lt ht' (Nat.lt_succ_self k)]
        · simpa only [Memory.get, if_neg hka] using h a
      rw [ih ht ht' tails]

/-- Settles O51: `Memory.wf_set` and `Memory.get_set` for a write, `Memory.eq_of_get_eq` for extensionality. -/
theorem memoryAsData : Obligations.MemoryAsData := by
  unfold Obligations.MemoryAsData
  exact ⟨fun m a b v hm => ⟨Memory.wf_set hm a v, Memory.get_set hm a b v⟩,
    fun m m' hm hm' h => Memory.eq_of_get_eq hm hm' h⟩

end Sys2Proof.Machine
end

