-- ==== Sys2Proof/Proofs/CanonicalForm.lean ====
section
/-!
Canonical addresses (20_memory.md R58): sign extension from bit `VA_BITS - 1`, bit by bit, and as two ranges for
48 address bits.
-/
namespace Sys2Proof.Machine

open Sys2Proof

theorem canonical_iff {n : Nat} {a : Addr} : canonical n a = true ↔ (a.setWidth n).signExtend 64 = a :=
  decide_eq_true_iff

/-- Bit `i` of an address that is cut to `n` bits and sign-extended is its bit `min i (n - 1)`. -/
theorem getLsbD_signExtend_setWidth {n i : Nat} (a : Addr) (hn : 1 ≤ n) (hi : i < 64) :
    ((a.setWidth n).signExtend 64).getLsbD i = a.getLsbD (min i (n - 1)) := by
  rw [BitVec.getLsbD_signExtend, BitVec.msb_eq_getLsbD_last]
  by_cases hin : i < n
  · simp [hi, hin, show min i (n - 1) = i by omega]
  · simp [hi, hin, show min i (n - 1) = n - 1 by omega, show n - 1 < n by omega]

theorem canonical_iff_getLsbD {n : Nat} (a : Addr) (hn : 1 ≤ n) :
    canonical n a = true ↔ ∀ i, n - 1 ≤ i → i < 64 → a.getLsbD i = a.getLsbD (n - 1) := by
  rw [canonical_iff]
  constructor
  · intro h i hni hi
    rw [← congrArg (·.getLsbD i) h, getLsbD_signExtend_setWidth a hn hi, Nat.min_eq_right hni]
  · intro h
    refine BitVec.eq_of_getLsbD_eq fun i hi => ?_
    rw [getLsbD_signExtend_setWidth a hn hi]
    rcases le_total i (n - 1) with hle | hge
    · rw [Nat.min_eq_left hle]
    · rw [Nat.min_eq_right hge, h i hge hi]

/-- The two halves of the canonical addresses of 48 bits. -/
theorem canonical_48_iff (a : Addr) :
    canonical 48 a = true ↔ a.toNat ≤ 0x00007FFFFFFFFFFF ∨ 0xFFFF800000000000 ≤ a.toNat := by
  have ha := a.isLt
  rw [canonical_iff, ← BitVec.toNat_inj, BitVec.toNat_signExtend, BitVec.msb_eq_decide]
  simp only [BitVec.toNat_setWidth, decide_eq_true_eq]
  split <;> omega

/-- Settles O45. -/
theorem canonicalAddresses : Obligations.CanonicalAddresses :=
  ⟨fun _ a hn _ => canonical_iff_getLsbD a hn, canonical_48_iff⟩

end Sys2Proof.Machine
end

