-- ==== Sys2Proof/Proofs/LittleEndian.lean ====
section
/-!
Byte order (20_memory.md R50, R53; 30_encoding.md R95; 70_reset_and_hazards.md R266): an operand is made of byte
lanes at consecutive addresses modulo the address width, so that a narrower read is a lane of a wider one, and the
bytes fetched are those from the code address on.
-/
namespace Sys2Proof.Machine

open Sys2Proof

/-! ## Operands -/

theorem low32_low32_add (a b : Addr) : low32 (low32 a + b) = low32 (a + b) := by
  refine BitVec.eq_of_toNat_eq ?_
  simp only [low32_toNat, BitVec.toNat_add]
  omega

/-- Byte `j` from byte `i` of an operand on is its byte `i + j` (20_memory.md R54, log 19). -/
theorem byteAddr_byteAddr (s : State) (la : Addr) (i j : Nat) :
    s.byteAddr (s.byteAddr la i) j = s.byteAddr la (i + j) := by
  unfold State.byteAddr addAddr
  cases s.mode with
  | mode64 => simp only [BitVec.ofNat_add, BitVec.add_assoc]
  | mode32 => simp only [low32_low32_add, BitVec.ofNat_add, BitVec.add_assoc]
  | realAddress => simp only [low32_low32_add, BitVec.ofNat_add, BitVec.add_assoc]

theorem lane_loadBytes {N n i : Nat} (s : State) (la : Addr) (hi : i < n) (hN : 8 * n ≤ N) :
    lane 8 (loadBytes s la n : BitVec N) i = s.mem.get (s.byteAddr la i).toNat :=
  lane_ofLanes _ hi hN

/-- Byte `k` of lane `j` of `c` bytes is byte `j * c + k`. -/
theorem lane_lane {N c k : Nat} (v : BitVec N) (j : Nat) (hk : k < c) :
    lane 8 (lane (8 * c) v j) k = lane 8 v (j * c + k) := by
  ext i hi
  have bit : 8 * k + i < 8 * c := by omega
  have place : 8 * c * j + (8 * k + i) = 8 * (j * c + k) + i := by ring
  simp only [lane, BitVec.getElem_extractLsb', BitVec.getLsbD_extractLsb', bit, place, decide_true,
    Bool.true_and]

/-- A narrower read is a lane of the wider one that holds its bytes (20_memory.md R53). -/
theorem lane_loadBytes_wide {N c n j : Nat} (s : State) (la : Addr) (hj : (j + 1) * c ≤ n)
    (hN : 8 * n ≤ N) :
    lane (8 * c) (loadBytes s la n : BitVec N) j = loadBytes s (s.byteAddr la (j * c)) c := by
  refine eq_of_lanes (w := 8) (n := c) (by decide) le_rfl fun k hk => ?_
  have inside : j * c + k < n := by rw [Nat.succ_mul] at hj; omega
  rw [lane_lane _ _ hk, lane_loadBytes s la inside hN, lane_loadBytes s _ hk le_rfl, byteAddr_byteAddr]

/-- A read looks at its address through `byteAddr` only, which cuts it to the address width. -/
theorem loadBytes_byteAddr_zero {N : Nat} (s : State) (la : Addr) (n : Nat) :
    (loadBytes s (s.byteAddr la 0) n : BitVec N) = loadBytes s la n :=
  ofLanes_congr fun j _ => by rw [byteAddr_byteAddr, Nat.zero_add]

/-- A read of `c` bytes is the low bits of a wider one at the same address (20_memory.md R53). -/
theorem loadBytes_eq_extractLsb' {N c n : Nat} (s : State) (la : Addr) (hc : c ≤ n) (hN : 8 * n ≤ N) :
    (loadBytes s la c : BitVec (8 * c)) = (loadBytes s la n : BitVec N).extractLsb' 0 (8 * c) := by
  have first := lane_loadBytes_wide (c := c) (j := 0) s la (by omega) hN
  rw [Nat.zero_mul, loadBytes_byteAddr_zero] at first
  exact first.symm

/-! ## Instruction bytes -/

theorem codeAddr_mode64 {s : State} (h : s.mode = .mode64) (j : Nat) :
    s.codeAddr j = s.rip + BitVec.ofNat 64 j := by
  simp only [State.codeAddr, h]

/-- In 32-bit mode the sum with the base of `CS` is cut to 32 bits once (log 38). -/
theorem codeAddr_mode32 {s : State} (h : s.mode = .mode32) (j : Nat) :
    s.codeAddr j = low32 (s.segs.cs.base + s.rip + BitVec.ofNat 64 j) := by
  refine BitVec.eq_of_toNat_eq ?_
  simp only [State.codeAddr, State.ip, h, low32_toNat, BitVec.toNat_add]
  omega

/-- Settles O44: operands by `lane_loadBytes` and `lane_loadBytes_wide`, instruction bytes by the code address of
each mode; a `disp32` is parsed by definition. -/
theorem littleEndian : Obligations.LittleEndian := by
  unfold Obligations.LittleEndian
  refine ⟨fun s la n i hi => lane_loadBytes s la hi le_rfl,
    fun s la c n j hj => lane_loadBytes_wide s la hj le_rfl,
    fun s la => loadBytes_eq_extractLsb' (c := 4) s la (by decide) le_rfl,
    fun s j hm hj => ?mode64, fun s j hm hj => ?mode32, fun b0 b1 b2 b3 t => rfl⟩
  case mode64 => rw [fetch_getElem? hj, State.codeByte, codeAddr_mode64 hm]
  case mode32 => rw [fetch_getElem? hj, State.codeByte, codeAddr_mode32 hm, low32]

end Sys2Proof.Machine
end

