-- ==== Sys2Proof/Proofs/OperandAddress.lean ====
section
/-!
The memory operand of each form: its lead bytes, extension bits, length, size and checks by class (20_memory.md R51,
R55, R59, R61), from one lemma that says what `Shape.access` answers, and the linear address (R54).
-/
namespace Sys2Proof

open Sys2Proof.Machine

/-! ## What a class gives its operand -/

/-- The `r/m` operand of a form (30_encoding.md R93). -/
def Shape.rm : Shape → RmOperand
  | .legacy _ _ _ _ rm => rm
  | .vex _ _ _ _ _ rm => rm
  | .evex _ _ _ _ _ rm => rm

/-- The extension bits of a form (30_encoding.md R96, R100, R101, R105). -/
def Shape.ext : Shape → Ext
  | .legacy _ _ lead _ _ => rexExt lead
  | .vex _ _ _ v _ _ => vexExt v
  | .evex _ _ _ e _ _ => evexExt e

/-- The bytes a form reads from memory (20_memory.md R51). -/
def Shape.operandSize : Shape → Nat
  | .legacy false _ _ _ _ => 8
  | .legacy true _ _ _ _ => 16
  | .vex false _ _ _ _ _ => 16
  | .vex true _ _ _ _ _ => 32
  | .evex vl l _ e _ _ => if e.bcst then l.bits / 8 else vl.bits / 8

/-- How often a one-byte displacement counts (30_encoding.md R98, R111). -/
def Shape.dispScale : Shape → Nat
  | .legacy _ _ _ _ _ => 1
  | .vex _ _ _ _ _ _ => 1
  | .evex vl l _ e _ _ => if e.bcst then l.bits / 8 else vl.bits / 8

/-- The alignment check of a form (20_memory.md R61). -/
def Shape.acRule : Shape → AcRule
  | .legacy false _ _ _ _ => .always 8
  | .legacy true _ _ _ _ => .never
  | .vex _ _ _ _ _ _ => .never
  | .evex _ l _ e _ _ => if e.bcst then .perhaps (l.bits / 8) else .never

/-- What the memory operand of a form is, in terms of the form's own parts. -/
theorem Shape.access_eq {sh : Shape} {s : State} {a : Access} (h : sh.access s = some a) :
    ∃ m, sh.rm = .mem m ∧
      a = s.access sh.lead sh.ext sh.length sh.dispScale sh.operandSize (decide (sh.cls = .sse))
        sh.acRule m := by
  match sh, h with
  | .legacy false _ _ _ (.mem m), h | .legacy true _ _ _ (.mem m), h
  | .vex false _ _ _ _ (.mem m), h | .vex true _ _ _ _ (.mem m), h
  | .evex _ _ _ _ _ (.mem m), h => exact ⟨m, rfl, (Option.some.inj h).symm⟩

section
variable {sh : Shape} {s : State} {a : Access}

theorem Shape.access_size (h : sh.access s = some a) : a.size = sh.operandSize := by
  obtain ⟨m, -, rfl⟩ := Shape.access_eq h
  rfl

theorem Shape.access_aligned16 (h : sh.access s = some a) : a.aligned16 = decide (sh.cls = .sse) := by
  obtain ⟨m, -, rfl⟩ := Shape.access_eq h
  rfl

theorem Shape.access_ac (h : sh.access s = some a) : a.ac = sh.acRule := by
  obtain ⟨m, -, rfl⟩ := Shape.access_eq h
  rfl

theorem Shape.access_la (h : sh.access s = some a) : a.la = addAddr s.mode (s.segBase a.seg) a.ea := by
  obtain ⟨m, -, rfl⟩ := Shape.access_eq h
  rfl

/-- The segment and the effective address of a form's operand `m` (20_memory.md R54, R55). -/
theorem Shape.access_seg_ea {m : MemOperand} (h : sh.access s = some a) (hrm : sh.rm = .mem m) :
    a.seg = operandSeg sh.lead sh.ext m ∧
      a.ea = s.effectiveAddress sh.lead sh.ext sh.length sh.dispScale m := by
  obtain ⟨m', hm', rfl⟩ := Shape.access_eq h
  obtain rfl : m' = m := RmOperand.mem.inj (hm'.symm.trans hrm)
  exact ⟨rfl, rfl⟩

end

end Sys2Proof

namespace Sys2Proof.Machine

open Sys2Proof Sys2Proof.Laws

/-! ## The segment -/

theorem segOverride_append (lead lead' : List LeadByte) :
    segOverride (lead ++ lead') = (segOverride lead').or (segOverride lead) := by
  induction lead with
  | nil => simp only [List.nil_append, segOverride, Option.or_none]
  | cons p t ih =>
    cases p with
    | seg g => simp only [List.cons_append, segOverride, ih, Option.or_assoc]
    | _ => simp only [List.cons_append, segOverride, ih]

theorem segOverride_eq_none {lead : List LeadByte} (h : ∀ g, LeadByte.seg g ∉ lead) :
    segOverride lead = none := by
  induction lead with
  | nil => rfl
  | cons p t ih =>
    have rest := ih fun g hg => h g (List.mem_cons_of_mem p hg)
    cases p with
    | seg g => exact absurd List.mem_cons_self (h g)
    | _ => exact rest

/-- The last override names the segment (30_encoding.md R94, log 33). -/
theorem operandSeg_append_seg {lead lead' : List LeadByte} {g : SegReg} (ext : Ext) (m : MemOperand)
    (h : ∀ g', LeadByte.seg g' ∉ lead') : operandSeg (lead ++ .seg g :: lead') ext m = g := by
  simp only [operandSeg, segOverride_append, segOverride, segOverride_eq_none h, Option.none_or,
    Option.some_or, Option.getD_some]

theorem operandSeg_of_no_override {lead : List LeadByte} (ext : Ext) (m : MemOperand)
    (h : ∀ g, LeadByte.seg g ∉ lead) : operandSeg lead ext m = defaultSeg ext m := by
  rw [operandSeg, segOverride_eq_none h, Option.getD_none]

/-- General registers 4 and 5 are the unextended fields `100` and `101`. -/
theorem gprNum_eq_4_or_5_iff (hi : Bool) (f : BitVec 3) :
    gprNum hi f = 4 ∨ gprNum hi f = 5 ↔ hi = false ∧ (f = 4#3 ∨ f = 5#3) := by
  revert hi f
  decide

/-! ## The linear address -/

/-- In 64-bit mode only `FS` and `GS` add a base (20_memory.md R54). -/
theorem addAddr_segBase_mode64 {s : State} (h : s.mode = .mode64) (g : SegReg) (ea : Addr) :
    addAddr s.mode (s.segBase g) ea =
      ea + (if g = .fs then s.segs.fs.base else if g = .gs then s.segs.gs.base else 0#64) := by
  simp only [addAddr, State.segBase, h]
  cases g <;> simp [BitVec.add_comm]

/-- In 32-bit mode every segment adds its base, modulo `2^32` (20_memory.md R54). -/
theorem addAddr_segBase_mode32 {s : State} (h : s.mode = .mode32) (g : SegReg) (ea : Addr) :
    addAddr s.mode (s.segBase g) ea = low32 ((s.segs.get g).base + ea) := by
  simp only [addAddr, State.segBase, h]

/-- The operand of an instruction by its shape, its length counted in encoded bytes. -/
theorem access_seg_ea_of_shape {i : Instr} {s : State} {a : Access} {sh : Shape} {m : MemOperand}
    (ha : i.access s = some a) (hsh : i.shape = sh) (hrm : sh.rm = .mem m) :
    a.seg = operandSeg sh.lead sh.ext m ∧
      a.ea = s.effectiveAddress sh.lead sh.ext (encode i).length sh.dispScale m := by
  have length : (encode i).length = sh.length := hsh ▸ shape_encode_length i.shape
  rw [Instr.access, hsh] at ha
  exact length ▸ Shape.access_seg_ea ha hrm

/-- Settles O48: the override and the default segment from the lead bytes, the linear address from the mode, the
operand of each class from `access_seg_ea_of_shape`. -/
theorem segmentAndLinearAddress : Obligations.SegmentAndLinearAddress := by
  unfold Obligations.SegmentAndLinearAddress
  refine ⟨fun lead lead' g ext m h => operandSeg_append_seg ext m h,
    fun lead ext rm ix sc disp d h => ⟨fun m hm => ?base, operandSeg_of_no_override ext _ h,
      operandSeg_of_no_override ext _ h⟩,
    fun i s a ha => ?operand⟩
  case base =>
    simp only [List.mem_cons, List.not_mem_nil, or_false] at hm
    simp only [operandSeg_of_no_override ext m h, ← gprNum_eq_4_or_5_iff]
    rcases hm with rfl | rfl <;> rfl
  case operand =>
    have la := Shape.access_la ha
    refine ⟨fun hm => la.trans (addAddr_segBase_mode64 hm _ _),
      fun hm => la.trans (addAddr_segBase_mode32 hm _ _),
      fun wide l lead reg m hsh => access_seg_ea_of_shape ha hsh rfl,
      fun wide l lead v reg m hsh => access_seg_ea_of_shape ha hsh rfl,
      fun vl l lead e reg m hsh => ?evex⟩
    case evex =>
      have size : a.size = (Shape.evex vl l lead e reg (.mem m)).dispScale := by
        rw [Shape.access_size ha, hsh]
        rfl
      exact size ▸ access_seg_ea_of_shape ha hsh rfl

end Sys2Proof.Machine
end

