-- ==== Sys2Proof/Proofs/OperandStops.lean ====
section
/-!
What stops a memory operand (20_memory.md R57, R59, R61, R64): when each check of R57 passes, and the outcome of a
ready form whose operand stops or passes.
-/
namespace Sys2Proof.Machine

open Sys2Proof

/-! ## The checks of 20_memory.md R57 -/

section
variable {s : State} {a : Access}

theorem segStop_eq_none (h : a.InSegment s) : segStop s a = none := by
  obtain ⟨hvm, ⟨hmode, hcanonical⟩ | ⟨hmode, hcheck⟩⟩ := h
  · have all : ((List.range a.size).all fun i => canonical s.cfg.vaBits (s.byteAddr a.la i)) = true := by
      simpa only [List.all_eq_true, List.mem_range] using hcanonical
    simp [segStop, hmode, hvm, all]
  · simp [segStop, hmode, hvm, hcheck]

theorem alignStop_eq_none (h : a.Aligned) : alignStop a = none :=
  if_neg fun hmis => hmis.2 (h hmis.1)

theorem alignStop_of_misaligned (h : a.aligned16 = true) (hla : a.la.toNat % 16 ≠ 0) :
    alignStop a = some (.exception .gp) :=
  if_pos ⟨h, hla⟩

theorem pageStopAt_eq_none {i : Nat}
    (h : (translate s.cfg.pages s.privilege (s.byteAddr a.la i)).isPhysical = true) :
    pageStopAt s a i = none := by
  unfold pageStopAt
  cases ht : translate s.cfg.pages s.privilege (s.byteAddr a.la i) with
  | physical pa => rfl
  | pageFault code => rw [ht] at h; cases h

theorem pageStop_eq_none (h : a.Translated s) : pageStop s a = none :=
  List.findSome?_eq_none_iff.mpr fun i hi => pageStopAt_eq_none (h i (List.mem_range.mp hi))

theorem acStop_eq_none (h : a.ac.Passes s a.la) : acStop s a = none := by
  unfold acStop
  cases hr : a.ac with
  | never => rfl
  | always k =>
    rw [hr] at h
    rcases h with h | h <;> simp [h]
  | perhaps k =>
    rw [hr] at h
    rcases h with h | h | h <;> simp [h]

theorem acStop_always {k : Nat} (hac : a.ac = .always k) (hcheck : s.alignmentChecking = true)
    (hla : a.la.toNat % k ≠ 0) : acStop s a = some (.exception .ac) := by
  rw [acStop, hac]
  exact if_pos ⟨hcheck, hla⟩

theorem acStop_perhaps {k : Nat} (hac : a.ac = .perhaps k) (hcheck : s.alignmentChecking = true)
    (hla : a.la.toNat % k ≠ 0) (hchoice : Config.bcstMisalignedFaults s.choices = true) :
    acStop s a = some (.exception .ac) := by
  rw [acStop, hac]
  exact (if_pos ⟨hcheck, hla⟩).trans (if_pos hchoice)

theorem mappedStop_of_outside
    (h : ∃ k < a.size, ∀ r ∈ s.cfg.mapped, r.contains (s.byteAddr a.la k).toNat = false) :
    mappedStop s a = some (.refusal .notMapped) := by
  obtain ⟨k, hk, hout⟩ := h
  have outside : isMapped s a = false :=
    List.all_eq_false.mpr ⟨k, List.mem_range.mpr hk, by
      simpa only [List.any_eq_true, not_exists, not_and, Bool.not_eq_true] using hout⟩
  simp [mappedStop, outside]

/-! ## The first stop, in the order of R57 -/

theorem memStop_of_alignStop {t : Stop} (hseg : a.InSegment s) (ht : alignStop a = some t) :
    memStop s a = some t := by
  simp [memStop, segStop_eq_none hseg, ht]

theorem memStop_eq_acStop_or (hseg : a.InSegment s) (hal : a.Aligned) (htr : a.Translated s) :
    memStop s a = (acStop s a).or (mappedStop s a) := by
  simp [memStop, segStop_eq_none hseg, alignStop_eq_none hal, pageStop_eq_none htr]

end

/-! ## The outcome of a ready form -/

theorem memRead_of_memStop_eq_none {N : Nat} {s : State} {a : Access} (h : memStop s a = none) :
    memRead s a = .ok (loadBytes s a.la a.size : BitVec N) := by
  simp only [memRead, h]

theorem evexSource_mem_ok {s : State} {w n : Nat} {lead : List LeadByte} {e : Evex} {m : MemOperand}
    (h : memStop s (s.evexAccess w n lead e (.mem m) m) = none) :
    ∃ v, s.evexSource w n lead e (.mem m) = .ok v := by
  simp only [State.evexSource, memRead_of_memStop_eq_none h]
  split <;> exact ⟨_, rfl⟩

/-- If the checks of a shape pass and its memory operand can be read, it completes. -/
theorem execShape_completes {sh : Shape} {s : State} {a : Access} (hchecks : shapeChecks sh s = none)
    (ha : sh.access s = some a) (hread : memStop s a = none) : ∃ t, execShape sh s = .next t := by
  match sh, ha with
  | .legacy false _ _ _ (.mem _), ha | .legacy true _ _ _ (.mem _), ha
  | .vex false _ _ _ _ (.mem _), ha | .vex true _ _ _ _ (.mem _), ha =>
    obtain rfl := Option.some.inj ha
    exact ⟨_, perform_ok hchecks (memRead_of_memStop_eq_none hread)⟩
  | .evex _ _ _ _ _ (.mem _), ha =>
    obtain rfl := Option.some.inj ha
    obtain ⟨_, hv⟩ := evexSource_mem_ok hread
    exact ⟨_, perform_ok hchecks hv⟩

section
variable {i : Instr} {s : State} {a : Access}

theorem exec_stop_of_ready {t : Stop} (hready : i.Ready s) (ha : i.access s = some a)
    (ht : memStop s a = some t) : exec i s = t.result s := by
  rw [exec_eq_execShape]
  exact execShape_stop (shapeChecks_of_ready hready) ha ht

theorem exec_completes_of_readable (hready : i.Ready s) (ha : i.access s = some a)
    (hread : a.Readable s) : ∃ t, exec i s = .next t := by
  rw [exec_eq_execShape]
  exact execShape_completes (shapeChecks_of_ready hready) ha (memStop_of_readable hread)

end

/-- Settles O38: every legacy SSE operand needs the alignment, and the check comes right after the segment's. -/
theorem sseMisalignedRaisesGp : Obligations.SseMisalignedRaisesGp := by
  unfold Obligations.SseMisalignedRaisesGp
  intro i s a hready hcls ha hseg hla
  have aligned16 : a.aligned16 = true := (Shape.access_aligned16 ha).trans (decide_eq_true hcls)
  exact exec_stop_of_ready (t := .exception .gp) hready ha
    (memStop_of_alignStop hseg (alignStop_of_misaligned aligned16 hla))

/-- Settles O42: with every fault check passed, the first stop is the refusal of R64. -/
theorem outsideMappedIsRefused : Obligations.OutsideMappedIsRefused := by
  unfold Obligations.OutsideMappedIsRefused
  intro i s a hready ha hseg hal htr hac hout
  have first : memStop s a = some (.refusal .notMapped) := by
    rw [memStop_eq_acStop_or hseg hal htr, acStop_eq_none hac, Option.none_or, mappedStop_of_outside hout]
  exact exec_stop_of_ready (t := .refusal .notMapped) hready ha first

/-! ## The alignment check by class -/

theorem acRule_of_mmx {sh : Shape} (h : sh.cls = .mmx) : sh.acRule = .always 8 := by
  match sh, h with
  | .legacy false .., _ => rfl
  | .legacy true .., h | .vex .., h | .evex .., h => cases h

theorem acRule_of_sse_or_vex {sh : Shape} (h : sh.cls = .sse ∨ sh.cls = .vex) : sh.acRule = .never := by
  match sh, h with
  | .legacy true .., _ | .vex .., _ => rfl
  | .legacy false .., h | .evex .., h => rcases h with h | h <;> cases h

/-- Settles O41: the rule of each class, then the alignment check's own outcome, or completion where it passes. -/
theorem alignmentCheckOutcomes : Obligations.AlignmentCheckOutcomes := by
  unfold Obligations.AlignmentCheckOutcomes
  intro i s a hready ha hseg hal htr hcheck
  have rule : a.ac = i.shape.acRule := Shape.access_ac ha
  have raises (hstop : acStop s a = some (.exception .ac)) : exec i s = .fault (.ac s.rip) :=
    exec_stop_of_ready (t := .exception .ac) hready ha
      (by rw [memStop_eq_acStop_or hseg hal htr, hstop, Option.some_or])
  have completes (hac : a.ac.Passes s a.la) (hmap : a.Mapped s) : ∃ t, exec i s = .next t :=
    exec_completes_of_readable hready ha ⟨hseg, hal, htr, hac, hmap⟩
  refine ⟨fun hcls hla => ?mmx, fun hcls => ?full, fun vl l lead e reg m hsh =>
    ⟨fun hb => ?evexFull, fun hb hla => ?broadcast⟩⟩
  case mmx => exact raises (acStop_always (rule.trans (acRule_of_mmx hcls)) hcheck hla)
  case full =>
    rw [acRule_of_sse_or_vex hcls] at rule
    exact completes (rule ▸ trivial)
  case evexFull =>
    have never : a.ac = .never := by rw [rule, hsh, Shape.acRule, hb]; rfl
    exact completes (never ▸ trivial)
  case broadcast =>
    have perhaps : a.ac = .perhaps (l.bits / 8) := by rw [rule, hsh, Shape.acRule, hb]; rfl
    split
    · next hchoice => exact raises (acStop_perhaps perhaps hcheck hla hchoice)
    · next hchoice => exact completes (perhaps ▸ .inr (.inr (Bool.eq_false_of_not_eq_true hchoice)))

end Sys2Proof.Machine
end

