-- ==== Sys2Proof/Proofs/MemoryFootprint.lean ====
section
/-!
Which bytes of memory take part (20_memory.md R51): a form commutes with a change of memory that leaves the bytes
of its operand, because only `loadBytes` reads memory.
-/
namespace Sys2Proof.Machine

open Sys2Proof

/-- Another memory. -/
def State.withMem (s : State) (m : Memory) : State := { s with mem := m }

/-- `m` has the bytes of `s.mem` at the operand `a`. -/
def State.MemAgrees (s : State) (m : Memory) (a : Access) : Prop :=
  ∀ k < a.size, m.get (s.byteAddr a.la k).toNat = s.mem.get (s.byteAddr a.la k).toNat

/-- The checks of an operand do not read memory, and its value is that of its own bytes. -/
theorem memRead_withMem {N : Nat} {s : State} {m : Memory} {a : Access} (h : s.MemAgrees m a) :
    (memRead (s.withMem m) a : Except Stop (BitVec N)) = memRead s a := by
  have value : (loadBytes (s.withMem m) a.la a.size : BitVec N) = loadBytes s a.la a.size :=
    ofLanes_congr h
  rw [memRead, value]
  rfl

section
variable {s : State} {m : Memory} {lead : List LeadByte} {rm : RmOperand}

theorem mmxSource_withMem (h : ∀ o, rm = .mem o → s.MemAgrees m (s.mmxAccess lead rm o)) :
    (s.withMem m).mmxSource lead rm = s.mmxSource lead rm := by
  cases rm with
  | reg f => rfl
  | mem o => exact memRead_withMem (h o rfl)

theorem sseSource_withMem (h : ∀ o, rm = .mem o → s.MemAgrees m (s.sseAccess lead rm o)) :
    (s.withMem m).sseSource lead rm = s.sseSource lead rm := by
  cases rm with
  | reg f => rfl
  | mem o => exact memRead_withMem (h o rfl)

theorem vexSource_withMem {n : Nat} {v : Vex}
    (h : ∀ o, rm = .mem o → s.MemAgrees m (s.vexAccess n lead v rm o)) :
    (s.withMem m).vexSource n lead v rm = s.vexSource n lead v rm := by
  cases rm with
  | reg f => rfl
  | mem o => exact memRead_withMem (h o rfl)

theorem evexAccess_withMem {w n : Nat} {e : Evex} {o : MemOperand} :
    (s.withMem m).evexAccess w n lead e rm o = s.evexAccess w n lead e rm o := rfl

theorem evexSource_withMem {w n : Nat} {e : Evex}
    (h : ∀ o, rm = .mem o → s.MemAgrees m (s.evexAccess w n lead e rm o)) :
    (s.withMem m).evexSource w n lead e rm = s.evexSource w n lead e rm := by
  cases rm with
  | reg f => rfl
  | mem o => simp only [State.evexSource, evexAccess_withMem, memRead_withMem (h o rfl)]

end

/-- An instruction whose source is the same with another memory commutes with the change of memory. -/
theorem perform_withMem {α : Type} {checks : Option Exception} {source source' : Except Stop α}
    {effect effect' : α → State} {s : State} {m : Memory} (hsource : source' = source)
    (heffect : ∀ v, effect' v = (effect v).withMem m) :
    perform checks source' effect' (s.withMem m) =
      mapNext (State.withMem · m) (perform checks source effect s) :=
  hsource ▸ perform_mapNext rfl heffect

theorem execShape_withMem {sh : Shape} {s : State} {m : Memory}
    (h : ∀ a, sh.access s = some a → s.MemAgrees m a) :
    execShape sh (s.withMem m) = mapNext (State.withMem · m) (execShape sh s) := by
  match sh, h with
  | .legacy false .., h =>
    exact perform_withMem (mmxSource_withMem fun o ho => h _ (by rw [ho]; rfl)) fun _ => rfl
  | .legacy true .., h =>
    exact perform_withMem (sseSource_withMem fun o ho => h _ (by rw [ho]; rfl)) fun _ => rfl
  | .vex false .., h | .vex true .., h =>
    exact perform_withMem (vexSource_withMem fun o ho => h _ (by rw [ho]; rfl)) fun _ => rfl
  | .evex .., h =>
    exact perform_withMem (evexSource_withMem fun o ho => h _ (by rw [ho]; rfl)) fun _ => rfl

/-- Settles O50: the size of each class by `Shape.access_size`, the footprint by `execShape_withMem`. -/
theorem memoryReadFootprint : Obligations.MemoryReadFootprint := by
  unfold Obligations.MemoryReadFootprint
  refine ⟨fun i s a ha => ?size, fun i s m h => ?footprint⟩
  case size =>
    rw [Shape.access_size ha]
    split <;> next hsh => rw [hsh]; rfl
  case footprint =>
    rw [exec_eq_execShape, exec_eq_execShape]
    exact execShape_withMem h

end Sys2Proof.Machine
end

