-- ==== Sys2Proof/Proofs/EncodedHeader.lean ====
section
/-!
The decoder on the bytes that the encoder writes: the lead bytes (30_encoding.md R94, R96), the VEX and EVEX headers
(R100 to R106), ModRM and what follows it (R93, R98), for every instruction that the mode admits (R118).
-/
namespace Sys2Proof

/-! ## The instruction of a shape -/

@[simp] theorem encode_instr (sh : Shape) : encode sh.instr = sh.encode :=
  congrArg Shape.encode (shape_instr sh)

@[simp] theorem wellFormed_instr (sh : Shape) : sh.instr.wellFormed = sh.wellFormed :=
  congrArg Shape.wellFormed (shape_instr sh)

/-! ## What a mode admits -/

theorem Instr.admitted_iff {m : Mode} {i : Instr} :
    i.admitted m = true ↔ m ≠ .realAddress ∧ (m = .mode32 → i.shape.mode32Ok = true) := by
  cases m <;> simp [Instr.admitted]

theorem LeadByte.inMode_mode64 (p : LeadByte) : p.inMode .mode64 := by
  cases p with
  | rex w r x b => exact rfl
  | _ => trivial

theorem LeadByte.inMode_of_in32 {m : Mode} {p : LeadByte} (h : p.in32 = true) : p.inMode m := by
  cases p with
  | rex w r x b => cases h
  | _ => trivial

theorem Shape.lead_in32 {sh : Shape} (h : sh.mode32Ok = true) : ∀ p ∈ sh.lead, p.in32 = true := by
  rw [← List.all_eq_true]
  match sh, h with
  | .legacy .., h => exact h
  | .vex .., h => exact (Bool.and_eq_true_iff.mp h).1
  | .evex .., h => exact (Bool.and_eq_true_iff.mp h).1

theorem lead_inMode_of_admitted {m : Mode} {i : Instr} (h : i.admitted m = true) :
    ∀ p ∈ i.shape.lead, p.inMode m := by
  obtain ⟨hreal, h32⟩ := Instr.admitted_iff.mp h
  intro p hp
  cases m with
  | mode64 => exact p.inMode_mode64
  | mode32 => exact LeadByte.inMode_of_in32 (Shape.lead_in32 (h32 rfl) p hp)
  | realAddress => exact absurd rfl hreal

/-! ## The lead bytes of a run -/

/-- The first bytes of a form after its lead bytes are none of those in any mode. -/
theorem leadByte_escape (m : Mode) {b : Byte} (h : b ∈ [0x0F#8, 0xC5#8, 0xC4#8, 0x62#8]) :
    leadByte? m b = none := by
  simp only [List.mem_cons, List.not_mem_nil, or_false] at h
  rcases h with rfl | rfl | rfl | rfl <;> cases m <;> rfl

theorem decode_of_ne_realAddress {m : Mode} (h : m ≠ .realAddress) (bs : List Byte) :
    decode m bs = decodeBody m (scanLead m bs).1 (scanLead m bs).2 := by
  cases m with
  | realAddress => exact absurd rfl h
  | _ => rfl

theorem decode_lead_append {m : Mode} (hm : m ≠ .realAddress) {lead : List LeadByte}
    (hl : ∀ p ∈ lead, p.inMode m) {b : Byte} (hb : leadByte? m b = none) (t : List Byte) :
    decode m (lead.map LeadByte.byte ++ b :: t) = decodeBody m lead (b :: t) := by
  rw [decode_of_ne_realAddress hm, scanLead_append hl hb]

/-- The bytes of a form after its lead bytes (30_encoding.md R93). -/
def Shape.body : Shape → List Byte
  | .legacy _ l _ reg rm => 0x0F#8 :: l.opcode :: rm.bytes reg
  | .vex wide l _ v reg rm => v.bytes wide ++ l.opcode :: rm.bytes reg
  | .evex vl l _ e reg rm => e.bytes vl ++ l.opcode :: rm.bytes reg

theorem Shape.encode_eq (sh : Shape) : sh.encode = sh.lead.map LeadByte.byte ++ sh.body := by
  cases sh <;> rfl

theorem Shape.body_eq_cons (sh : Shape) :
    ∃ b t, sh.body = b :: t ∧ b ∈ [0x0F#8, 0xC5#8, 0xC4#8, 0x62#8] := by
  match sh with
  | .legacy .. => exact ⟨_, _, rfl, by simp⟩
  | .vex _ _ _ (.two ..) .. => exact ⟨_, _, rfl, by simp⟩
  | .vex _ _ _ (.three ..) .. => exact ⟨_, _, rfl, by simp⟩
  | .evex .. => exact ⟨_, _, rfl, by simp⟩

/-- The decoder strips exactly the lead bytes of an encoding that the mode admits. -/
theorem decode_encode_append {m : Mode} {i : Instr} (h : i.admitted m = true) (rest : List Byte) :
    decode m (encode i ++ rest) = decodeBody m i.shape.lead (i.shape.body ++ rest) := by
  obtain ⟨b, t, hbody, hb⟩ := i.shape.body_eq_cons
  rw [encode, Shape.encode_eq, List.append_assoc, hbody, List.cons_append]
  exact decode_lead_append (Instr.admitted_iff.mp h).1 (lead_inMode_of_admitted h)
    (leadByte_escape m hb) _

/-! ## The bytes of a header and their fields -/

/-- The last byte of either VEX spelling (30_encoding.md R100, R101): a bit, `vvvv`, `L` and `pp`. -/
theorem vexLast_fields (w wide : Bool) (vvvv : BitVec 4) :
    let b : Byte := BitVec.ofBool w ++ ~~~vvvv ++ BitVec.ofBool wide ++ 1#2
    b.getLsbD 7 = w ∧ ~~~(b.extractLsb' 3 4) = vvvv ∧ b.getLsbD 2 = wide ∧ b.extractLsb' 0 2 = 1#2 ∧
      (w = true → vvvv.getLsbD 3 = false → b.extractLsb' 6 2 = 3#2) := by
  revert w wide vvvv
  decide +kernel

theorem vexThree_fields (r x b : Bool) :
    let b1 : Byte := BitVec.ofBool (!r) ++ BitVec.ofBool (!x) ++ BitVec.ofBool (!b) ++ 1#5
    (!b1.getLsbD 7) = r ∧ (!b1.getLsbD 6) = x ∧ (!b1.getLsbD 5) = b ∧ b1.extractLsb' 0 5 = 1#5 ∧
      (r = false → x = false → b1.extractLsb' 6 2 = 3#2) := by
  revert r x b
  decide +kernel

theorem evexP0_fields (r x b rHi : Bool) :
    let p0 : Byte := BitVec.ofBool (!r) ++ BitVec.ofBool (!x) ++ BitVec.ofBool (!b) ++
      BitVec.ofBool (!rHi) ++ 1#4
    (!p0.getLsbD 7) = r ∧ (!p0.getLsbD 6) = x ∧ (!p0.getLsbD 5) = b ∧ (!p0.getLsbD 4) = rHi ∧
      p0.extractLsb' 2 2 = 0#2 ∧ p0.extractLsb' 0 2 = 1#2 ∧
      (r = false → x = false → p0.extractLsb' 6 2 = 3#2) := by
  revert r x b rHi
  decide +kernel

theorem evexP1_fields (w : Bool) (vvvv : BitVec 4) :
    let p1 : Byte := BitVec.ofBool w ++ ~~~vvvv ++ 5#3
    p1.getLsbD 7 = w ∧ ~~~(p1.extractLsb' 3 4) = vvvv ∧ p1.getLsbD 2 = true ∧
      p1.extractLsb' 0 2 = 1#2 := by
  revert w vvvv
  decide +kernel

theorem evexP2_fields (z bcst vHi : Bool) (ll : BitVec 2) (aaa : BitVec 3) :
    let p2 : Byte := BitVec.ofBool z ++ ll ++ BitVec.ofBool bcst ++ BitVec.ofBool (!vHi) ++ aaa
    p2.getLsbD 7 = z ∧ p2.extractLsb' 5 2 = ll ∧ p2.getLsbD 4 = bcst ∧ (!p2.getLsbD 3) = vHi ∧
      p2.extractLsb' 0 3 = aaa := by
  revert z bcst vHi ll aaa
  decide +kernel

/-- Two one bits at the top of the byte after `C4`, `C5` or `62` make it a header in every mode
(30_encoding.md R118). -/
theorem otherIn32_eq_false {m : Mode} {b : Byte} (h : m = .mode32 → b.extractLsb' 6 2 = 3#2) :
    otherIn32 m b = false := by
  cases m with
  | mode32 => simp [otherIn32, h rfl]
  | _ => rfl

@[simp] theorem otherIn32_mode64 (b : Byte) : otherIn32 .mode64 b = false := rfl

@[simp] theorem vecLen_ll (vl : VecLen) : vecLen? vl.ll = some vl := by cases vl <;> rfl

/-! ## The decoder on a header -/

section
variable (m : Mode) (lead : List LeadByte) (t : List Byte)

theorem decodeBody_0F : decodeBody m lead (0x0F#8 :: t) = decodeLegacy m lead t := rfl

theorem decodeBody_C5 : decodeBody m lead (0xC5#8 :: t) = decodeVex2 m lead t := rfl

theorem decodeBody_C4 : decodeBody m lead (0xC4#8 :: t) = decodeVex3 m lead t := rfl

theorem decodeBody_62 : decodeBody m lead (0x62#8 :: t) = decodeEvex m lead t := rfl

end

/-- The register bits of a VEX header that 32-bit mode admits (30_encoding.md R118). -/
theorem vexBits_of_mode32Ok {wide : Bool} {l : Lane} {lead : List LeadByte} {v : Vex} {reg : BitVec 3}
    {rm : RmOperand} (h : (Shape.vex wide l lead v reg rm).mode32Ok = true) :
    match v with
    | .two r vvvv => r = false ∧ vvvv.getLsbD 3 = false
    | .three r x _ _ _ => r = false ∧ x = false := by
  obtain ⟨-, h⟩ := Bool.and_eq_true_iff.mp h
  cases v with
  | two r vvvv => simpa using h
  | three r x b w vvvv =>
    simp only [Bool.and_eq_true, Bool.not_eq_true'] at h
    exact h.1.1

/-- The register bits of an EVEX header that 32-bit mode admits (30_encoding.md R118). -/
theorem evexBits_of_mode32Ok {vl : VecLen} {l : Lane} {lead : List LeadByte} {e : Evex} {reg : BitVec 3}
    {rm : RmOperand} (h : (Shape.evex vl l lead e reg rm).mode32Ok = true) :
    e.r = false ∧ e.x = false := by
  simp only [Shape.mode32Ok, Bool.and_eq_true, Bool.not_eq_true'] at h
  exact h.2.1.1.1.1

/-- Both spellings of a VEX header are read back (30_encoding.md R100 to R102). -/
theorem decodeBody_vex {m : Mode} {wide : Bool} {l : Lane} {lead : List LeadByte} {v : Vex} {reg : BitVec 3}
    {rm : RmOperand} (h : m = .mode32 → (Shape.vex wide l lead v reg rm).mode32Ok = true)
    (rest : List Byte) :
    decodeBody m lead ((Shape.vex wide l lead v reg rm).body ++ rest) =
      decodeVex m lead v wide true l.opcode (rm.bytes reg ++ rest) := by
  cases v with
  | two r vvvv =>
    have hbits hm := vexBits_of_mode32Ok (h hm)
    obtain ⟨hr, hvvvv, hl, hpp, htop⟩ := vexLast_fields (!r) wide vvvv
    have hother := otherIn32_eq_false fun hm => htop (congrArg not (hbits hm).1) (hbits hm).2
    simp only [Shape.body, Vex.bytes, List.cons_append, List.nil_append, decodeBody_C5, decodeVex2,
      hother, hr, hvvvv, hl, hpp, decide_true, Bool.not_not, Bool.false_eq_true, if_false]
  | three r x b w vvvv =>
    have hbits hm := vexBits_of_mode32Ok (h hm)
    obtain ⟨hr, hx, hb, hmap, htop⟩ := vexThree_fields r x b
    obtain ⟨hw, hvvvv, hl, hpp, -⟩ := vexLast_fields w wide vvvv
    have hother := otherIn32_eq_false fun hm => htop (hbits hm).1 (hbits hm).2
    simp only [Shape.body, Vex.bytes, List.cons_append, List.nil_append, decodeBody_C4, decodeVex3,
      hother, hr, hx, hb, hmap, hw, hvvvv, hl, hpp, and_self, decide_true, Bool.false_eq_true, if_false]

/-- An EVEX header is read back (30_encoding.md R105, R106). -/
theorem decodeBody_evex {m : Mode} {vl : VecLen} {l : Lane} {lead : List LeadByte} {e : Evex}
    {reg : BitVec 3} {rm : RmOperand}
    (h : m = .mode32 → (Shape.evex vl l lead e reg rm).mode32Ok = true) (rest : List Byte) :
    decodeBody m lead ((Shape.evex vl l lead e reg rm).body ++ rest) =
      if lead.all LeadByte.beforeVex then decodeEvexFields m lead vl.ll l e (rm.bytes reg ++ rest)
      else .ud := by
  obtain ⟨hr, hx, hb, hrHi, hres, hmap, htop⟩ := evexP0_fields e.r e.x e.b e.rHi
  obtain ⟨hw, hvvvv, hone, hpp⟩ := evexP1_fields e.w e.vvvv
  obtain ⟨hz, hll, hbcst, hvHi, haaa⟩ := evexP2_fields e.z e.bcst e.vHi vl.ll e.aaa
  have hother := otherIn32_eq_false fun hm =>
    htop (evexBits_of_mode32Ok (h hm)).1 (evexBits_of_mode32Ok (h hm)).2
  simp only [Shape.body, Evex.bytes, List.cons_append, List.nil_append, decodeBody_62, decodeEvex,
    hother, hr, hx, hb, hrHi, hres, hmap, hw, hvvvv, hone, hpp, hz, hll, hbcst, hvHi, haaa, lane_opcode, ne_eq,
    not_true_eq_false, or_self, Bool.false_eq_true, if_false, ite_not]

end Sys2Proof
end

