-- ==== Sys2Proof/Proofs/DecodeOfEncode.lean ====
section
/-!
Decoding what the encoder writes (30_encoding.md R93 to R114, R118): for a well-formed instruction that the mode
admits, the verdict is that of the length limit alone.
-/
namespace Sys2Proof

/-! ## Well-formedness by class -/

section
variable {l : Lane} {lead : List LeadByte} {reg : BitVec 3} {rm : RmOperand}

theorem wellFormed_legacy_iff {wide : Bool} :
    (Shape.legacy wide l lead reg rm).wellFormed = true ↔
      hasOpSize lead = wide ∧ lead.any LeadByte.forbidden = false ∧ rm.wellFormed = true := by
  simp [Shape.wellFormed, and_assoc]

theorem wellFormed_vex_iff {wide : Bool} {v : Vex} :
    (Shape.vex wide l lead v reg rm).wellFormed = true ↔
      lead.all LeadByte.beforeVex = true ∧ rm.wellFormed = true := by
  rw [Shape.wellFormed, Bool.and_eq_true]

theorem evexBitsOk_iff {e : Evex} :
    Machine.evexBitsOk l lead e rm = true ↔
      lead.all LeadByte.beforeVex = true ∧ e.wOk l = true ∧ e.maskOk = true ∧ e.nbOk l = true ∧
        (e.bcst = true → rm.isMem = true) := by
  have implies : (!e.bcst || rm.isMem) = true ↔ (e.bcst = true → rm.isMem = true) := by
    cases e.bcst <;> simp
  simp only [Machine.evexBitsOk, Bool.and_eq_true, implies, and_assoc]

theorem wellFormed_evex_iff {vl : VecLen} {e : Evex} :
    (Shape.evex vl l lead e reg rm).wellFormed = true ↔
      lead.all LeadByte.beforeVex = true ∧ e.wOk l = true ∧ e.maskOk = true ∧ e.nbOk l = true ∧
        (e.bcst = true → rm.isMem = true) ∧ rm.wellFormed = true := by
  have bits : (Shape.evex vl l lead e reg rm).wellFormed = (Machine.evexBitsOk l lead e rm && rm.wellFormed) :=
    rfl
  simp only [bits, Bool.and_eq_true, evexBitsOk_iff, and_assoc]

end

theorem hasAddrSize_eq_false_of_in32 {lead : List LeadByte} (h : ∀ p ∈ lead, p.in32 = true) :
    hasAddrSize lead = false := by
  refine List.any_eq_false.mpr fun p hp => ?_
  have hin := h p hp
  cases p with
  | addrSize => cases hin
  | _ => simp

/-! ## Each class, after its lead bytes -/

section
variable {m : Mode} {l : Lane} {lead : List LeadByte} {reg : BitVec 3} {rm : RmOperand}

theorem decodeLegacy_encoded {wide : Bool} (hwf : (Shape.legacy wide l lead reg rm).wellFormed = true)
    (h32 : m = .mode32 → (Shape.legacy wide l lead reg rm).mode32Ok = true) (rest : List Byte) :
    decodeLegacy m lead (l.opcode :: (rm.bytes reg ++ rest)) =
      (Shape.legacy wide l lead reg rm).finish rest := by
  obtain ⟨hwide, hforbidden, hrm⟩ := wellFormed_legacy_iff.mp hwf
  have hsize : ¬ (m = .mode32 ∧ hasAddrSize lead = true) := fun ⟨hm, ha⟩ =>
    Bool.false_ne_true ((hasAddrSize_eq_false_of_in32 (Shape.lead_in32 (h32 hm))).symm.trans ha)
  simp only [decodeLegacy, lane_opcode, if_neg hsize, hforbidden, Bool.false_eq_true, if_false,
    parseModRm_bytes reg hrm, hwide]

theorem decodeVex_encoded {wide : Bool} {v : Vex} (hwf : (Shape.vex wide l lead v reg rm).wellFormed = true)
    (h32 : m = .mode32 → (Shape.vex wide l lead v reg rm).mode32Ok = true) (rest : List Byte) :
    decodeVex m lead v wide true l.opcode (rm.bytes reg ++ rest) =
      (Shape.vex wide l lead v reg rm).finish rest := by
  obtain ⟨hlead, hrm⟩ := wellFormed_vex_iff.mp hwf
  have hadmits : ¬ (m = .mode32 ∧ ¬ (Shape.vex wide l lead v 0#3 (.reg 0#3)).mode32Ok = true) :=
    fun ⟨hm, hn⟩ => hn (h32 hm)
  simp only [decodeVex, hlead, not_true_eq_false, if_false, lane_opcode, if_neg hadmits,
    parseModRm_bytes reg hrm]

theorem decodeEvexFields_encoded {vl : VecLen} {e : Evex}
    (hwf : (Shape.evex vl l lead e reg rm).wellFormed = true)
    (h32 : m = .mode32 → (Shape.evex vl l lead e reg rm).mode32Ok = true) (rest : List Byte) :
    decodeEvexFields m lead vl.ll l e (rm.bytes reg ++ rest) =
      (Shape.evex vl l lead e reg rm).finish rest := by
  obtain ⟨-, hw, hmask, hnb, hbcst, hrm⟩ := wellFormed_evex_iff.mp hwf
  have hadmits : ¬ (m = .mode32 ∧ ¬ (Shape.evex .vl128 l lead e 0#3 (.reg 0#3)).mode32Ok = true) :=
    fun ⟨hm, hn⟩ => hn (h32 hm)
  have hmem : ¬ (e.bcst = true ∧ ¬ rm.isMem = true) := fun ⟨hb, hn⟩ => hn (hbcst hb)
  simp only [decodeEvexFields, if_neg hadmits, vecLen_ll, hw, hmask, hnb, not_true_eq_false, if_false,
    parseModRm_bytes reg hrm, if_neg hmem]

end

theorem decodeBody_encoded {m : Mode} {sh : Shape} (hwf : sh.wellFormed = true)
    (h32 : m = .mode32 → sh.mode32Ok = true) (rest : List Byte) :
    decodeBody m sh.lead (sh.body ++ rest) = sh.finish rest := by
  match sh, hwf, h32 with
  | .legacy .., hwf, h32 => exact decodeLegacy_encoded hwf h32 rest
  | .vex .., hwf, h32 => exact (decodeBody_vex h32 rest).trans (decodeVex_encoded hwf h32 rest)
  | .evex .., hwf, h32 =>
    exact (decodeBody_evex h32 rest).trans
      ((if_pos (wellFormed_evex_iff.mp hwf).1).trans (decodeEvexFields_encoded hwf h32 rest))

/-- The verdict on the encoding of a well-formed instruction that the mode admits: a form, or too long. -/
theorem decode_encode {m : Mode} {i : Instr} (hwf : i.wellFormed = true) (hadm : i.admitted m = true)
    (rest : List Byte) : decode m (encode i ++ rest) = i.shape.finish rest := by
  rw [decode_encode_append hadm]
  exact decodeBody_encoded hwf (Instr.admitted_iff.mp hadm).2 rest

theorem finish_of_fits {i : Instr} (h : i.fits = true) (rest : List Byte) :
    i.shape.finish rest = .form i rest := by
  rw [Shape.finish, if_pos (of_decide_eq_true h : i.shape.length ≤ maxLength), instr_shape]

theorem finish_of_too_long {sh : Shape} (h : maxLength < sh.length) (rest : List Byte) :
    sh.finish rest = .tooLong := if_neg (Nat.not_le.mpr h)

/-- Settles O1: 64-bit mode admits every instruction. -/
theorem decodeOfEncodeMode64 : Obligations.DecodeOfEncodeMode64 := by
  unfold Obligations.DecodeOfEncodeMode64
  intro i rest hwf hfits
  rw [decode_encode hwf rfl, finish_of_fits hfits]

/-- Settles O2, by the same lemma. -/
theorem decodeOfEncodeMode32 : Obligations.DecodeOfEncodeMode32 := by
  unfold Obligations.DecodeOfEncodeMode32
  intro i rest hwf hfits hadm
  rw [decode_encode hwf hadm, finish_of_fits hfits]

end Sys2Proof
end

