-- ==== Sys2Proof/Proofs/EncodingOfDecode.lean ====
section
/-!
What decodes to an instruction (30_encoding.md R114, R118, R125): the bytes read are its encoding, it is well-formed,
not too long and admitted by the mode. Each part of the decoder that can answer a form is shown to answer such a one.
-/
namespace Sys2Proof

/-- If the verdict on `bs` is a form, it is one that the mode admits, whose encoding and the bytes after it are
`bs`. -/
def Decoded.Faithful (m : Mode) (bs : List Byte) (d : Decoded) : Prop :=
  ∀ i rest, d = .form i rest →
    bs = encode i ++ rest ∧ i.wellFormed = true ∧ i.fits = true ∧ i.admitted m = true

section
variable {m : Mode} {bs : List Byte}

theorem Decoded.faithful_ud : Decoded.ud.Faithful m bs := fun _ _ h => by cases h

theorem Decoded.faithful_notAForm : Decoded.notAForm.Faithful m bs := fun _ _ h => by cases h

theorem Decoded.faithful_mode32Encoding : Decoded.mode32Encoding.Faithful m bs := fun _ _ h => by cases h

theorem Decoded.faithful_outOfBytes : Decoded.outOfBytes.Faithful m bs := fun _ _ h => by cases h

theorem Decoded.Faithful.ite {c : Prop} [Decidable c] {x y : Decoded} (hx : c → x.Faithful m bs)
    (hy : ¬ c → y.Faithful m bs) : (if c then x else y).Faithful m bs := by
  split
  · next hc => exact hx hc
  · next hc => exact hy hc

theorem Decoded.Faithful.unless {c : Prop} [Decidable c] {x y : Decoded} (hx : x.Faithful m bs)
    (hy : ¬ c → y.Faithful m bs) : (if c then x else y).Faithful m bs :=
  .ite (fun _ => hx) hy

theorem Shape.finish_faithful {sh : Shape} {rest : List Byte} (hm : m ≠ .realAddress)
    (h32 : m = .mode32 → sh.mode32Ok = true) (hwf : sh.wellFormed = true)
    (hbs : bs = sh.encode ++ rest) : (sh.finish rest).Faithful m bs := by
  intro i rest' h
  unfold Shape.finish at h
  split at h
  · next hlen =>
    obtain ⟨rfl, rfl⟩ := Decoded.form.inj h
    refine ⟨?bytes, ?wf, ?fits, ?admitted⟩
    case bytes => rw [encode_instr, hbs]
    case wf => rw [wellFormed_instr, hwf]
    case fits => exact decide_eq_true (by rwa [length_instr])
    case admitted => exact Instr.admitted_iff.mpr ⟨hm, by rwa [shape_instr]⟩
  · cases h

end

/-! ## A byte is built from its fields -/

theorem vexLast_of_fields (b : Byte) (hpp : b.extractLsb' 0 2 = 1#2) :
    BitVec.ofBool (b.getLsbD 7) ++ ~~~~~~(b.extractLsb' 3 4) ++ BitVec.ofBool (b.getLsbD 2) ++ 1#2 = b := by
  revert b
  decide +kernel

theorem vexThree_of_fields (b : Byte) (hmap : b.extractLsb' 0 5 = 1#5) :
    BitVec.ofBool (b.getLsbD 7) ++ BitVec.ofBool (b.getLsbD 6) ++ BitVec.ofBool (b.getLsbD 5) ++ 1#5 = b := by
  revert b
  decide +kernel

theorem evexP0_of_fields (p0 : Byte) (hres : p0.extractLsb' 2 2 = 0#2) (hmap : p0.extractLsb' 0 2 = 1#2) :
    BitVec.ofBool (p0.getLsbD 7) ++ BitVec.ofBool (p0.getLsbD 6) ++ BitVec.ofBool (p0.getLsbD 5) ++
      BitVec.ofBool (p0.getLsbD 4) ++ 1#4 = p0 := by
  revert p0
  decide +kernel

theorem evexP1_of_fields (p1 : Byte) (hone : p1.getLsbD 2 = true) (hpp : p1.extractLsb' 0 2 = 1#2) :
    BitVec.ofBool (p1.getLsbD 7) ++ ~~~~~~(p1.extractLsb' 3 4) ++ 5#3 = p1 := by
  revert p1
  decide +kernel

theorem evexP2_of_fields (p2 : Byte) :
    BitVec.ofBool (p2.getLsbD 7) ++ p2.extractLsb' 5 2 ++ BitVec.ofBool (p2.getLsbD 4) ++
      BitVec.ofBool (p2.getLsbD 3) ++ p2.extractLsb' 0 3 = p2 := by
  revert p2
  decide +kernel

theorem ll_of_vecLen {ll : BitVec 2} {vl : VecLen} (h : vecLen? ll = some vl) : ll = vl.ll := by
  revert ll
  cases vl <;> decide

/-! ## Each encoding, after its lead bytes -/

theorem LeadByte.in32_of_inMode {p : LeadByte} (h : p.inMode .mode32) (hne : p ≠ .addrSize) :
    p.in32 = true := by
  cases p with
  | rex w r x b => cases h
  | addrSize => exact absurd rfl hne
  | _ => rfl

theorem lead_in32_of_inMode {lead : List LeadByte} (h : ∀ p ∈ lead, p.inMode .mode32)
    (hsize : hasAddrSize lead = false) : lead.all LeadByte.in32 = true :=
  List.all_eq_true.mpr fun p hp => LeadByte.in32_of_inMode (h p hp) fun heq =>
    List.any_eq_false.mp hsize p hp (decide_eq_true heq)

section
variable {m : Mode} {lead : List LeadByte}

theorem decodeLegacy_faithful (hm : m ≠ .realAddress) (hl : ∀ p ∈ lead, p.inMode m) (t : List Byte) :
    (decodeLegacy m lead t).Faithful m (lead.map LeadByte.byte ++ 0x0F#8 :: t) := by
  rcases t with _ | ⟨op, t⟩
  · exact Decoded.faithful_outOfBytes
  simp only [decodeLegacy]
  rcases hop : lane? op with _ | l
  · exact Decoded.faithful_notAForm
  obtain rfl := opcode_of_lane hop
  refine .unless Decoded.faithful_mode32Encoding fun hsize => .unless Decoded.faithful_ud fun hforbidden => ?_
  rcases hp : parseModRm t with _ | ⟨reg, rm, rest⟩
  · exact Decoded.faithful_outOfBytes
  obtain ⟨rfl, hrm⟩ := bytes_of_parseModRm hp
  refine Shape.finish_faithful hm (fun h32 => ?admitted)
    (wellFormed_legacy_iff.mpr ⟨rfl, Bool.eq_false_of_not_eq_true hforbidden, hrm⟩) ?bytes
  case admitted =>
    exact lead_in32_of_inMode (h32 ▸ hl) (Bool.eq_false_of_not_eq_true fun ha => hsize ⟨h32, ha⟩)
  case bytes => simp [Shape.encode]

theorem decodeVex_faithful {v : Vex} {wide mapOk : Bool} {op : Byte} {t bs : List Byte}
    (hm : m ≠ .realAddress)
    (hbs : mapOk = true → bs = lead.map LeadByte.byte ++ (v.bytes wide ++ op :: t)) :
    (decodeVex m lead v wide mapOk op t).Faithful m bs := by
  unfold decodeVex
  refine .unless Decoded.faithful_ud fun hlead => .unless Decoded.faithful_notAForm fun hmap => ?_
  rcases hop : lane? op with _ | l
  · exact Decoded.faithful_notAForm
  obtain rfl := opcode_of_lane hop
  refine .unless Decoded.faithful_mode32Encoding fun hadmits => ?_
  rcases hp : parseModRm t with _ | ⟨reg, rm, rest⟩
  · exact Decoded.faithful_outOfBytes
  obtain ⟨rfl, hrm⟩ := bytes_of_parseModRm hp
  refine Shape.finish_faithful hm (fun h32 => by_contra fun hn => hadmits ⟨h32, hn⟩)
    (wellFormed_vex_iff.mpr ⟨not_not.mp hlead, hrm⟩) ?bytes
  case bytes => simp [hbs (not_not.mp hmap), Shape.encode]

theorem decodeVex2_faithful (hm : m ≠ .realAddress) (t : List Byte) :
    (decodeVex2 m lead t).Faithful m (lead.map LeadByte.byte ++ 0xC5#8 :: t) := by
  match t with
  | [] | [_] => exact Decoded.faithful_outOfBytes
  | b1 :: op :: t =>
    refine .unless Decoded.faithful_notAForm fun _ => decodeVex_faithful hm fun hpp => ?_
    have last := vexLast_of_fields b1 (of_decide_eq_true hpp)
    simp only [Vex.bytes, Bool.not_not, last, List.cons_append, List.nil_append]

theorem decodeVex3_faithful (hm : m ≠ .realAddress) (t : List Byte) :
    (decodeVex3 m lead t).Faithful m (lead.map LeadByte.byte ++ 0xC4#8 :: t) := by
  match t with
  | [] | [_] | [_, _] => exact Decoded.faithful_outOfBytes
  | b1 :: b2 :: op :: t =>
    refine .unless Decoded.faithful_notAForm fun _ => decodeVex_faithful hm fun hmapOk => ?_
    obtain ⟨hmap, hpp⟩ := of_decide_eq_true hmapOk
    simp only [Vex.bytes, Bool.not_not, vexThree_of_fields b1 hmap, vexLast_of_fields b2 hpp, List.cons_append,
      List.nil_append]

theorem decodeEvexFields_faithful {ll : BitVec 2} {l : Lane} {e : Evex} {t bs : List Byte}
    (hm : m ≠ .realAddress) (hlead : lead.all LeadByte.beforeVex = true)
    (hbs : ∀ vl : VecLen, ll = vl.ll → bs = lead.map LeadByte.byte ++ (e.bytes vl ++ l.opcode :: t)) :
    (decodeEvexFields m lead ll l e t).Faithful m bs := by
  unfold decodeEvexFields
  refine .unless Decoded.faithful_mode32Encoding fun hadmits => ?_
  rcases hll : vecLen? ll with _ | vl
  · exact Decoded.faithful_ud
  refine .unless Decoded.faithful_ud fun hw => .unless Decoded.faithful_ud fun hmask =>
    .unless Decoded.faithful_ud fun hnb => ?_
  rcases hp : parseModRm t with _ | ⟨reg, rm, rest⟩
  · exact Decoded.faithful_outOfBytes
  obtain ⟨rfl, hrm⟩ := bytes_of_parseModRm hp
  refine .unless Decoded.faithful_ud fun hbcst =>
    Shape.finish_faithful hm (fun h32 => by_contra fun hn => hadmits ⟨h32, hn⟩)
      (wellFormed_evex_iff.mpr ⟨hlead, not_not.mp hw, not_not.mp hmask, not_not.mp hnb,
        fun hb => by_contra fun hn => hbcst ⟨hb, hn⟩, hrm⟩) ?bytes
  case bytes => simp [hbs vl (ll_of_vecLen hll), Shape.encode]

theorem decodeEvex_faithful (hm : m ≠ .realAddress) (t : List Byte) :
    (decodeEvex m lead t).Faithful m (lead.map LeadByte.byte ++ 0x62#8 :: t) := by
  match t with
  | [] | [_] | [_, _] | [_, _, _] => exact Decoded.faithful_outOfBytes
  | p0 :: p1 :: p2 :: op :: t =>
    refine .unless Decoded.faithful_notAForm fun _ => .unless Decoded.faithful_ud fun hlead =>
      .unless Decoded.faithful_ud fun hres => .unless Decoded.faithful_notAForm fun hmap => ?_
    rcases hop : lane? op with _ | l
    · exact Decoded.faithful_notAForm
    obtain rfl := opcode_of_lane hop
    simp only [not_or, not_not, ne_eq] at hres hmap
    refine decodeEvexFields_faithful hm (not_not.mp hlead) fun vl hll => ?_
    simp only [Evex.bytes, Bool.not_not, ← hll, evexP0_of_fields p0 hres.1 hmap.1,
      evexP1_of_fields p1 hres.2 hmap.2, evexP2_of_fields p2, List.cons_append, List.nil_append]

/-! ## The whole run -/

theorem decodeBody_faithful (hm : m ≠ .realAddress) (hl : ∀ p ∈ lead, p.inMode m) (t : List Byte) :
    (decodeBody m lead t).Faithful m (lead.map LeadByte.byte ++ t) := by
  rcases t with _ | ⟨b, t⟩
  · exact Decoded.faithful_outOfBytes
  exact .ite (fun hb => hb ▸ decodeLegacy_faithful hm hl t) fun _ =>
    .ite (fun hb => hb ▸ decodeVex2_faithful hm t) fun _ =>
    .ite (fun hb => hb ▸ decodeVex3_faithful hm t) fun _ =>
    .ite (fun hb => hb ▸ decodeEvex_faithful hm t) fun _ => Decoded.faithful_notAForm

end

theorem decode_faithful (m : Mode) (bs : List Byte) : (decode m bs).Faithful m bs := by
  by_cases hm : m = .realAddress
  · subst hm
    exact Decoded.faithful_notAForm
  · obtain ⟨hbs, hl⟩ := scanLead_spec m bs
    have body := decodeBody_faithful hm hl (scanLead m bs).2
    rwa [← hbs, ← decode_of_ne_realAddress hm] at body

/-- Settles O3: `decode_faithful`, and `rows_of_instr` for the row. -/
theorem decodeGivesTheEncoding : Obligations.DecodeGivesTheEncoding := by
  unfold Obligations.DecodeGivesTheEncoding
  intro m bs i rest h
  obtain ⟨hbs, hwf, hfits, hadm⟩ := decode_faithful m bs i rest h
  exact ⟨hbs, hwf, hfits, hadm, Laws.rows_of_instr hwf⟩

end Sys2Proof
end

