-- ==== Sys2Proof/Proofs/InstructionBits.lean ====
section
/-!
What an instruction's own bytes raise (60_exceptions.md R223, R232 step 1): #UD from its bits, then #GP(0) beyond 15
bytes (30_encoding.md R113), from `exec` in every state and from a step that fetches its bytes.
-/
namespace Sys2Proof.Machine

open Sys2Proof Sys2Proof.Laws

/-! ## The step on a verdict -/

theorem stepRefusal_eq_none {s : State} (h : s.Runnable) : s.stepRefusal = none := by
  obtain ⟨hreal, hvm, htf, hend, hrip⟩ := h
  simp [State.stepRefusal, hreal, hvm, htf, hend, hrip]

theorem step_of_runnable {s : State} (h : s.Runnable) :
    step s = runDecoded exec s (decode s.mode s.fetch) := by
  rw [step, runStep, stepRefusal_eq_none h]

theorem stepRefusal_at_end {s : State} (hreal : s.mode ≠ .realAddress) (hvm : s.virtual8086 = false)
    (htf : s.eflagsTf = false) (hend : s.runEnd = some s.ip.toNat) :
    s.stepRefusal = some .runCompleted := by
  simp [State.stepRefusal, hreal, hvm, htf, hend]

/-- Settles O15: `runDecoded` verdict by verdict, and the refusal at the end address. -/
theorem stepOnOtherVerdicts : Obligations.StepOnOtherVerdicts := by
  unfold Obligations.StepOnOtherVerdicts
  intro s
  refine ⟨fun hrun => ?verdicts, fun hreal hvm htf hend => ?atEnd⟩
  case verdicts =>
    have verdict {d : Decoded} (hd : decode s.mode s.fetch = d) : step s = runDecoded exec s d :=
      hd ▸ step_of_runnable hrun
    exact ⟨verdict, verdict, verdict, verdict, verdict⟩
  case atEnd => rw [step, runStep, stepRefusal_at_end hreal hvm htf hend]

/-! ## The first two checks of every class -/

theorem shapeChecks_eq_cons (sh : Shape) (s : State) :
    ∃ later, shapeChecks sh s =
      firstException ((!sh.bitsOk, .ud) :: (decide (maxLength < sh.length), .gp) :: later) := by
  match sh with
  | .legacy false .. | .legacy true .. | .vex .. | .evex .. => exact ⟨_, rfl⟩

theorem exec_of_bits_not_ok {i : Instr} (h : i.shape.bitsOk = false) (s : State) :
    exec i s = .fault (.ud s.rip) := by
  obtain ⟨later, hchecks⟩ := shapeChecks_eq_cons i.shape s
  rw [exec_eq_execShape]
  exact execShape_raise (x := .ud) (by simp [hchecks, h])

theorem exec_of_too_long {i : Instr} (hbits : i.shape.bitsOk = true) (hlen : maxLength < i.shape.length)
    (s : State) : exec i s = .fault (.gp s.rip) := by
  obtain ⟨later, hchecks⟩ := shapeChecks_eq_cons i.shape s
  rw [exec_eq_execShape]
  exact execShape_raise (x := .gp) (by simp [hchecks, hbits, hlen])

theorem bitsOk_of_wellFormed {sh : Shape} (h : sh.wellFormed = true) : sh.bitsOk = true := by
  match sh, h with
  | .legacy .., h =>
    obtain ⟨-, hforbidden, -⟩ := wellFormed_legacy_iff.mp h
    exact congrArg not hforbidden
  | .vex .., h => exact (wellFormed_vex_iff.mp h).1
  | .evex .., h => exact (Bool.and_eq_true_iff.mp h).1

/-! ## Too long -/

theorem step_of_too_long {i : Instr} {s : State} {rest : List Byte} (hwf : i.wellFormed = true)
    (hlen : maxLength < i.shape.length) (hrun : s.Runnable) (hadm : i.admitted s.mode = true)
    (hfetch : s.fetch = encode i ++ rest) : step s = .fault (.gp s.rip) := by
  rw [step_of_runnable hrun, hfetch, decode_encode hwf hadm, finish_of_too_long hlen]
  rfl

/-- Settles O11: the second check of every class, and the decoder's length limit. -/
theorem tooLongRaisesGp : Obligations.TooLongRaisesGp := by
  unfold Obligations.TooLongRaisesGp
  intro i s rest hwf hlong
  have hlen : maxLength < i.shape.length := by rwa [encode, shape_encode_length] at hlong
  exact ⟨exec_of_too_long (bitsOk_of_wellFormed hwf) hlen s, step_of_too_long hwf hlen⟩

/-! ## Lead bytes before VEX and EVEX -/

theorem beforeVex_eq_false {p : LeadByte} (hsize : p ≠ .addrSize) (hseg : ∀ g, p ≠ .seg g) :
    p.beforeVex = false := by
  cases p with
  | addrSize => exact absurd rfl hsize
  | seg g => exact absurd rfl (hseg g)
  | _ => rfl

theorem bitsOk_eq_false_of_lead {sh : Shape} (hcls : sh.cls = .vex ∨ sh.cls = .evex)
    (hlead : sh.lead.all LeadByte.beforeVex = false) : sh.bitsOk = false := by
  match sh, hcls, hlead with
  | .legacy false .., hcls, _ | .legacy true .., hcls, _ => rcases hcls with hcls | hcls <;> cases hcls
  | .vex .., _, hlead => exact hlead
  | .evex .., _, hlead =>
    exact Bool.eq_false_of_not_eq_true fun hok => Bool.eq_false_iff.mp hlead (evexBitsOk_iff.mp hok).1

/-- The verdict on a header after a lead byte that may not precede it (30_encoding.md R104, R110). -/
theorem decodeBody_of_lead {m : Mode} {sh : Shape} (hcls : sh.cls = .vex ∨ sh.cls = .evex)
    (h32 : m = .mode32 → sh.mode32Ok = true) (hlead : sh.lead.all LeadByte.beforeVex = false)
    (rest : List Byte) : decodeBody m sh.lead (sh.body ++ rest) = .ud := by
  have hnot : ¬ sh.lead.all LeadByte.beforeVex = true := Bool.eq_false_iff.mp hlead
  match sh, hcls, h32, hnot with
  | .legacy false .., hcls, _, _ | .legacy true .., hcls, _, _ => rcases hcls with hcls | hcls <;> cases hcls
  | .vex .., _, h32, hnot => exact (decodeBody_vex h32 rest).trans (if_pos hnot)
  | .evex .., _, h32, hnot => exact (decodeBody_evex h32 rest).trans (if_neg hnot)

/-- Settles O7: the first check of both classes, and the decoder's verdict on the header. -/
theorem onlyOverridesBeforeVexEvex : Obligations.OnlyOverridesBeforeVexEvex := by
  unfold Obligations.OnlyOverridesBeforeVexEvex
  intro i s rest hcls ⟨p, hp, hsize, hseg⟩
  have hlead : i.shape.lead.all LeadByte.beforeVex = false :=
    List.all_eq_false.mpr ⟨p, hp, by simp [beforeVex_eq_false hsize hseg]⟩
  refine ⟨exec_of_bits_not_ok (bitsOk_eq_false_of_lead hcls hlead) s, fun hrun hadm hfetch => ?step⟩
  case step =>
    rw [step_of_runnable hrun, hfetch, decode_encode_append hadm,
      decodeBody_of_lead hcls (Instr.admitted_iff.mp hadm).2 hlead]
    rfl

end Sys2Proof.Machine
end

