-- ==== Sys2Proof/Proofs/OtherVerdicts.lean ====
section
/-!
Bytes that 64-bit mode does not read as a form (30_encoding.md R97, R105 to R112, R116): #UD for a forbidden
lead byte and for ill-fitting fields, refused for another map, `pp` or opcode byte.
-/
namespace Sys2Proof

/-! ## After the lead bytes, in 64-bit mode -/

theorem decode64_lead_append (lead : List LeadByte) {b : Byte} (hb : leadByte? .mode64 b = none)
    (t : List Byte) :
    decode .mode64 (lead.map LeadByte.byte ++ b :: t) = decodeBody .mode64 lead (b :: t) :=
  decode_lead_append (by decide) (fun p _ => p.inMode_mode64) hb t

section
variable (lead : List LeadByte) (t : List Byte)

theorem decode64_0F :
    decode .mode64 (lead.map LeadByte.byte ++ 0x0F#8 :: t) = decodeLegacy .mode64 lead t :=
  decode64_lead_append lead rfl t

theorem decode64_C5 :
    decode .mode64 (lead.map LeadByte.byte ++ 0xC5#8 :: t) = decodeVex2 .mode64 lead t :=
  decode64_lead_append lead rfl t

theorem decode64_C4 :
    decode .mode64 (lead.map LeadByte.byte ++ 0xC4#8 :: t) = decodeVex3 .mode64 lead t :=
  decode64_lead_append lead rfl t

theorem decode64_62 :
    decode .mode64 (lead.map LeadByte.byte ++ 0x62#8 :: t) = decodeEvex .mode64 lead t :=
  decode64_lead_append lead rfl t

end

theorem lane_eq_none {op : Byte} (h : ∀ l : Lane, op ≠ l.opcode) : lane? op = none :=
  Option.eq_none_iff_forall_ne_some.mpr fun l hl => h l (opcode_of_lane hl)

theorem leadByte_eq_none {m : Mode} {b : Byte} (h : ∀ p : LeadByte, b ≠ p.byte) : leadByte? m b = none :=
  Option.eq_none_iff_forall_ne_some.mpr fun p hp => h p (byte_of_leadByte hp).1.symm

/-! ## Legacy forms -/

theorem any_forbidden_iff {lead : List LeadByte} :
    lead.any LeadByte.forbidden = true ↔
      LeadByte.lock ∈ lead ∨ LeadByte.repne ∈ lead ∨ LeadByte.rep ∈ lead := by
  have forbidden_iff (p : LeadByte) : p.forbidden = true ↔ p = .lock ∨ p = .repne ∨ p = .rep := by
    cases p <;> simp [LeadByte.forbidden]
  simp only [List.any_eq_true, forbidden_iff, and_or_left, exists_or, exists_eq_right]

theorem hasOpSize_iff {lead : List LeadByte} : hasOpSize lead = true ↔ LeadByte.opSize ∈ lead := by
  simp [hasOpSize]

theorem decodeLegacy_forbidden {lead : List LeadByte} (h : lead.any LeadByte.forbidden = true) (l : Lane)
    (t : List Byte) : decodeLegacy .mode64 lead (l.opcode :: t) = .ud := by
  simp [decodeLegacy, h]

/-- Settles O5: a forbidden byte decides before ModRM; else the form that `66` picks is well-formed, and is
decoded from its encoding. -/
theorem legacyFormSelection : Obligations.LegacyFormSelection := by
  unfold Obligations.LegacyFormSelection
  intro l lead reg rm rest hrm hlen
  rw [decode64_0F]
  split
  · next hforbidden => exact decodeLegacy_forbidden (any_forbidden_iff.mpr hforbidden) l _
  · next hforbidden =>
    have form (wide : Bool) (hwide : hasOpSize lead = wide) :
        decodeLegacy .mode64 lead (l.opcode :: (rm.bytes reg ++ rest)) =
          .form (Shape.legacy wide l lead reg rm).instr rest := by
      have hwf : (Shape.legacy wide l lead reg rm).wellFormed = true := wellFormed_legacy_iff.mpr
        ⟨hwide, Bool.eq_false_iff.mpr (mt any_forbidden_iff.mp hforbidden), hrm⟩
      rw [decodeLegacy_encoded hwf (fun h => by cases h)]
      exact if_pos hlen
    split
    · next hsize => exact form true (hasOpSize_iff.mpr hsize)
    · next hsize => exact form false (Bool.eq_false_iff.mpr (mt hasOpSize_iff.mp hsize))

/-! ## EVEX fields -/

/-- The fields of an EVEX header that no row fixes, from its three bytes (30_encoding.md R105). -/
def evexOfHeader (p0 p1 p2 : Byte) : Evex :=
  { r := !p0.getLsbD 7, x := !p0.getLsbD 6, b := !p0.getLsbD 5, rHi := !p0.getLsbD 4,
    w := p1.getLsbD 7, vvvv := ~~~(p1.extractLsb' 3 4),
    z := p2.getLsbD 7, bcst := p2.getLsbD 4, vHi := !p2.getLsbD 3, aaa := p2.extractLsb' 0 3 }

section
variable {lead : List LeadByte} {p0 p1 p2 op : Byte} {t : List Byte}

/-- A wrong reserved bit is #UD (30_encoding.md R105). -/
theorem decodeEvex_reserved (h : p0.extractLsb' 2 2 ≠ 0#2 ∨ p1.getLsbD 2 = false) :
    decodeEvex .mode64 lead (p0 :: p1 :: p2 :: op :: t) = .ud := by
  have hres : p0.extractLsb' 2 2 ≠ 0#2 ∨ ¬ p1.getLsbD 2 = true := h.imp_right Bool.eq_false_iff.mp
  simp only [decodeEvex, otherIn32_mode64, Bool.false_eq_true, if_false, if_pos hres, ite_self]

/-- With map, `pp` and opcode of a row, the verdict is #UD or that of the fields. -/
theorem decodeEvex_row {l : Lane} (hmap : p0.extractLsb' 0 2 = 1#2) (hpp : p1.extractLsb' 0 2 = 1#2) :
    decodeEvex .mode64 lead (p0 :: p1 :: p2 :: l.opcode :: t) = .ud ∨
      decodeEvex .mode64 lead (p0 :: p1 :: p2 :: l.opcode :: t) =
        decodeEvexFields .mode64 lead (p2.extractLsb' 5 2) l (evexOfHeader p0 p1 p2) t := by
  simp only [decodeEvex, otherIn32_mode64, Bool.false_eq_true, if_false, hmap, hpp, ne_eq, not_true_eq_false,
    or_self, lane_opcode]
  split
  · exact .inl rfl
  · split
    · exact .inl rfl
    · exact .inr rfl

/-- Another map, `pp` or opcode byte is another instruction (30_encoding.md R116). -/
theorem decodeEvex_other (hlead : lead.all LeadByte.beforeVex = true) (hres : p0.extractLsb' 2 2 = 0#2)
    (hone : p1.getLsbD 2 = true)
    (h : p0.extractLsb' 0 2 ≠ 1#2 ∨ p1.extractLsb' 0 2 ≠ 1#2 ∨ ∀ l : Lane, op ≠ l.opcode) :
    decodeEvex .mode64 lead (p0 :: p1 :: p2 :: op :: t) = .notAForm := by
  simp only [decodeEvex, otherIn32_mode64, hlead, hres, hone, Bool.false_eq_true, ne_eq, not_true_eq_false,
    or_self, if_false]
  split
  · rfl
  · next hmap =>
    rw [← or_assoc] at h
    rw [lane_eq_none (h.resolve_left hmap)]

end

/-- The fields that make an EVEX form #UD once its row is known (30_encoding.md R106, R108, R109, R112). -/
theorem decodeEvexFields_ud {lead : List LeadByte} {ll : BitVec 2} {l : Lane} {e : Evex} {t : List Byte}
    (h : ll = 3#2 ∨ e.wOk l = false ∨ e.maskOk = false ∨ e.nbOk l = false ∨
      (e.bcst = true ∧ ∃ reg f rest, parseModRm t = some (reg, .reg f, rest))) :
    decodeEvexFields .mode64 lead ll l e t = .ud := by
  have hmode : ¬ (Mode.mode64 = .mode32 ∧ ¬ (Shape.evex .vl128 l lead e 0#3 (.reg 0#3)).mode32Ok = true) :=
    fun hm => by cases hm.1
  rw [decodeEvexFields, if_neg hmode]
  rcases hll : vecLen? ll with _ | vl
  · rfl
  rcases h with rfl | hw | hmask | hnb | ⟨hb, reg, f, rest, hp⟩
  · cases hll
  · simp [hw]
  · simp [hmask]
  · simp [hnb]
  · simp [hp, hb, RmOperand.isMem]

theorem parseModRm_reg {mb : Byte} (h : mb.extractLsb' 6 2 = 3#2) (t : List Byte) :
    parseModRm (mb :: t) = some (mb.extractLsb' 3 3, .reg (mb.extractLsb' 0 3), t) := by
  simp [parseModRm, h]

/-! ## VEX fields -/

section
variable {lead : List LeadByte} {b1 b2 op : Byte} {t : List Byte}

/-- Another map, `pp` or opcode byte is another instruction (30_encoding.md R116). -/
theorem decodeVex_other {m : Mode} {v : Vex} {wide mapOk : Bool} (hlead : lead.all LeadByte.beforeVex = true)
    (h : mapOk = false ∨ ∀ l : Lane, op ≠ l.opcode) :
    decodeVex m lead v wide mapOk op t = .notAForm := by
  simp only [decodeVex, hlead, not_true_eq_false, if_false]
  split
  · rfl
  · next hmap => rw [lane_eq_none (h.resolve_left fun hf => hmap (Bool.eq_false_iff.mp hf))]

theorem decodeVex2_other (hlead : lead.all LeadByte.beforeVex = true)
    (h : b1.extractLsb' 0 2 ≠ 1#2 ∨ ∀ l : Lane, op ≠ l.opcode) :
    decodeVex2 .mode64 lead (b1 :: op :: t) = .notAForm :=
  decodeVex_other hlead (h.imp_left decide_eq_false)

theorem decodeVex3_other (hlead : lead.all LeadByte.beforeVex = true)
    (h : b1.extractLsb' 0 5 ≠ 1#5 ∨ b2.extractLsb' 0 2 ≠ 1#2 ∨ ∀ l : Lane, op ≠ l.opcode) :
    decodeVex3 .mode64 lead (b1 :: b2 :: op :: t) = .notAForm :=
  decodeVex_other hlead ((or_assoc.mpr h).imp_left fun hn => decide_eq_false (not_and_or.mpr hn))

end

theorem decodeLegacy_other {m : Mode} {lead : List LeadByte} {op : Byte} (h : ∀ l : Lane, op ≠ l.opcode)
    (t : List Byte) : decodeLegacy m lead (op :: t) = .notAForm := by
  simp only [decodeLegacy, lane_eq_none h]

theorem decodeBody_other {m : Mode} {lead : List LeadByte} {b : Byte}
    (h : b ∉ [0x0F#8, 0xC5#8, 0xC4#8, 0x62#8]) (t : List Byte) :
    decodeBody m lead (b :: t) = .notAForm := by
  simp only [List.mem_cons, List.not_mem_nil, or_false, not_or] at h
  obtain ⟨h0F, hC5, hC4, h62⟩ := h
  simp only [decodeBody, h0F, hC5, hC4, h62, if_false]

/-- The alternatives of R116's EVEX rows are those of `decodeEvexFields_ud`, in terms of the header's bytes. -/
theorem evexFields_of_header {p0 p1 p2 : Byte} {l : Lane} {t : List Byte}
    (h : p2.extractLsb' 5 2 = 3#2 ∨ (l = .dword ∧ p1.getLsbD 7 = true) ∨
      (l = .qword ∧ p1.getLsbD 7 = false) ∨ (p2.getLsbD 7 = true ∧ p2.extractLsb' 0 3 = 0#3) ∨
      ((l = .byte ∨ l = .word) ∧ p2.getLsbD 4 = true) ∨
      (p2.getLsbD 4 = true ∧ ∃ mb t', t = mb :: t' ∧ mb.extractLsb' 6 2 = 3#2)) :
    let e := evexOfHeader p0 p1 p2
    p2.extractLsb' 5 2 = 3#2 ∨ e.wOk l = false ∨ e.maskOk = false ∨ e.nbOk l = false ∨
      (e.bcst = true ∧ ∃ reg f rest, parseModRm t = some (reg, .reg f, rest)) := by
  rcases h with hll | ⟨rfl, hw⟩ | ⟨rfl, hw⟩ | ⟨hz, haaa⟩ | ⟨hl, hb⟩ | ⟨hb, mb, t', rfl, hmod⟩
  · exact .inl hll
  · exact .inr (.inl (congrArg not hw))
  · exact .inr (.inl hw)
  · refine .inr (.inr (.inl ?_))
    rw [Evex.maskOk, evexOfHeader, hz, haaa]
    rfl
  · refine .inr (.inr (.inr (.inl ?_)))
    rcases hl with rfl | rfl <;> exact congrArg not hb
  · exact .inr (.inr (.inr (.inr ⟨hb, _, _, _, parseModRm_reg hmod t'⟩)))

/-- Settles O9, clause by clause: reserved bits, the fields of a row, and another instruction in a legacy run, after
the two VEX escapes, after `62`, and at any other first byte. -/
theorem evexReservedFieldsAreUd : Obligations.EvexReservedFieldsAreUd := by
  unfold Obligations.EvexReservedFieldsAreUd
  intro lead p0 p1 p2 op rest
  refine ⟨fun hres => ?reserved, fun l hop hmap hpp hfields => ?fields, fun hop => ?legacy,
    fun hlead => ⟨fun h => ?vex2, fun h => ?vex3, fun hres hone h => ?evex⟩, fun hnone hfirst => ?first⟩
  case reserved => rw [decode64_62, decodeEvex_reserved hres]
  case fields =>
    rw [decode64_62, hop]
    rcases decodeEvex_row (l := l) hmap hpp with hud | hrow
    · exact hud
    · exact hrow.trans (decodeEvexFields_ud (evexFields_of_header hfields))
  case legacy => rw [decode64_0F, decodeLegacy_other hop]
  case vex2 => rw [decode64_C5, decodeVex2_other hlead h]
  case vex3 => rw [decode64_C4, decodeVex3_other hlead h]
  case evex => rw [decode64_62, decodeEvex_other hlead hres hone h]
  case first => rw [decode64_lead_append lead (leadByte_eq_none hnone), decodeBody_other hfirst]

end Sys2Proof
end

