-- ==== Sys2Proof/Proofs/EqualForms.lean ====
section
/-!
Spellings and encodings that mean the same (30_encoding.md R100, R112, R115; 43_vpadd_evex.md R193): another `W`,
the two VEX spellings, an EVEX form without a writemask and the VEX form.
-/
namespace Sys2Proof.Machine

open Sys2Proof

theorem exec_instr (sh : Shape) (s : State) : exec sh.instr s = execShape sh s := by
  rw [exec_eq_execShape, shape_instr]

/-! ## The `W` bit (30_encoding.md R112) -/

theorem execShape_vex_w (wide : Bool) (l : Lane) (lead : List LeadByte) (r x b w w' : Bool) (vvvv : BitVec 4)
    (reg : BitVec 3) (rm : RmOperand) (s : State) :
    execShape (.vex wide l lead (.three r x b w vvvv) reg rm) s =
      execShape (.vex wide l lead (.three r x b w' vvvv) reg rm) s := by
  cases wide <;> rfl

theorem execShape_evex_w {l : Lane} (hl : l = .byte ∨ l = .word) (vl : VecLen) (lead : List LeadByte) (e : Evex)
    (w' : Bool) (reg : BitVec 3) (rm : RmOperand) (s : State) :
    execShape (.evex vl l lead e reg rm) s = execShape (.evex vl l lead { e with w := w' } reg rm) s := by
  rcases hl with rfl | rfl
  · cases vl <;> rfl
  · cases vl <;> rfl

theorem wOk_eq_false {l : Lane} {e : Evex} (h : (l = .dword ∧ e.w = true) ∨ (l = .qword ∧ e.w = false)) :
    e.wOk l = false := by
  rcases h with ⟨rfl, hw⟩ | ⟨rfl, hw⟩
  · exact congrArg not hw
  · exact hw

theorem bitsOk_eq_false_of_w {vl : VecLen} {l : Lane} {lead : List LeadByte} {e : Evex} {reg : BitVec 3}
    {rm : RmOperand} (h : e.wOk l = false) : (Shape.evex vl l lead e reg rm).bitsOk = false :=
  Bool.eq_false_of_not_eq_true fun hok => Bool.eq_false_iff.mp h (evexBitsOk_iff.mp hok).2.1

theorem decode_encode_of_w {vl : VecLen} {l : Lane} {lead : List LeadByte} {e : Evex} {reg : BitVec 3}
    {rm : RmOperand} (h : e.wOk l = false) (rest : List Byte) :
    decode .mode64 (encode (Shape.evex vl l lead e reg rm).instr ++ rest) = .ud := by
  rw [decode_encode_append rfl, shape_instr, Shape.lead, decodeBody_evex (fun hm => by cases hm)]
  split
  · exact decodeEvexFields_ud (.inr (.inl h))
  · rfl

/-- Settles O10: `W` takes part in no meaning, only in the check `Evex.wOk`. -/
theorem wBit : Obligations.WBit := by
  unfold Obligations.WBit
  intro s lead reg rm
  refine ⟨fun wide l r x b w w' vvvv => ?vex, fun vl l e w' hl => ?evex,
    fun vl l e rest h => ⟨?exec, ?decode⟩⟩
  case vex => rw [exec_instr, exec_instr, execShape_vex_w]
  case evex => rw [exec_instr, exec_instr, execShape_evex_w hl]
  case exec => exact exec_of_bits_not_ok (by rw [shape_instr, bitsOk_eq_false_of_w (wOk_eq_false h)]) s
  case decode => exact decode_encode_of_w (wOk_eq_false h) rest

/-! ## The two VEX spellings (30_encoding.md R100) -/

theorem low32_add_low32 (a b : Addr) : low32 (low32 a + b) = low32 (a + b) := by
  apply BitVec.eq_of_toNat_eq
  simp only [low32_toNat, BitVec.toNat_add]
  omega

theorem addAddr_addAddr (m : Mode) (a b c : Addr) :
    addAddr m (addAddr m a b) c = addAddr m a (b + c) := by
  cases m with
  | mode64 => exact BitVec.add_assoc a b c
  | mode32 => exact (low32_add_low32 _ _).trans (congrArg low32 (BitVec.add_assoc a b c))
  | realAddress => exact (low32_add_low32 _ _).trans (congrArg low32 (BitVec.add_assoc a b c))

/-- `rip` moved one byte further on. -/
def State.ripSucc (m : Mode) (s : State) : State := { s with rip := addAddr m s.rip 1#64 }

theorem advance_succ (s : State) (len : Nat) : s.advance (len + 1) = (s.advance len).ripSucc s.mode := by
  have rip : addAddr s.mode s.rip (BitVec.ofNat 64 (len + 1)) =
      addAddr s.mode (addAddr s.mode s.rip (BitVec.ofNat 64 len)) 1#64 := by
    rw [addAddr_addAddr, BitVec.ofNat_add]
  rw [State.advance, rip]
  rfl

/-- Only an operand relative to `rip` depends on the length of its instruction. -/
theorem access_length_congr {m : MemOperand} (h : ∀ d, m ≠ .relative d) (s : State) (lead : List LeadByte)
    (ext : Ext) (len len' n size : Nat) (aligned16 : Bool) (ac : AcRule) :
    s.access lead ext len n size aligned16 ac m = s.access lead ext len' n size aligned16 ac m := by
  cases m with
  | relative d => exact absurd rfl (h d)
  | _ => rfl

theorem vexChecks_of_fits {len : Nat} (h : len ≤ maxLength) (ok available : Bool) (s : State) :
    vexChecks ok len available s = vexChecks ok 0 available s := by
  simp [vexChecks, Nat.not_lt.mpr h]

section
variable {lead : List LeadByte} {r : Bool} {vvvv : BitVec 4} {rm : RmOperand}

theorem vexSource_three (h : ∀ d, rm ≠ .mem (.relative d)) (n : Nat) (s : State) :
    s.vexSource n lead (.three r false false false vvvv) rm = s.vexSource n lead (.two r vvvv) rm := by
  cases rm with
  | reg f => rfl
  | mem m =>
    have same := access_length_congr (m := m) (fun d hd => h d (congrArg RmOperand.mem hd)) s lead
      (vexExt (.two r vvvv)) (vexLength lead (.three r false false false vvvv) (.mem m))
      (vexLength lead (.two r vvvv) (.mem m)) 1 (n / 8) false .never
    exact congrArg (memRead s) same

theorem vexLength_three :
    vexLength lead (.three r false false false vvvv) rm = vexLength lead (.two r vvvv) rm + 1 := by
  simp only [vexLength]
  omega

theorem vexEffect_three (w n : Nat) (reg : BitVec 3) (s : State) (v2 : BitVec n) :
    s.vexEffect w n lead (.three r false false false vvvv) reg rm v2 =
      (s.vexEffect w n lead (.two r vvvv) reg rm v2).ripSucc s.mode := by
  rw [State.vexEffect, vexLength_three, advance_succ]
  rfl

theorem execVex_three (hrel : ∀ d, rm ≠ .mem (.relative d))
    (hfits : vexLength lead (.three r false false false vvvv) rm ≤ maxLength) (w n : Nat) (available : Bool)
    (reg : BitVec 3) (s : State) :
    execVex w n available lead (.three r false false false vvvv) reg rm s =
      mapNext (State.ripSucc s.mode) (execVex w n available lead (.two r vvvv) reg rm s) := by
  have hfits' : vexLength lead (.two r vvvv) rm ≤ maxLength :=
    (Nat.le_succ _).trans (vexLength_three.symm.trans_le hfits)
  rw [execVex, execVex, vexChecks_of_fits hfits, vexChecks_of_fits hfits', vexSource_three hrel]
  exact perform_mapNext rfl (vexEffect_three w n reg s)

end

/-- Settles O13, by `execVex_three` at either width. -/
theorem twoByteVexIsThreeByteVex : Obligations.TwoByteVexIsThreeByteVex := by
  unfold Obligations.TwoByteVexIsThreeByteVex
  intro wide l lead r vvvv reg rm s hrel hfits
  rw [exec_instr, exec_instr]
  cases wide with
  | false => exact execVex_three hrel hfits _ _ _ reg s
  | true => exact execVex_three hrel hfits _ _ _ reg s

/-! ## EVEX without a writemask (30_encoding.md R115, 43_vpadd_evex.md R193) -/

theorem maskMerge_none_addLanes {w n : Nat} (z : Bool) (old a b : BitVec n) :
    maskMerge w (n / w) none z old (addLanes w (n / w) a b) = addLanes w (n / w) a b :=
  ofLanes_congr fun _ hj => (if_pos rfl).trans (lane_addLanes a b hj (Nat.mul_div_le n w))

/-- The fields of an EVEX header that say what a VEX header says: registers 0 to 15, no writemask. -/
structure EvexMatchesVex (e : Evex) (v : Vex) : Prop where
  r : e.r = (vexExt v).r
  b : e.b = (vexExt v).b
  x : e.x = false
  rHi : e.rHi = false
  vHi : e.vHi = false
  vvvv : e.vvvv = vexVvvv v
  aaa : e.aaa = 0#3

section
variable {e : Evex} {v : Vex} (h : EvexMatchesVex e v)
include h

theorem evexDest_of_matches (reg : BitVec 3) : evexDest e reg = vexDest v reg := by
  rw [evexDest, vexDest, h.rHi, h.r]

theorem evexSrc1_of_matches : evexSrc1 e = vexSrc1 v := by
  rw [evexSrc1, vexSrc1, h.vHi, h.vvvv]

theorem evexSource_reg_of_matches (s : State) (w n : Nat) (lead : List LeadByte) (f : BitVec 3) :
    s.evexSource w n lead e (.reg f) = s.vexSource n lead v (.reg f) := by
  rw [State.evexSource, State.vexSource, h.x, h.b]

theorem evexValue_of_matches (s : State) (w n : Nat) (reg : BitVec 3) (v2 : BitVec n) :
    s.evexValue w n e reg v2 = addLanes w (n / w) (s.vecLow n (vexSrc1 v)) v2 := by
  have nomask : s.writemask e.aaa = none := if_pos h.aaa
  rw [State.evexValue, nomask, evexSrc1_of_matches h, maskMerge_none_addLanes]

theorem evexEffect_zmm_of_matches (s : State) (w n : Nat) (lead : List LeadByte) (reg : BitVec 3)
    (rm : RmOperand) (v2 : BitVec n) :
    (s.evexEffect w n lead e reg rm v2).zmm = (s.vexEffect w n lead v reg rm v2).zmm := by
  simp only [State.evexEffect, State.vexEffect, State.advance_zmm, State.countChoice_zmm,
    State.writeVecZero_zmm, evexDest_of_matches h, evexValue_of_matches h]

/-- Two effects on register operands of one width, one source value each, leave the same vector registers. -/
theorem zmm_eq_of_matches {s t u : State} {w n : Nat} {lead : List LeadByte} {reg f : BitVec 3}
    (ht : ∃ v2, s.vexSource n lead v (.reg f) = .ok v2 ∧ t = s.vexEffect w n lead v reg (.reg f) v2)
    (hu : ∃ v2, s.evexSource w n lead e (.reg f) = .ok v2 ∧ u = s.evexEffect w n lead e reg (.reg f) v2) :
    u.zmm = t.zmm := by
  obtain ⟨v2, hv2, rfl⟩ := ht
  obtain ⟨v2', hv2', rfl⟩ := hu
  obtain rfl : v2' = v2 :=
    Except.ok.inj (hv2'.symm.trans ((evexSource_reg_of_matches h s w n lead f).trans hv2))
  exact evexEffect_zmm_of_matches h s w n lead reg (.reg f) v2'

end

/-- Settles O57, by `zmm_eq_of_matches` at either width. -/
theorem unmaskedEvexIsVex : Obligations.UnmaskedEvexIsVex := by
  unfold Obligations.UnmaskedEvexIsVex
  intro s t u wide l lead v e reg f hr hb hx hrHi hvHi hvvvv haaa ht hu
  have hmatch : EvexMatchesVex e v := ⟨hr, hb, hx, hrHi, hvHi, hvvvv, haaa⟩
  obtain ⟨-, ht⟩ := exec_next ht
  obtain ⟨-, hu⟩ := exec_next hu
  rw [shape_instr] at ht hu
  cases wide with
  | false => exact zmm_eq_of_matches hmatch ht hu
  | true => exact zmm_eq_of_matches hmatch ht hu

end Sys2Proof.Machine
end

