-- ==== Sys2Proof/Proofs/RegisterFields.lean ====
section
/-!
How register numbers are made of fields and extension bits (30_encoding.md R96, R100, R101, R103, R105, R107).
-/
namespace Sys2Proof.Machine

open Sys2Proof

@[simp] theorem vecNum_val (hi2 hi : Bool) (f : BitVec 3) :
    (vecNum hi2 hi f).val = 16 * hi2.toNat + 8 * hi.toNat + f.toNat := rfl

@[simp] theorem vvvvNum_val (hi2 : Bool) (f : BitVec 4) :
    (vvvvNum hi2 f).val = 16 * hi2.toNat + f.toNat := rfl

theorem rexExt_append_rex (lead : List LeadByte) (w r x b : Bool) :
    rexExt (lead ++ [.rex w r x b]) = { r := r, x := x, b := b } := by
  rw [rexExt, List.getLast?_concat]

/-- A REX byte that another lead byte follows is ignored (30_encoding.md R96, log 17). -/
theorem rexExt_append_of_not_rex (lead : List LeadByte) {p : LeadByte} (h : ∀ w r x b, p ≠ .rex w r x b) :
    rexExt (lead ++ [p]) = { r := false, x := false, b := false } := by
  rw [rexExt, List.getLast?_concat]
  cases p with
  | rex w r x b => exact absurd rfl (h w r x b)
  | _ => rfl

/-- Settles O12: the extension bits of each header, and the numbers they make. -/
theorem registerNumbers : Obligations.RegisterNumbers := by
  unfold Obligations.RegisterNumbers
  refine ⟨fun lead w r x b reg f => ?rex, fun lead p h => rexExt_append_of_not_rex lead h, fun reg => ?plain,
    fun r x b w vvvv reg f => ?vex, fun e reg => ⟨rfl, rfl, rfl, rfl⟩⟩
  case rex => simp [sseDest, rexExt_append_rex]
  case plain => simp [sseDest, rexExt, mmNum]
  case vex => simp [vexDest, vexSrc1, vexExt, vexVvvv]

end Sys2Proof.Machine
end

