-- ==== Sys2Proof/Proofs/AddressSums.lean ====
section
/-!
The effective address of each operand form (30_encoding.md R98, R99, R111, R118): the sum of R98, in 32-bit mode and
under `67` taken in 32 bits, and the scale of a one-byte displacement.
-/
namespace Sys2Proof.Machine

open Sys2Proof

/-! ## Terms of the sum, and their low 32 bits -/

theorem setWidth_signExtend_of_le {w u v : Nat} (x : BitVec w) (h : u ≤ v) :
    (x.signExtend v).setWidth u = x.signExtend u := by
  ext i hi
  simp [BitVec.getElem_signExtend, Nat.lt_of_lt_of_le hi h]

theorem twoPow_eq_ofNat (w i : Nat) : BitVec.twoPow w i = BitVec.ofNat w (2 ^ i) :=
  BitVec.eq_of_toNat_eq (by rw [BitVec.toNat_twoPow, BitVec.toNat_ofNat])

theorem value_noDisp (n : Nat) : Disp.value n .noDisp = 0#64 := rfl

theorem value_disp8 (n : Nat) (d : BitVec 8) :
    Disp.value n (.disp8 d) = d.signExtend 64 * BitVec.ofNat 64 n := rfl

theorem value_disp32 (n : Nat) (d : BitVec 32) : Disp.value n (.disp32 d) = d.signExtend 64 := rfl

theorem setWidth32_add (a b : Addr) : (a + b).setWidth 32 = a.setWidth 32 + b.setWidth 32 :=
  BitVec.setWidth_add a b (by decide)

theorem setWidth32_mul_ofNat (a : Addr) (n : Nat) :
    (a * BitVec.ofNat 64 n).setWidth 32 = a.setWidth 32 * BitVec.ofNat 32 n := by
  rw [BitVec.setWidth_mul _ _ (by decide), BitVec.setWidth_ofNat_of_le (by decide)]

theorem setWidth32_signExtend (d : BitVec 32) : (d.signExtend 64).setWidth 32 = d := by
  rw [setWidth_signExtend_of_le d (by decide), BitVec.signExtend_eq]

theorem setWidth32_disp8 (n : Nat) (d : BitVec 8) :
    (Disp.value n (.disp8 d)).setWidth 32 = d.signExtend 32 * BitVec.ofNat 32 n := by
  rw [value_disp8, setWidth32_mul_ofNat, setWidth_signExtend_of_le d (by decide)]

/-- A scaled index is a product (30_encoding.md R98). -/
theorem indexTerm_eq_mul (s : State) (x : Bool) (sc : BitVec 2) (ix : BitVec 3) :
    s.indexTerm x sc ix = if (gprNum x ix).val = 4 then 0#64
      else s.gpr[gprNum x ix] * BitVec.ofNat 64 (2 ^ sc.toNat) := by
  have four : gprNum x ix = 4 ↔ (gprNum x ix).val = 4 := Fin.ext_iff
  simp only [State.indexTerm, four, BitVec.shiftLeft_eq_mul_twoPow, twoPow_eq_ofNat]

theorem setWidth32_indexTerm (s : State) (x : Bool) (sc : BitVec 2) (ix : BitVec 3) :
    (s.indexTerm x sc ix).setWidth 32 = if (gprNum x ix).val = 4 then 0#32
      else (s.gpr[gprNum x ix]).setWidth 32 * BitVec.ofNat 32 (2 ^ sc.toNat) := by
  rw [indexTerm_eq_mul]
  split
  · rfl
  · exact setWidth32_mul_ofNat _ _

/-! ## The sum of each operand form (30_encoding.md R98) -/

section
variable (s : State) (ext : Ext) (len n : Nat)

theorem addressSum_base (rm : BitVec 3) (d : Disp) :
    s.addressSum ext len n (.base rm d) = s.gpr[gprNum ext.b rm] + Disp.value n d := rfl

theorem addressSum_sib (sc : BitVec 2) (ix bs : BitVec 3) (d : Disp) :
    s.addressSum ext len n (.sib sc ix bs d) =
      s.gpr[gprNum ext.b bs] + s.indexTerm ext.x sc ix + Disp.value n d := rfl

theorem addressSum_sibNoBase (sc : BitVec 2) (ix : BitVec 3) (d : BitVec 32) :
    s.addressSum ext len n (.sibNoBase sc ix d) = s.indexTerm ext.x sc ix + d.signExtend 64 := rfl

theorem addressSum_relative_mode64 {s : State} (h : s.mode = .mode64) (d : BitVec 32) :
    s.addressSum ext len n (.relative d) = s.rip + BitVec.ofNat 64 len + d.signExtend 64 := by
  simp only [State.addressSum, h]

/-- In 32-bit mode `mod = 00, rm = 101` is a plain displacement (30_encoding.md R118). -/
theorem addressSum_relative_mode32 {s : State} (h : s.mode = .mode32) (d : BitVec 32) :
    s.addressSum ext len n (.relative d) = d.signExtend 64 := by
  simp only [State.addressSum, h]

end

section
variable {s : State} {lead : List LeadByte} (ext : Ext) (len n : Nat) (m : MemOperand)

theorem effectiveAddress_wide (h : s.address32 lead = false) :
    s.effectiveAddress lead ext len n m = s.addressSum ext len n m := by
  rw [State.effectiveAddress, h]
  rfl

theorem effectiveAddress_narrow (h : s.address32 lead = true) :
    s.effectiveAddress lead ext len n m = ((s.addressSum ext len n m).setWidth 32).setWidth 64 :=
  if_pos h

end

theorem address32_mode64 {s : State} (h : s.mode = .mode64) (lead : List LeadByte) :
    s.address32 lead = hasAddrSize lead := by
  rw [State.address32, h]

theorem address32_mode32 {s : State} (h : s.mode = .mode32) (lead : List LeadByte) :
    s.address32 lead = true := by
  rw [State.address32, h]

/-- Settles O46: each sum by its own equation, in 64 bits or term by term in 32. -/
theorem effectiveAddresses : Obligations.EffectiveAddresses := by
  unfold Obligations.EffectiveAddresses
  refine ⟨fun s lead ext len n rm ix sc d8 d base index hmode hsize hbase hindex => ?wide,
    fun s lead ext len n rm ix sc d8 d base index hmode hbase hindex => ?narrow⟩
  case wide =>
    obtain rfl : base = s.gpr[gprNum ext.b rm] := hbase _ rfl
    obtain rfl : index = s.indexTerm ext.x sc ix := (hindex _ rfl).trans (indexTerm_eq_mul ..).symm
    have hwide : s.address32 lead = false := (address32_mode64 hmode lead).trans hsize
    simp only [effectiveAddress_wide _ _ _ _ hwide, addressSum_base, addressSum_sib, addressSum_sibNoBase,
      addressSum_relative_mode64 _ _ _ hmode, value_noDisp, value_disp8, value_disp32, BitVec.add_zero,
      and_self]
  case narrow =>
    obtain rfl : base = (s.gpr[gprNum ext.b rm]).setWidth 32 := hbase _ rfl
    obtain rfl : index = (s.indexTerm ext.x sc ix).setWidth 32 :=
      (hindex _ rfl).trans (setWidth32_indexTerm ..).symm
    have hnarrow : s.address32 lead = true := address32_mode32 hmode lead
    simp only [effectiveAddress_narrow _ _ _ _ hnarrow, addressSum_base, addressSum_sib, addressSum_sibNoBase,
      addressSum_relative_mode32 _ _ _ hmode, value_noDisp, value_disp32, setWidth32_add, setWidth32_disp8,
      setWidth32_signExtend, BitVec.add_zero, and_self]

/-- Settles O47: under `67` the sum is cut to 32 bits, term by term for the forms named. -/
theorem addressSizePrefix : Obligations.AddressSizePrefix := by
  unfold Obligations.AddressSizePrefix
  intro s lead ext len n rm ix sc d8 d hmode hsize
  have narrow := fun m => effectiveAddress_narrow ext len n m ((address32_mode64 hmode lead).trans hsize)
  refine ⟨?base, ?relative, ?sib, fun m plain hplain => ?any⟩
  case base => rw [narrow, addressSum_base, setWidth32_add, setWidth32_disp8]
  case relative =>
    rw [narrow, addressSum_relative_mode64 _ _ _ hmode, setWidth32_add _ (d.signExtend 64),
      setWidth32_signExtend]
  case sib =>
    rw [narrow, addressSum_sib, setWidth32_add, setWidth32_add, value_disp32, setWidth32_signExtend]
  case any =>
    rw [narrow, effectiveAddress_wide ext len n m ((address32_mode64 hmode plain).trans hplain)]

/-! ## The scale of a one-byte displacement (30_encoding.md R111) -/

/-- The scales of R111's table: no product of a byte with one of them leaves 32 bits. -/
theorem disp8_scaled {n : Nat} (hn : n ∈ [4, 8, 16, 32, 64]) (d : BitVec 8) :
    Disp.value n (.disp8 d) = Disp.value 1 (.disp32 (d.signExtend 32 * BitVec.ofNat 32 n)) := by
  rw [value_disp8, value_disp32]
  revert n d
  decide +kernel

section
variable {s : State} {lead : List LeadByte} {ext : Ext} {len n n' : Nat}

theorem effectiveAddress_congr {m m' : MemOperand}
    (h : s.addressSum ext len n m = s.addressSum ext len n' m') :
    s.effectiveAddress lead ext len n m = s.effectiveAddress lead ext len n' m' := by
  rw [State.effectiveAddress, State.effectiveAddress, h]

theorem effectiveAddress_base_congr {d d' : Disp} (h : Disp.value n d = Disp.value n' d') (rm : BitVec 3) :
    s.effectiveAddress lead ext len n (.base rm d) = s.effectiveAddress lead ext len n' (.base rm d') :=
  effectiveAddress_congr (congrArg (_ + ·) h)

theorem effectiveAddress_sib_congr {d d' : Disp} (h : Disp.value n d = Disp.value n' d') (sc : BitVec 2)
    (ix bs : BitVec 3) :
    s.effectiveAddress lead ext len n (.sib sc ix bs d) =
      s.effectiveAddress lead ext len n' (.sib sc ix bs d') :=
  effectiveAddress_congr (congrArg (_ + ·) h)

/-- Only a one-byte displacement is scaled. -/
theorem effectiveAddress_unscaled {m : MemOperand} (hbase : ∀ rm d8, m ≠ .base rm (.disp8 d8))
    (hsib : ∀ sc ix rm d8, m ≠ .sib sc ix rm (.disp8 d8)) :
    s.effectiveAddress lead ext len n m = s.effectiveAddress lead ext len n' m := by
  match m, hbase, hsib with
  | .base rm (.disp8 d8), hbase, _ => exact absurd rfl (hbase rm d8)
  | .sib sc ix bs (.disp8 d8), _, hsib => exact absurd rfl (hsib sc ix bs d8)
  | .base _ .noDisp, _, _ | .base _ (.disp32 _), _, _ | .sib _ _ _ .noDisp, _, _
  | .sib _ _ _ (.disp32 _), _, _ | .relative _, _, _ | .sibNoBase _ _ _, _, _ => rfl

end

/-- The factor `N` of R111's table, by broadcast bit, lane width and vector length. -/
def disp8Factor : Bool → Lane → VecLen → BitVec 32
  | true, .dword, _ => 4#32
  | true, _, _ => 8#32
  | false, _, .vl128 => 16#32
  | false, _, .vl256 => 32#32
  | false, _, .vl512 => 64#32

theorem dispScale_evex (vl : VecLen) (l : Lane) (lead : List LeadByte) (e : Evex) (reg : BitVec 3)
    (rm : RmOperand) :
    (Shape.evex vl l lead e reg rm).dispScale = if e.bcst then l.bits / 8 else vl.bits / 8 := rfl

/-- The table's factor is the size of the operand; the byte and word forms have no broadcast. -/
theorem disp8Factor_eq_dispScale {l : Lane} {e : Evex} (hnb : e.nbOk l = true) (vl : VecLen)
    (lead : List LeadByte) (reg : BitVec 3) (rm : RmOperand) :
    (Shape.evex vl l lead e reg rm).dispScale ∈ [4, 8, 16, 32, 64] ∧
      disp8Factor e.bcst l vl = BitVec.ofNat 32 (Shape.evex vl l lead e reg rm).dispScale := by
  rw [dispScale_evex]
  cases hb : e.bcst with
  | false => cases vl <;> exact ⟨by simp [VecLen.bits], rfl⟩
  | true =>
    cases l with
    | byte | word => simp [Evex.nbOk, hb] at hnb
    | dword | qword => exact ⟨by simp [Lane.bits], rfl⟩

/-- Settles O49: the operand's scale is that of R111's table, and a scaled byte is a four-byte displacement. -/
theorem compressedDisplacement : Obligations.CompressedDisplacement := by
  unfold Obligations.CompressedDisplacement
  intro i s a vl l lead e reg m n hwf hsh ha hn
  rw [Instr.wellFormed, hsh] at hwf
  obtain ⟨-, -, -, hnb, -, -⟩ := wellFormed_evex_iff.mp hwf
  obtain ⟨hscale, hfactor⟩ := disp8Factor_eq_dispScale hnb vl lead reg (.mem m)
  obtain rfl : n = BitVec.ofNat 32 _ := (hn : n = disp8Factor e.bcst l vl).trans hfactor
  have hlen : i.length = (Shape.evex vl l lead e reg (.mem m)).length := congrArg Shape.length hsh
  rw [Instr.access, hsh] at ha
  obtain ⟨-, hea⟩ := Shape.access_seg_ea ha rfl
  rw [hea, hlen]
  refine ⟨fun rm d8 hm => ?base, fun sc ix rm d8 hm => ?sib, effectiveAddress_unscaled⟩
  case base => exact hm ▸ effectiveAddress_base_congr (disp8_scaled hscale d8) rm
  case sib => exact hm ▸ effectiveAddress_sib_congr (disp8_scaled hscale d8) sc ix rm

end Sys2Proof.Machine
end

