-- ==== Sys2Proof/Proofs/LaneSumLaws.lean ====
section
/-!
The laws of the lane sum (40_padd_mmx.md R145): those of addition modulo `2^w`, carried over lane by lane.
-/
namespace Sys2Proof.Machine

variable {N : Nat}

theorem lane_zero (w j : Nat) : lane w 0#N j = 0#w :=
  BitVec.extractLsb'_zero

theorem addLanes_comm (w n : Nat) (a b : BitVec N) : addLanes w n a b = addLanes w n b a :=
  ofLanes_congr fun _ _ => BitVec.add_comm _ _

theorem addLanes_assoc {w n : Nat} (hN : w * n ≤ N) (a b c : BitVec N) :
    addLanes w n (addLanes w n a b) c = addLanes w n a (addLanes w n b c) :=
  ofLanes_congr fun _ hj => by rw [lane_addLanes a b hj hN, lane_addLanes b c hj hN, BitVec.add_assoc]

/-- Zero is the identity only where the lanes fill the value: the sum has nothing above them. -/
theorem addLanes_zero {w n : Nat} (hw : 0 < w) (hN : w * n = N) (a : BitVec N) :
    addLanes w n a 0#N = a :=
  eq_of_lanes hw hN.ge fun _ hj => by rw [lane_addLanes a _ hj hN.le, lane_zero, BitVec.add_zero]

/-- Settles O53: the three laws, and each lane's sum read as unsigned and as two's complement. -/
theorem addLaws : Obligations.AddLaws := by
  unfold Obligations.AddLaws
  intro w n a b c hw
  refine ⟨addLanes_comm w n a b, addLanes_assoc le_rfl a b c, addLanes_zero hw rfl a, fun j hj => ?_⟩
  rw [lane_addLanes a b hj le_rfl]
  exact ⟨BitVec.toNat_add _ _, BitVec.toInt_add _ _⟩

end Sys2Proof.Machine
end

