-- ==== Sys2Proof/Proofs/SseResult.lean ====
section
/-!
The legacy SSE forms (41_padd_sse.md R150 to R154): a form that is ready and whose source can be read completes,
with the lane sums in the low 128 bits and the bits above them as they were (10_state.md R23).
-/
namespace Sys2Proof.Machine

open Sys2Proof Sys2Proof.Laws

/-! ## The lanes among the low bits of a register -/

/-- A lane with an index below `n / w` lies among the low `n` bits. -/
theorem lane_end_le {w n j : Nat} (hj : j < n / w) : w * j + w ≤ n := calc
  w * j + w = w * (j + 1) := (Nat.mul_succ w j).symm
  _ ≤ w * (n / w) := Nat.mul_le_mul_left w hj
  _ ≤ n := Nat.mul_div_le ..

theorem lane_vecLow (s : State) (d : Fin 32) {w n j : Nat} (hj : j < n / w) :
    lane w (s.vecLow n d) j = lane w s.zmm[d] j :=
  BitVec.extractLsb'_setWidth_of_le (lane_end_le hj)

theorem lane_append_low {w n m j : Nat} (x : BitVec m) (v : BitVec n) (hj : j < n / w) :
    lane w (x ++ v) j = lane w v j :=
  BitVec.extractLsb'_append_eq_of_add_le (lane_end_le hj)

/-- The sum with a register's low `n` bits, below any upper bits, has the lane sums of the whole register
(41_padd_sse.md R150 step 4). -/
theorem lane_append_addLanes (s : State) (d : Fin 32) {w n m j : Nat} (x : BitVec m) (v : BitVec n)
    (hj : j < n / w) :
    lane w (x ++ addLanes w (n / w) (s.vecLow n d) v) j = lane w s.zmm[d] j + lane w v j := by
  rw [lane_append_low x _ hj, lane_addLanes _ _ hj (Nat.mul_div_le ..), lane_vecLow s d hj]

/-! ## Completion -/

theorem sseSource_of_sourceIs {s : State} {lead : List LeadByte} {rm : RmOperand} {v : BitVec 128}
    (h : s.SseSourceIs lead rm v) : s.sseSource lead rm = .ok v := by
  cases rm with
  | reg f => exact congrArg Except.ok h.symm
  | mem m =>
    obtain ⟨hread, hv⟩ := h
    exact hv ▸ memRead_of_readable hread

theorem exec_sse_of_ready {i : Instr} {s : State} {l : Lane} {lead : List LeadByte} {reg : BitVec 3}
    {rm : RmOperand} {v : BitVec 128} (hshape : i.shape = .legacy true l lead reg rm) (hready : i.Ready s)
    (hv : s.SseSourceIs lead rm v) : exec i s = .next (s.sseEffect l.bits lead reg rm v) := by
  have hchecks := shapeChecks_of_ready hready
  rw [hshape] at hchecks
  rw [exec_eq_execShape, hshape]
  exact perform_ok hchecks (sseSource_of_sourceIs hv)

/-- Settles O26: each of the four forms has the SSE shape of its lane width; the destination is `addLanes` of the two
sources' low 128 bits, with the old upper bits above it. -/
theorem sseFormsResult : Obligations.SseFormsResult := by
  unfold Obligations.SseFormsResult
  intro lead reg rm s v hv l i hi hready
  have hshape : i.shape = .legacy true l lead reg rm := by
    simp only [List.mem_cons, Prod.mk.injEq, List.not_mem_nil, or_false] at hi
    rcases hi with ⟨rfl, rfl⟩ | ⟨rfl, rfl⟩ | ⟨rfl, rfl⟩ | ⟨rfl, rfl⟩ <;> rfl
  have hlen : (encode i).length = legacyLength lead rm := by
    rw [encode, shape_encode_length, hshape, Shape.length]
  refine ⟨s.zmm[sseDest lead reg].extractLsb' 128 384 ++
    addLanes l.bits (128 / l.bits) (s.vecLow 128 (sseDest lead reg)) v,
    fun j hj => lane_append_addLanes s _ _ v hj, BitVec.extractLsb'_append_eq_left, ?completes⟩
  case completes =>
    rw [exec_sse_of_ready hshape hready hv, hlen]
    rfl

end Sys2Proof.Machine
end

