-- ==== Sys2Proof/Proofs/VexResult.lean ====
section
/-!
The VEX forms (42_vpadd_vex.md R160 to R168): a form that is ready and whose source can be read completes, with the
lane sums of the two sources and zero above them (10_state.md R23, 90_conflicts.md C3). The two widths share one
argument, at the width `Shape.vecBits` of the form.
-/
namespace Sys2Proof

theorem Shape.vecBits_le (sh : Shape) : sh.vecBits ≤ 512 := by
  match sh with
  | .legacy false .. => exact Nat.zero_le _
  | .legacy true .. | .vex false .. => exact VecLen.bits_le .vl128
  | .vex true .. => exact VecLen.bits_le .vl256
  | .evex vl .. => exact vl.bits_le

end Sys2Proof

namespace Sys2Proof.Machine

open Sys2Proof Sys2Proof.Laws

/-! ## The value written -/

/-- Zeroes above a value leave its lanes. -/
theorem lane_setWidth {w n N j : Nat} (v : BitVec n) (hN : n ≤ N) (hj : j < n / w) :
    lane w (v.setWidth N) j = lane w v j :=
  BitVec.extractLsb'_setWidth_of_le ((lane_end_le hj).trans hN)

theorem setWidth_toNat_lt {n N : Nat} (v : BitVec n) : (v.setWidth N).toNat < 2 ^ n := calc
  (v.setWidth N).toNat = v.toNat % 2 ^ N := BitVec.toNat_setWidth ..
  _ ≤ v.toNat := Nat.mod_le ..
  _ < 2 ^ n := v.isLt

/-- The sum with a register's low `n` bits, zero above, has the lane sums of the whole register (42_vpadd_vex.md R160
step 4). -/
theorem lane_setWidth_addLanes (s : State) (d : Fin 32) {w n N j : Nat} (v : BitVec n) (hN : n ≤ N)
    (hj : j < n / w) :
    lane w ((addLanes w (n / w) (s.vecLow n d) v).setWidth N) j = lane w s.zmm[d] j + lane w v j := by
  rw [lane_setWidth _ hN hj, lane_addLanes _ _ hj (Nat.mul_div_le ..), lane_vecLow s d hj]

/-! ## Completion -/

theorem vexSource_of_sourceIs {s : State} {n : Nat} {lead : List LeadByte} {v : Vex} {rm : RmOperand}
    {v2 : BitVec n} (h : s.VexSourceIs n lead v rm v2) : s.vexSource n lead v rm = .ok v2 := by
  cases rm with
  | reg f => exact congrArg Except.ok h.symm
  | mem m =>
    obtain ⟨hread, hv⟩ := h
    exact hv ▸ memRead_of_readable hread

theorem execShape_vex (wide : Bool) (l : Lane) (lead : List LeadByte) (v : Vex) (reg : BitVec 3)
    (rm : RmOperand) (s : State) :
    execShape (.vex wide l lead v reg rm) s =
      execVex l.bits (Shape.vex wide l lead v reg rm).vecBits
        ((Shape.vex wide l lead v reg rm).available s.cfg.features) lead v reg rm s := by
  cases wide <;> rfl

section
variable {i : Instr} {s : State} {wide : Bool} {l : Lane} {lead : List LeadByte} {v : Vex} {reg : BitVec 3}
  {rm : RmOperand} {n : Nat} {v2 : BitVec n}

theorem exec_vex_of_ready (hshape : i.shape = .vex wide l lead v reg rm)
    (hn : (Shape.vex wide l lead v reg rm).vecBits = n) (hready : i.Ready s)
    (hv : s.VexSourceIs n lead v rm v2) : exec i s = .next (s.vexEffect l.bits n lead v reg rm v2) := by
  have hchecks := shapeChecks_of_ready hready
  rw [hshape] at hchecks
  rw [exec_eq_execShape, hshape, execShape_vex, hn]
  exact perform_ok hchecks (vexSource_of_sourceIs hv)

/-- A ready form of VEX shape leaves in its destination `addLanes` of the two sources' low `n` bits, with zero above
it, and changes nothing else but `rip`. -/
theorem vex_result_of_ready (hshape : i.shape = .vex wide l lead v reg rm)
    (hn : (Shape.vex wide l lead v reg rm).vecBits = n) (hready : i.Ready s)
    (hv : s.VexSourceIs n lead v rm v2) :
    ∃ z : Vec,
      (∀ j < n / l.bits, lane l.bits z j = lane l.bits s.zmm[vexSrc1 v] j + lane l.bits v2 j) ∧
      z.toNat < 2 ^ n ∧
      exec i s = .next { s with
        zmm := s.zmm.set (vexDest v reg) z
        rip := addAddr s.mode s.rip (BitVec.ofNat 64 (encode i).length) } := by
  have hlen : (encode i).length = vexLength lead v rm := by
    rw [encode, shape_encode_length, hshape, Shape.length]
  have hn512 : n ≤ 512 := hn ▸ Shape.vecBits_le _
  refine ⟨(addLanes l.bits (n / l.bits) (s.vecLow n (vexSrc1 v)) v2).setWidth 512,
    fun j hj => lane_setWidth_addLanes s _ _ hn512 hj, setWidth_toNat_lt _, ?completes⟩
  case completes =>
    rw [exec_vex_of_ready hshape hn hready hv, hlen]
    rfl

end

/-- Settles O27: each of the four forms has the 128-bit VEX shape of its lane width. -/
theorem vex128FormsResult : Obligations.Vex128FormsResult := by
  unfold Obligations.Vex128FormsResult
  intro lead v reg rm s v2 hv l i hi hready
  have hshape : i.shape = .vex false l lead v reg rm := by
    simp only [List.mem_cons, Prod.mk.injEq, List.not_mem_nil, or_false] at hi
    rcases hi with ⟨rfl, rfl⟩ | ⟨rfl, rfl⟩ | ⟨rfl, rfl⟩ | ⟨rfl, rfl⟩ <;> rfl
  exact vex_result_of_ready hshape rfl hready hv

/-- Settles O28: each of the four forms has the 256-bit VEX shape of its lane width. -/
theorem vex256FormsResult : Obligations.Vex256FormsResult := by
  unfold Obligations.Vex256FormsResult
  intro lead v reg rm s v2 hv l i hi hready
  have hshape : i.shape = .vex true l lead v reg rm := by
    simp only [List.mem_cons, Prod.mk.injEq, List.not_mem_nil, or_false] at hi
    rcases hi with ⟨rfl, rfl⟩ | ⟨rfl, rfl⟩ | ⟨rfl, rfl⟩ | ⟨rfl, rfl⟩ <;> rfl
  exact vex_result_of_ready hshape rfl hready hv

end Sys2Proof.Machine
end

