-- ==== Sys2Proof/Proofs/WriteOnlyDestination.lean ====
section
/-!
The old destination of a form that zeroes the bits above its result (10_state.md R23; 42_vpadd_vex.md R160;
43_vpadd_evex.md R180): the whole register is replaced, so its old value matters only through the sources and, under
merging, through the lanes that the writemask leaves.
-/
namespace Sys2Proof.Machine

open Sys2Proof

/-- Another value in one vector register. -/
def State.withVec (s : State) (d : Fin 32) (x : Vec) : State := { s with zmm := s.zmm.set d x }

section
variable {s : State} {d : Fin 32} {old : Vec}

theorem vecLow_withVec_of_ne (n : Nat) {i : Fin 32} (h : i ≠ d) :
    (s.withVec d old).vecLow n i = s.vecLow n i :=
  congrArg (BitVec.setWidth n) (Vector.getElem_set_ne d.isLt i.isLt fun hd => h (Fin.ext hd.symm))

theorem writeVecZero_withVec {n : Nat} (v : BitVec n) :
    (s.withVec d old).writeVecZero d v = s.writeVecZero d v := by
  simp only [State.writeVecZero, State.withVec, Vector.set_set]

/-- An instruction whose source and effect are the same with another value in a vector register is the same. -/
theorem perform_withVec {α : Type} {checks : Option Exception} {source source' : Except Stop α}
    {effect effect' : α → State} (hsource : source' = source) (heffect : ∀ v, effect' v = effect v) :
    perform checks source' effect' (s.withVec d old) = perform checks source effect s := by
  obtain rfl : effect' = effect := funext heffect
  rw [hsource]
  rfl

/-! ## VEX forms -/

/-- A memory operand depends on no vector register, a register operand on its own alone. -/
theorem vexSource_withVec {v : Vex} {rm : RmOperand} (h : ∀ f, rm = .reg f → vecNum false (vexExt v).b f ≠ d)
    (n : Nat) (lead : List LeadByte) : (s.withVec d old).vexSource n lead v rm = s.vexSource n lead v rm := by
  cases rm with
  | reg f => exact congrArg Except.ok (vecLow_withVec_of_ne n (h f rfl))
  | mem m => rfl

theorem vexEffect_withVec {v : Vex} {reg : BitVec 3} (h : vexSrc1 v ≠ vexDest v reg) {w n : Nat}
    (lead : List LeadByte) (rm : RmOperand) (v2 : BitVec n) :
    (s.withVec (vexDest v reg) old).vexEffect w n lead v reg rm v2 = s.vexEffect w n lead v reg rm v2 := by
  rw [State.vexEffect, vecLow_withVec_of_ne n h, writeVecZero_withVec, State.vexEffect]

/-! ## EVEX forms -/

theorem evexSource_withVec {e : Evex} {rm : RmOperand} (h : ∀ f, rm = .reg f → vecNum e.x e.b f ≠ d)
    (w n : Nat) (lead : List LeadByte) :
    (s.withVec d old).evexSource w n lead e rm = s.evexSource w n lead e rm := by
  cases rm with
  | reg f => exact congrArg Except.ok (vecLow_withVec_of_ne n (h f rfl))
  | mem m => rfl

/-- Without a writemask, or with zeroing, no lane is merged. -/
theorem maskMerge_old_congr {w n N : Nat} {m : Option (BitVec 64)} {z : Bool} (h : m = none ∨ z = true)
    (old old' new : BitVec N) : maskMerge w n m z old new = maskMerge w n m z old' new := by
  rcases h with rfl | rfl
  · exact ofLanes_congr fun _ _ => rfl
  · exact ofLanes_congr fun _ _ => rfl

theorem evexValue_withVec {e : Evex} {reg : BitVec 3} (hmask : e.aaa = 0#3 ∨ e.z = true)
    (hsrc : evexSrc1 e ≠ evexDest e reg) (w n : Nat) (v2 : BitVec n) :
    (s.withVec (evexDest e reg) old).evexValue w n e reg v2 = s.evexValue w n e reg v2 := by
  have nomerge : s.writemask e.aaa = none ∨ e.z = true := hmask.imp_left fun h => if_pos h
  rw [State.evexValue, vecLow_withVec_of_ne n hsrc]
  exact maskMerge_old_congr nomerge _ _ _

theorem evexEffect_withVec {e : Evex} {reg : BitVec 3} (hmask : e.aaa = 0#3 ∨ e.z = true)
    (hsrc : evexSrc1 e ≠ evexDest e reg) {w n : Nat} (lead : List LeadByte) (rm : RmOperand) (v2 : BitVec n) :
    (s.withVec (evexDest e reg) old).evexEffect w n lead e reg rm v2 =
      s.evexEffect w n lead e reg rm v2 := by
  rw [State.evexEffect, evexValue_withVec hmask hsrc, writeVecZero_withVec, State.evexEffect]

end

/-- Settles O60: neither the checks nor the source see the old destination, and the effect overwrites it. -/
theorem destinationIsWriteOnly : Obligations.DestinationIsWriteOnly := by
  unfold Obligations.DestinationIsWriteOnly
  intro s lead reg rm l old
  refine ⟨fun wide v hsrc1 hsrc2 => ?vex, fun vl e hmask hsrc1 hsrc2 => ?evex⟩
  case vex =>
    rw [exec_instr, exec_instr, execShape_vex, execShape_vex]
    exact perform_withVec (vexSource_withVec hsrc2 _ lead) (vexEffect_withVec hsrc1 lead rm)
  case evex =>
    rw [exec_instr, exec_instr]
    exact perform_withVec (evexSource_withVec hsrc2 _ _ lead) (evexEffect_withVec hmask hsrc1 lead rm)

end Sys2Proof.Machine
end

