-- ==== Sys2Proof/Proofs/EvexResult.lean ====
section
/-!
The EVEX forms (43_vpadd_evex.md R180 to R192): a form that is ready and whose source can be read completes, with the
lane sums under the writemask and zero above them (10_state.md R23). The twelve forms share one argument, at the lane
width and vector length of the form.
-/
namespace Sys2Proof

theorem Lane.bits_pos (l : Lane) : 0 < l.bits := by cases l <;> decide

/-- The lanes of each width fill each vector length (30_encoding.md R83, R92). -/
theorem Lane.bits_mul_div (l : Lane) (vl : VecLen) : l.bits * (vl.bits / l.bits) = vl.bits := by
  cases vl with
  | vl128 | vl256 | vl512 => cases l <;> rfl

end Sys2Proof

namespace Sys2Proof.Machine

open Sys2Proof Sys2Proof.Laws

/-! ## The value written -/

theorem maskSelects_writemask_iff (s : State) (aaa : BitVec 3) (j : Nat) :
    maskSelects (s.writemask aaa) j = true ↔ aaa = 0#3 ∨ (s.k[aaa.toNat]).getLsbD j = true := by
  unfold State.writemask
  split
  · next hnone => exact iff_of_true rfl (.inl hnone)
  · next hmask => exact (or_iff_right hmask).symm

/-- Lane by lane, the value an EVEX form writes (43_vpadd_evex.md R180 step 4), with zero above it. -/
theorem lane_setWidth_evexValue (s : State) (e : Evex) (reg : BitVec 3) {w n N j : Nat} (v2 : BitVec n)
    (hN : n ≤ N) (hj : j < n / w) :
    lane w ((s.evexValue w n e reg v2).setWidth N) j =
      if e.aaa = 0#3 ∨ (s.k[e.aaa.toNat]).getLsbD j = true then lane w s.zmm[evexSrc1 e] j + lane w v2 j
      else if e.z then 0#w else lane w s.zmm[evexDest e reg] j := by
  have hfit : w * (n / w) ≤ n := Nat.mul_div_le ..
  rw [lane_setWidth _ hN hj, State.evexValue, lane_maskMerge _ _ _ _ hj hfit, lane_addLanes _ _ hj hfit,
    lane_vecLow s _ hj, lane_vecLow s _ hj]
  simp only [maskSelects_writemask_iff]

/-! ## Completion -/

/-- A value with the same element in every lane is that element broadcast (00_scope.md R16). -/
theorem broadcast_eq_of_lanes {w n N : Nat} {e : BitVec w} {v : BitVec N} (hw : 0 < w) (hN : w * n = N)
    (h : ∀ j < n, lane w v j = e) : broadcast n e = v :=
  eq_of_lanes hw hN.ge fun j hj => (lane_broadcast e hj hN.le).trans (h j hj).symm

theorem evexSource_of_sourceIs {s : State} {l : Lane} {vl : VecLen} {lead : List LeadByte} {e : Evex}
    {rm : RmOperand} {v2 : BitVec vl.bits} (h : s.EvexSourceIs l.bits vl.bits lead e rm v2) :
    s.evexSource l.bits vl.bits lead e rm = .ok v2 := by
  cases rm with
  | reg f => exact congrArg Except.ok h.symm
  | mem m =>
    obtain ⟨hread, hv⟩ := h
    have hsize : (s.evexAccess l.bits vl.bits lead e (.mem m) m).size = evexScale l.bits vl.bits e := rfl
    simp only [State.evexSource, memRead_of_readable hread, hsize, evexScale]
    split at hv
    · next hb =>
      simp only [hb, if_true]
      exact congrArg Except.ok (broadcast_eq_of_lanes l.bits_pos (l.bits_mul_div vl) hv)
    · next hb =>
      simp only [hb]
      exact congrArg Except.ok hv.symm

section
variable {i : Instr} {s : State} {vl : VecLen} {l : Lane} {lead : List LeadByte} {e : Evex} {reg : BitVec 3}
  {rm : RmOperand} {v2 : BitVec vl.bits}

theorem exec_evex_of_ready (hshape : i.shape = .evex vl l lead e reg rm) (hready : i.Ready s)
    (hv : s.EvexSourceIs l.bits vl.bits lead e rm v2) :
    exec i s = .next (s.evexEffect l.bits vl.bits lead e reg rm v2) := by
  have hchecks := shapeChecks_of_ready hready
  rw [hshape] at hchecks
  rw [exec_eq_execShape, hshape]
  exact perform_ok hchecks (evexSource_of_sourceIs hv)

/-- The bits of a ready EVEX form fit its lanes and its operand (30_encoding.md R109, 60_exceptions.md R222). -/
theorem nbOk_and_isMem_of_ready (hshape : i.shape = .evex vl l lead e reg rm) (hready : i.Ready s) :
    e.nbOk l = true ∧ (e.bcst = true → rm.isMem = true) := by
  obtain ⟨hwf, -⟩ := hready
  rw [Instr.wellFormed, hshape] at hwf
  obtain ⟨-, -, -, hnb, hmem, -⟩ := wellFormed_evex_iff.mp hwf
  exact ⟨hnb, hmem⟩

/-- A ready form of EVEX shape leaves in its destination `State.evexValue` with zero above it, counts a free choice
under a broadcast, and changes nothing else but `rip`. -/
theorem evex_result_of_ready (hshape : i.shape = .evex vl l lead e reg rm) (hready : i.Ready s)
    (hv : s.EvexSourceIs l.bits vl.bits lead e rm v2) :
    ∃ z : Vec,
      (∀ j < vl.bits / l.bits, lane l.bits z j =
        if e.aaa = 0#3 ∨ (s.k[e.aaa.toNat]).getLsbD j = true then
          lane l.bits s.zmm[evexSrc1 e] j + lane l.bits v2 j
        else if e.z then 0#l.bits else lane l.bits s.zmm[evexDest e reg] j) ∧
      z.toNat < 2 ^ vl.bits ∧
      exec i s = .next { s with
        zmm := s.zmm.set (evexDest e reg) z
        choices := if e.bcst then s.choices + 1 else s.choices
        rip := addAddr s.mode s.rip (BitVec.ofNat 64 (encode i).length) } := by
  have hlen : (encode i).length = evexLength lead rm := by
    rw [encode, shape_encode_length, hshape, Shape.length]
  have hcount : (e.bcst && rm.isMem) = e.bcst :=
    Bool.and_eq_left_iff_imp.mpr (nbOk_and_isMem_of_ready hshape hready).2
  refine ⟨(s.evexValue l.bits vl.bits e reg v2).setWidth 512,
    fun j hj => lane_setWidth_evexValue s e reg v2 vl.bits_le hj, setWidth_toNat_lt _, ?completes⟩
  case completes =>
    rw [exec_evex_of_ready hshape hready hv, hlen, State.evexEffect, hcount]
    rfl

end

/-- Settles O29: each of the six forms has the EVEX shape of its length and lane width, and no broadcast, so that no
free choice is counted. -/
theorem evexByteWordResult : Obligations.EvexByteWordResult := by
  unfold Obligations.EvexByteWordResult
  intro lead e reg rm s vl l i v2 hv hi hready
  obtain ⟨hshape, hlane⟩ : i.shape = .evex vl l lead e reg rm ∧ e.nbOk l = !e.bcst := by
    simp only [List.mem_cons, Prod.mk.injEq, List.not_mem_nil, or_false] at hi
    rcases hi with ⟨rfl, rfl, rfl⟩ | ⟨rfl, rfl, rfl⟩ | ⟨rfl, rfl, rfl⟩ | ⟨rfl, rfl, rfl⟩ | ⟨rfl, rfl, rfl⟩ |
      ⟨rfl, rfl, rfl⟩ <;> exact ⟨rfl, rfl⟩
  have hbcst : e.bcst = false := Bool.not_inj (hlane.symm.trans (nbOk_and_isMem_of_ready hshape hready).1)
  obtain ⟨z, hlanes, hzero, hexec⟩ := evex_result_of_ready hshape hready hv
  refine ⟨z, hlanes, hzero, hexec.trans ?_⟩
  simp only [hbcst, Bool.false_eq_true, if_false]

/-- Settles O30: each of the six forms has the EVEX shape of its length and lane width. -/
theorem evexDwordQwordResult : Obligations.EvexDwordQwordResult := by
  unfold Obligations.EvexDwordQwordResult
  intro lead e reg rm s vl l i v2 hv hi hready
  have hshape : i.shape = .evex vl l lead e reg rm := by
    simp only [List.mem_cons, Prod.mk.injEq, List.not_mem_nil, or_false] at hi
    rcases hi with ⟨rfl, rfl, rfl⟩ | ⟨rfl, rfl, rfl⟩ | ⟨rfl, rfl, rfl⟩ | ⟨rfl, rfl, rfl⟩ | ⟨rfl, rfl, rfl⟩ |
      ⟨rfl, rfl, rfl⟩ <;> rfl
  exact evex_result_of_ready hshape hready hv

end Sys2Proof.Machine
end

