-- ==== Sys2Proof/Proofs/FullAndEmptyMask.lean ====
section
/-!
The two extreme writemasks (43_vpadd_evex.md R193; 00_scope.md R17): one that selects every lane is no writemask, one
that selects none leaves nothing of the sums.
-/
namespace Sys2Proof

/-- The same header without a writemask (30_encoding.md R108). -/
def Evex.unmasked (e : Evex) : Evex := { e with aaa := 0#3, z := false }

/-- The flags of a row depend on its length and lanes alone (30_encoding.md R81). -/
theorem Shape.available_evex_congr (f : Features) (vl : VecLen) (l : Lane) (lead : List LeadByte) (e e' : Evex)
    (reg : BitVec 3) (rm : RmOperand) :
    (Shape.evex vl l lead e reg rm).available f = (Shape.evex vl l lead e' reg rm).available f := by
  cases vl with
  | vl128 | vl256 | vl512 => cases l <;> rfl

end Sys2Proof

namespace Sys2Proof.Machine

open Sys2Proof

/-! ## Merging under a full and under an empty mask -/

/-- Where every lane is selected, neither the mask nor the zeroing bit matters. -/
theorem maskMerge_of_all_selected {w n N : Nat} {m m' : Option (BitVec 64)} (z z' : Bool) (old new : BitVec N)
    (h : ∀ j < n, maskSelects m j = true) (h' : ∀ j < n, maskSelects m' j = true) :
    maskMerge w n m z old new = maskMerge w n m' z' old new :=
  ofLanes_congr fun j hj => (if_pos (h j hj)).trans (if_pos (h' j hj)).symm

/-- Where no lane is selected, nothing of the new value is left. -/
theorem maskMerge_of_none_selected {w n N : Nat} {m : Option (BitVec 64)} (z : Bool) (old new : BitVec N)
    (hw : 0 < w) (hN : w * n = N) (h : ∀ j < n, ¬ maskSelects m j = true) :
    maskMerge w n m z old new = if z then 0#N else old := by
  refine eq_of_lanes hw hN.ge fun j hj => ?_
  rw [lane_maskMerge m z old new hj hN.le, if_neg (h j hj)]
  cases z with
  | false => rfl
  | true => exact (lane_zero w j).symm

/-! ## A full mask is no mask -/

section
variable {s : State} {e : Evex}

theorem evexValue_unmasked {w n : Nat} (h : ∀ j < n / w, (s.k[e.aaa.toNat]).getLsbD j = true)
    (reg : BitVec 3) (v2 : BitVec n) :
    s.evexValue w n e reg v2 = s.evexValue w n e.unmasked reg v2 :=
  maskMerge_of_all_selected _ _ _ _ (fun j hj => (maskSelects_writemask_iff s _ j).mpr (.inr (h j hj)))
    fun j _ => (maskSelects_writemask_iff s _ j).mpr (.inl rfl)

theorem evexEffect_unmasked {w n : Nat} (h : ∀ j < n / w, (s.k[e.aaa.toNat]).getLsbD j = true)
    (lead : List LeadByte) (reg : BitVec 3) (rm : RmOperand) (v2 : BitVec n) :
    s.evexEffect w n lead e reg rm v2 = s.evexEffect w n lead e.unmasked reg rm v2 := by
  rw [State.evexEffect, evexValue_unmasked h]
  rfl

/-- A header that names a mask register passes the check on zeroing, as one without zeroing does (30_encoding.md
R108). -/
theorem evexBitsOk_unmasked (h : e.aaa ≠ 0#3) (l : Lane) (lead : List LeadByte) (rm : RmOperand) :
    evexBitsOk l lead e rm = evexBitsOk l lead e.unmasked rm := by
  have masked : e.maskOk = true := Bool.or_eq_true_iff.mpr (.inr (decide_eq_true h))
  rw [evexBitsOk, masked]
  rfl

theorem execShape_evex_unmasked {vl : VecLen} {l : Lane} (hmask : e.aaa ≠ 0#3)
    (h : ∀ j < vl.bits / l.bits, (s.k[e.aaa.toNat]).getLsbD j = true) (lead : List LeadByte)
    (reg : BitVec 3) (rm : RmOperand) :
    execShape (.evex vl l lead e reg rm) s = execShape (.evex vl l lead e.unmasked reg rm) s := by
  have heffect := funext (evexEffect_unmasked h lead reg rm)
  rw [execShape, execEvex, evexBitsOk_unmasked hmask, heffect, Shape.available_evex_congr _ _ _ _ e e.unmasked]
  rfl

end

/-- Settles O54: the form without a writemask has the same checks and source, and the same effect. -/
theorem fullMaskIsNoMask : Obligations.FullMaskIsNoMask := by
  unfold Obligations.FullMaskIsNoMask
  intro s vl l lead e reg rm hmask hones
  rw [exec_instr, exec_instr]
  exact execShape_evex_unmasked hmask hones lead reg rm

/-! ## An empty mask -/

theorem evexValue_of_empty_mask {s : State} {e : Evex} {l : Lane} {vl : VecLen} (hmask : e.aaa ≠ 0#3)
    (h : ∀ j < vl.bits / l.bits, (s.k[e.aaa.toNat]).getLsbD j = false) (reg : BitVec 3)
    (v2 : BitVec vl.bits) :
    s.evexValue l.bits vl.bits e reg v2 =
      if e.z then 0#vl.bits else s.vecLow vl.bits (evexDest e reg) := by
  refine maskMerge_of_none_selected _ _ _ l.bits_pos (l.bits_mul_div vl) fun j hj => ?_
  rw [maskSelects_writemask_iff, not_or]
  exact ⟨hmask, Bool.eq_false_iff.mp (h j hj)⟩

/-- Settles O55: what a completed form writes is `State.evexValue`, widened with zeros. -/
theorem emptyMask : Obligations.EmptyMask := by
  unfold Obligations.EmptyMask
  intro s t vl l lead e reg rm hmask hzeros ht
  obtain ⟨-, hran⟩ := exec_next ht
  rw [shape_instr] at hran
  obtain ⟨v2, -, rfl⟩ := hran
  simp only [State.evexEffect, State.advance_zmm, State.countChoice_zmm, State.writeVecZero_zmm,
    evexValue_of_empty_mask hmask hzeros, State.vecLow, apply_ite (BitVec.setWidth 512),
    BitVec.setWidth_zero]

end Sys2Proof.Machine
end

