-- ==== Sys2Proof/Proofs/ClassChecks.lean ====
section
/-!
The checks of the four classes before the operand (60_exceptions.md R212 to R221, R232): one table in which the #UD
conditions stand together, then #NM, then #MF for the MMX class.
-/
namespace Sys2Proof.Machine

open Sys2Proof

/-! ## One table for the four classes -/

/-- The checks of every class: its bits, its length, its #UD conditions, `CR0.TS`, and `ES` for the MMX class
(60_exceptions.md R214, R224 to R227). -/
theorem shapeChecks_eq (sh : Shape) (s : State) :
    shapeChecks sh s = firstException [
      (!sh.bitsOk, .ud), (decide (maxLength < sh.length), .gp), (!sh.noUd s, .ud), (s.cr0Ts, .nm),
      (decide (sh.cls = .mmx) && s.fswEs, .mf)] := by
  match sh with
  | .legacy false .. | .legacy true .. =>
    simp only [shapeChecks, mmxChecks, sseChecks, firstException_cons, Shape.noUd, Shape.cls, Bool.not_and,
      Bool.not_not, Bool.or_eq_true, ite_or]
    rfl
  | .vex .. | .evex .. =>
    simp only [shapeChecks, vexChecks, evexChecks, firstException_cons, Shape.noUd, Shape.cls, Bool.and_assoc]
    rw [Bool.and_left_comm]
    simp only [Bool.not_and, Bool.not_not, decide_not, Bool.or_eq_true, ite_or]
    rfl

/-- What passing the table means, class by class. -/
theorem shapeChecks_eq_none_iff {sh : Shape} {s : State} :
    shapeChecks sh s = none ↔
      sh.bitsOk = true ∧ sh.length ≤ maxLength ∧ sh.available s.cfg.features = true ∧ sh.ControlsAllow s := by
  match sh with
  | .legacy false .. => exact mmxChecks_eq_none
  | .legacy true .. => exact sseChecks_eq_none
  | .vex .. => exact vexChecks_eq_none
  | .evex .. => exact evexChecks_eq_none

/-- What the table can raise. -/
theorem shapeChecks_eq_some {sh : Shape} {s : State} {x : Exception} (h : shapeChecks sh s = some x) :
    x = .ud ∨ (x = .gp ∧ maxLength < sh.length) ∨ x = .nm ∨ (x = .mf ∧ sh.cls = .mmx) := by
  simp only [shapeChecks_eq, firstException_cons, firstException_nil] at h
  split at h
  · exact .inl (Option.some.inj h).symm
  split at h
  · next hlen => exact .inr (.inl ⟨(Option.some.inj h).symm, of_decide_eq_true hlen⟩)
  split at h
  · exact .inl (Option.some.inj h).symm
  split at h
  · exact .inr (.inr (.inl (Option.some.inj h).symm))
  split at h
  · next hmf =>
    exact .inr (.inr (.inr ⟨(Option.some.inj h).symm, of_decide_eq_true (Bool.and_eq_true_iff.mp hmf).1⟩))
  · cases h

/-- Of the state the table reads the #UD conditions, `TS` and `ES` alone. -/
theorem shapeChecks_congr {sh : Shape} {s s' : State} (hud : sh.noUd s' = sh.noUd s) (hts : s'.cr0Ts = s.cr0Ts)
    (hes : s'.fswEs = s.fswEs) : shapeChecks sh s' = shapeChecks sh s := by
  rw [shapeChecks_eq, shapeChecks_eq, hud, hts, hes]

/-! ## The outcome of a well-formed form -/

section
variable {i : Instr} {s : State}

/-- A well-formed form of at most 15 bytes begins with its #UD conditions. -/
theorem shapeChecks_of_wellFormed (hwf : i.wellFormed = true) (hfits : i.fits = true) :
    shapeChecks i.shape s = firstException [
      (!i.shape.noUd s, .ud), (s.cr0Ts, .nm), (decide (i.shape.cls = .mmx) && s.fswEs, .mf)] := by
  have hlen : ¬ maxLength < i.shape.length := Nat.not_lt.mpr (of_decide_eq_true hfits)
  rw [shapeChecks_eq, bitsOk_of_wellFormed hwf, decide_eq_false hlen]
  rfl

theorem exec_of_shapeChecks {x : Exception} (h : shapeChecks i.shape s = some x) :
    exec i s = .fault (x.fault s.rip) := by
  rw [exec_eq_execShape]
  exact execShape_raise h

theorem exec_ud_of_noUd_eq_false (hwf : i.wellFormed = true) (hfits : i.fits = true)
    (hud : i.shape.noUd s = false) : exec i s = .fault (.ud s.rip) :=
  exec_of_shapeChecks (x := .ud) (by rw [shapeChecks_of_wellFormed hwf hfits, hud]; rfl)

end

/-- Settles O34: with `TS` set the table ends at #NM, if no #UD condition comes before it. -/
theorem taskSwitchedRaisesNm : Obligations.TaskSwitchedRaisesNm := by
  unfold Obligations.TaskSwitchedRaisesNm
  intro i s hwf hfits hts
  split
  · next hud =>
    have nm : shapeChecks i.shape s = some .nm := by
      rw [shapeChecks_of_wellFormed hwf hfits, hud, State.cr0Ts, hts]; rfl
    exact exec_of_shapeChecks nm
  · next hud => exact exec_ud_of_noUd_eq_false hwf hfits (Bool.eq_false_iff.mpr hud)

/-! ## The #UD conditions by class -/

section
variable {sh : Shape} {s : State}

theorem noUd_mmx_iff (hcls : sh.cls = .mmx) :
    sh.noUd s = true ↔ sh.available s.cfg.features = true ∧ s.cr0Em = false := by
  simp [Shape.noUd, hcls]

theorem noUd_sse_iff (hcls : sh.cls = .sse) :
    sh.noUd s = true ↔ sh.available s.cfg.features = true ∧ s.cr0Em = false ∧ s.cr4Osfxsr = true := by
  simp [Shape.noUd, hcls]

theorem noUd_vex_iff (hcls : sh.cls = .vex) :
    sh.noUd s = true ↔ sh.available s.cfg.features = true ∧ s.outsideModes = false ∧ s.cr4Osxsave = true ∧
      s.xcr0Avx = 3#2 := by
  simp [Shape.noUd, hcls, and_assoc]

theorem noUd_evex_iff (hcls : sh.cls = .evex) :
    sh.noUd s = true ↔ sh.available s.cfg.features = true ∧ s.outsideModes = false ∧ s.cr4Osxsave = true ∧
      s.xcr0Avx = 3#2 ∧ s.xcr0Avx512 = 7#3 := by
  simp [Shape.noUd, hcls, and_assoc]

theorem available_of_noUd (h : sh.noUd s = true) : sh.available s.cfg.features = true :=
  (Bool.and_eq_true_iff.mp h).1

theorem xsave_of_noUd (hcls : sh.cls = .vex ∨ sh.cls = .evex) (h : sh.noUd s = true) :
    s.cr4Osxsave = true ∧ s.xcr0Avx = 3#2 := by
  rcases hcls with hcls | hcls
  · obtain ⟨-, -, hosxsave, havx⟩ := (noUd_vex_iff hcls).mp h
    exact ⟨hosxsave, havx⟩
  · obtain ⟨-, -, hosxsave, havx, -⟩ := (noUd_evex_iff hcls).mp h
    exact ⟨hosxsave, havx⟩

theorem xcr0Avx512_of_noUd (hcls : sh.cls = .evex) (h : sh.noUd s = true) : s.xcr0Avx512 = 7#3 := by
  obtain ⟨-, -, -, -, havx512⟩ := (noUd_evex_iff hcls).mp h
  exact havx512

theorem cr0Em_of_noUd (hcls : sh.cls = .mmx ∨ sh.cls = .sse) (h : sh.noUd s = true) : s.cr0Em = false := by
  rcases hcls with hcls | hcls
  · exact ((noUd_mmx_iff hcls).mp h).2
  · obtain ⟨-, hem, -⟩ := (noUd_sse_iff hcls).mp h
    exact hem

theorem cr4Osfxsr_of_noUd (hcls : sh.cls = .sse) (h : sh.noUd s = true) : s.cr4Osfxsr = true := by
  obtain ⟨-, -, hosfxsr⟩ := (noUd_sse_iff hcls).mp h
  exact hosfxsr

end

/-- Settles O32: each bit is among the #UD conditions of its classes. -/
theorem xsaveBitsRaiseUd : Obligations.XsaveBitsRaiseUd := by
  unfold Obligations.XsaveBitsRaiseUd
  intro i s hwf hfits
  have ud (h : ¬ i.shape.noUd s = true) : exec i s = .fault (.ud s.rip) :=
    exec_ud_of_noUd_eq_false hwf hfits (Bool.eq_false_iff.mpr h)
  refine ⟨fun hoff hcls => ud fun h => ?osxsave, fun hoff hcls => ud fun h => hoff (xsave_of_noUd hcls h).2,
    fun hoff hcls => ud fun h => hoff (xcr0Avx512_of_noUd hcls h)⟩
  case osxsave => exact Bool.false_ne_true (hoff.symm.trans (xsave_of_noUd hcls h).1)

/-! ## Missing features -/

/-- If every pair of a list holds the availability of its row, so does each. -/
theorem available_of_mem_rows {rows : List (Bool × Instr)} {f : Features} {flags : Bool} {i : Instr}
    (hrows : ∀ p ∈ rows, p.2.shape.available f = p.1) (h : (flags, i) ∈ rows) : i.shape.available f = flags :=
  hrows _ h

/-- Settles O31: the flags of each row are `Shape.available`, read from the record of R41. -/
theorem missingFeatureRaisesUd : Obligations.MissingFeatureRaisesUd := by
  unfold Obligations.MissingFeatureRaisesUd
  intro lead v e reg rm s c f flags i hfeatures hf hrow hwf hfits hclear
  have features : s.cfg.features = f := hfeatures.trans hf.symm
  have available : i.shape.available f = flags := by
    refine available_of_mem_rows ?rows hrow
    case rows => simp [Instr.shape, Shape.available]
  refine exec_ud_of_noUd_eq_false hwf hfits (Bool.eq_false_iff.mpr fun hud => ?_)
  have hset := available_of_noUd hud
  rw [features, available, hclear] at hset
  cases hset

end Sys2Proof.Machine
end

