-- ==== Sys2Proof/Proofs/BitsVerdict.lean ====
section
/-!
The bits of an instruction that raise #UD (60_exceptions.md R213, R222, R223): in both modes the decoder's verdict on
the encoding is #UD whenever the first check of the form's class fails, so that `exec` and a step agree.
-/
namespace Sys2Proof

/-! ## The decoder on bits that are not those of a row -/

section
variable {m : Mode} {l : Lane} {lead : List LeadByte} {reg : BitVec 3} {rm : RmOperand}

theorem decodeLegacy_of_forbidden {wide : Bool}
    (h32 : m = .mode32 → (Shape.legacy wide l lead reg rm).mode32Ok = true)
    (hbits : lead.any LeadByte.forbidden = true) (t : List Byte) :
    decodeLegacy m lead (l.opcode :: t) = .ud := by
  have hsize : ¬ (m = .mode32 ∧ hasAddrSize lead = true) := fun ⟨hm, ha⟩ =>
    Bool.false_ne_true ((hasAddrSize_eq_false_of_in32 (Shape.lead_in32 (h32 hm))).symm.trans ha)
  simp only [decodeLegacy, lane_opcode, if_neg hsize, hbits, if_true]

theorem decodeEvexFields_of_bits_not_ok {vl : VecLen} {e : Evex}
    (h32 : m = .mode32 → (Shape.evex vl l lead e reg rm).mode32Ok = true)
    (hlead : lead.all LeadByte.beforeVex = true) (hbits : Machine.evexBitsOk l lead e rm = false)
    (rest : List Byte) : decodeEvexFields m lead vl.ll l e (rm.bytes reg ++ rest) = .ud := by
  have hadmits : ¬ (m = .mode32 ∧ ¬ (Shape.evex .vl128 l lead e 0#3 (.reg 0#3)).mode32Ok = true) :=
    fun ⟨hm, hn⟩ => hn (h32 hm)
  simp only [decodeEvexFields, if_neg hadmits, vecLen_ll]
  split
  · rfl
  split
  · rfl
  split
  · rfl
  next hw hmask hnb =>
  have hbcst : e.bcst = true ∧ ¬ rm.isMem = true := Classical.not_imp.mp fun himp =>
    Bool.eq_false_iff.mp hbits (evexBitsOk_iff.mpr ⟨hlead, not_not.mp hw, not_not.mp hmask, not_not.mp hnb, himp⟩)
  cases rm with
  | reg f => simp only [parseModRm_bytes reg (rm := .reg f) rfl, if_pos hbcst]
  | mem o => exact absurd rfl hbcst.2

end

/-- The verdict on the encoding of a form whose own bits are #UD, in each mode that admits it. -/
theorem decodeBody_of_bits_not_ok {m : Mode} {sh : Shape} (h32 : m = .mode32 → sh.mode32Ok = true)
    (hbits : sh.bitsOk = false) (rest : List Byte) : decodeBody m sh.lead (sh.body ++ rest) = .ud := by
  match sh, h32, hbits with
  | .legacy .., h32, hbits => exact decodeLegacy_of_forbidden h32 ((Bool.not_eq_false' _).mp hbits) _
  | .vex .., h32, hbits => exact Machine.decodeBody_of_lead (.inl rfl) h32 hbits rest
  | .evex .., h32, hbits =>
    refine (decodeBody_evex h32 rest).trans ?_
    split
    · next hlead => exact decodeEvexFields_of_bits_not_ok h32 hlead hbits rest
    · rfl

end Sys2Proof

namespace Sys2Proof.Machine

open Sys2Proof

/-- A form whose own bits are #UD raises it, from `exec` in every state and from a step that fetches its bytes. -/
theorem ud_of_bits_not_ok {i : Instr} {s : State} {rest : List Byte} (hbits : i.shape.bitsOk = false) :
    exec i s = .fault (.ud s.rip) ∧
      (s.Runnable → i.admitted s.mode = true → s.fetch = encode i ++ rest → step s = .fault (.ud s.rip)) := by
  refine ⟨exec_of_bits_not_ok hbits s, fun hrun hadm hfetch => ?step⟩
  case step =>
    rw [step_of_runnable hrun, hfetch, decode_encode_append hadm,
      decodeBody_of_bits_not_ok (Instr.admitted_iff.mp hadm).2 hbits]
    rfl

/-! ## LOCK, and the broadcast bit of byte and word forms -/

theorem bitsOk_eq_false_of_lock {sh : Shape} (h : LeadByte.lock ∈ sh.lead) : sh.bitsOk = false := by
  have hlead : sh.lead.all LeadByte.beforeVex = false := List.all_eq_false.mpr ⟨.lock, h, Bool.false_ne_true⟩
  match sh, h, hlead with
  | .legacy .., h, _ => exact congrArg not (any_forbidden_iff.mpr (.inl h))
  | .vex .., _, hlead => exact bitsOk_eq_false_of_lead (.inl rfl) hlead
  | .evex .., _, hlead => exact bitsOk_eq_false_of_lead (.inr rfl) hlead

theorem nbOk_eq_false {l : Lane} {e : Evex} (hl : l = .byte ∨ l = .word) (hb : e.bcst = true) :
    e.nbOk l = false := by
  rcases hl with rfl | rfl
  · exact congrArg not hb
  · exact congrArg not hb

theorem bitsOk_eq_false_of_nb {vl : VecLen} {l : Lane} {lead : List LeadByte} {e : Evex} {reg : BitVec 3}
    {rm : RmOperand} (h : e.nbOk l = false) : (Shape.evex vl l lead e reg rm).bitsOk = false :=
  Bool.eq_false_of_not_eq_true fun hok => by
    obtain ⟨-, -, -, hnb, -⟩ := evexBitsOk_iff.mp hok
    exact Bool.eq_false_iff.mp h hnb

/-- Settles O6: F0 stands among the forbidden lead bytes of every class. -/
theorem lockRaisesUd : Obligations.LockRaisesUd := by
  unfold Obligations.LockRaisesUd
  intro i s rest hlock
  exact ud_of_bits_not_ok (bitsOk_eq_false_of_lock hlock)

/-- Settles O8, by the check `Evex.nbOk`. -/
theorem broadcastBitOnByteWordIsUd : Obligations.BroadcastBitOnByteWordIsUd := by
  unfold Obligations.BroadcastBitOnByteWordIsUd
  intro i s rest vl l lead e reg rm hshape hl hb
  exact ud_of_bits_not_ok (by rw [hshape, bitsOk_eq_false_of_nb (nbOk_eq_false hl hb)])

end Sys2Proof.Machine
end

