-- ==== Sys2Proof/Proofs/PageFaultCode.lean ====
section
/-!
The code of a page fault (20_memory.md R70, log 10): the bits that R70 fixes, and where the others come from.
-/
namespace Sys2Proof.Machine

open Sys2Proof

/-- The bits of a page-fault code that R70 fixes, and those that are the translation's. -/
theorem pfCode_fields (present : Bool) (p : Privilege) (other : BitVec 29) :
    (pfCode present p other).getLsbD 0 = present ∧ (pfCode present p other).getLsbD 1 = false ∧
      (pfCode present p other).getLsbD 2 = decide (p = .user) ∧
      (pfCode present p other).extractLsb' 3 29 = other := by
  have bit (n : Nat) : (pfCode present p other).getLsbD n =
      BitVec.getLsbD (w := 29 + 1 + 1 + 1)
        (other ++ BitVec.ofBool (decide (p = .user)) ++ 0#1 ++ BitVec.ofBool present) n := rfl
  refine ⟨?present, ?write, ?user, ?other⟩
  case present => simp only [bit, BitVec.getLsbD_append]; simp
  case write => simp only [bit, BitVec.getLsbD_append]; simp
  case user => simp only [bit, BitVec.getLsbD_append]; simp
  case other =>
    refine BitVec.eq_of_getLsbD_eq fun k hk => ?_
    simp only [BitVec.getLsbD_extractLsb', bit, BitVec.getLsbD_append]
    simp [hk]

/-- What a range does for one class of privilege. -/
def PageRange.action (r : PageRange) (p : Privilege) : PageAction :=
  match p with
  | .user => r.user
  | .supervisor => r.supervisor

theorem action_privilege (r : PageRange) (s : State) :
    PageRange.action r s.privilege = if s.cpl = 3 then r.user else r.supervisor := by
  unfold State.privilege
  split <;> rfl

theorem privilege_eq_user_iff {s : State} : s.privilege = .user ↔ s.cpl = 3 := by
  unfold State.privilege
  split <;> simp [*]

/-- An action that faults says so with the code of R70. -/
theorem action_eq_faults {act : PageAction} {p : Privilege} {offset : Nat} {code : BitVec 32}
    (h : PageAction.translate act p offset = .pageFault code) :
    ∃ present other, act = .faults present other ∧ code = pfCode present p other := by
  cases act with
  | maps phys => cases h
  | faults present other => exact ⟨present, other, rfl, (Translation.pageFault.inj h).symm⟩

/-- Where a page fault comes from: the first range that holds the address, or none, in which case the page is not
present. -/
theorem translate_eq_pageFault {pages : List PageRange} {p : Privilege} {la : Addr} {code : BitVec 32}
    (h : translate pages p la = .pageFault code) :
    ∃ present other, code = pfCode present p other ∧
      (∀ r, pages.find? (fun r => r.range.contains la.toNat) = some r →
        PageRange.action r p = .faults present other) ∧
      (pages.find? (fun r => r.range.contains la.toNat) = none → present = false ∧ other = 0#29) := by
  induction pages with
  | nil =>
    exact ⟨false, 0#29, (Translation.pageFault.inj h).symm, fun r hr => (by cases hr), fun _ => ⟨rfl, rfl⟩⟩
  | cons q t ih =>
    unfold translate at h
    rw [List.find?_cons]
    split at h
    · next hq =>
      obtain ⟨present, other, hact, hcode⟩ := action_eq_faults (act := PageRange.action q p) h
      rw [hq]
      exact ⟨present, other, hcode, fun r hr => Option.some.inj hr ▸ hact, fun hn => (by cases hn)⟩
    · next hq =>
      rw [Bool.eq_false_of_not_eq_true hq]
      exact ih h

end Sys2Proof.Machine
end

