-- ==== Sys2Proof/Proofs/OperandFaults.lean ====
section
/-!
The faults of a memory operand (60_exceptions.md R228 to R232; 20_memory.md R57, R61): what each check of R57 says
when it stops or passes, and from it what an exception of the operand says.
-/
namespace Sys2Proof.Machine

open Sys2Proof

/-! ## When a check of 20_memory.md R57 stops -/

section
variable {s : State} {a : Access}

theorem segException_mode32 (h : s.mode = .mode32) : segException s a = if a.seg = .ss then .ss else .gp := by
  simp [segException, h]

theorem segException_mode64 (h : s.mode = .mode64) (hover : a.ssOverride = false) :
    segException s a = if a.seg = .ss then .ss else .gp := by
  simp [segException, h, hover]

theorem segException_eq (s : State) (a : Access) : segException s a = .ss ∨ segException s a = .gp := by
  unfold segException
  split
  · split
    · exact .inl rfl
    · exact .inr rfl
  · split
    · exact .inl rfl
    · exact .inr rfl

theorem segStop_of_nonCanonical (hvm : s.virtual8086 = false) (hmode : s.mode = .mode64)
    (h : ∃ k < a.size, canonical s.cfg.vaBits (s.byteAddr a.la k) = false) :
    segStop s a = some (.exception (segException s a)) := by
  obtain ⟨k, hk, hcanonical⟩ := h
  have some_not : ((List.range a.size).all fun i => canonical s.cfg.vaBits (s.byteAddr a.la i)) = false :=
    List.all_eq_false.mpr ⟨k, List.mem_range.mpr hk, Bool.eq_false_iff.mp hcanonical⟩
  simp [segStop, hmode, hvm, some_not]

theorem segStop_of_outside (hvm : s.virtual8086 = false) (hmode : s.mode = .mode32)
    (h : segCheck (s.segs.get a.seg) a.ea a.size = false) :
    segStop s a = some (.exception (segException s a)) := by
  simp [segStop, hmode, hvm, h]

theorem inSegment_of_segStop_eq_none (h : segStop s a = none) : a.InSegment s := by
  unfold segStop at h
  split at h
  · cases h
  next hreal =>
  split at h
  · cases h
  next hvm =>
  refine ⟨Bool.eq_false_of_not_eq_true hvm, ?_⟩
  split at h
  · next hmode =>
    split at h
    · next hcheck => exact .inr ⟨hmode, hcheck⟩
    · cases h
  · next hmode =>
    have mode64 : s.mode = .mode64 := by
      cases hm : s.mode with
      | mode64 => rfl
      | mode32 => exact absurd hm hmode
      | realAddress => exact absurd hm hreal
    split at h
    · next hall =>
      exact .inl ⟨mode64, fun k hk => List.all_eq_true.mp hall k (List.mem_range.mpr hk)⟩
    · cases h

theorem segStop_eq_exception {x : Exception} (h : segStop s a = some (.exception x)) : x = .ss ∨ x = .gp := by
  have same : x = segException s a := by
    unfold segStop at h
    split at h
    · cases h
    split at h
    · cases h
    split at h
    · split at h
      · cases h
      · exact (Stop.exception.inj (Option.some.inj h)).symm
    · split at h
      · cases h
      · exact (Stop.exception.inj (Option.some.inj h)).symm
  exact same ▸ segException_eq s a

theorem aligned_of_alignStop_eq_none (h : alignStop a = none) : a.Aligned := by
  intro haligned
  unfold alignStop at h
  split at h
  · cases h
  · next hno => exact not_not.mp fun hmis => hno ⟨haligned, hmis⟩

theorem alignStop_eq_some {t : Stop} (h : alignStop a = some t) : t = .exception .gp := by
  unfold alignStop at h
  split at h
  · exact (Option.some.inj h).symm
  · cases h

theorem pageStopAt_of_pageFault {k : Nat} {code : BitVec 32}
    (h : translate s.cfg.pages s.privilege (s.byteAddr a.la k) = .pageFault code) :
    pageStopAt s a k = some (.exception (.pf code (s.byteAddr a.la k))) := by
  simp only [pageStopAt, h]

theorem pageStopAt_eq_some {k : Nat} {t : Stop} (h : pageStopAt s a k = some t) :
    ∃ code, translate s.cfg.pages s.privilege (s.byteAddr a.la k) = .pageFault code ∧
      t = .exception (.pf code (s.byteAddr a.la k)) := by
  unfold pageStopAt at h
  split at h
  · cases h
  · next code hcode => exact ⟨code, hcode, (Option.some.inj h).symm⟩

theorem translated_of_pageStop_eq_none (h : pageStop s a = none) : a.Translated s := by
  intro k hk
  have none_at := List.findSome?_eq_none_iff.mp h k (List.mem_range.mpr hk)
  cases ht : translate s.cfg.pages s.privilege (s.byteAddr a.la k) with
  | physical pa => rfl
  | pageFault code => rw [pageStopAt_of_pageFault ht] at none_at; cases none_at

/-- The lowest index with an answer gives the answer of a search through a range. -/
theorem findSome?_range_eq_some {β : Type} {f : Nat → Option β} {n k : Nat} {b : β} (hk : k < n)
    (hb : f k = some b) (hlower : ∀ j < k, f j = none) : (List.range n).findSome? f = some b := by
  obtain ⟨m, rfl⟩ := Nat.exists_eq_add_of_lt hk
  refine List.findSome?_eq_some_iff.mpr ⟨List.range k, k, (List.range m).map (k + 1 + ·), ?split, hb,
    fun j hj => hlower j (List.mem_range.mp hj)⟩
  case split =>
    rw [show k + m + 1 = k + 1 + m by omega, List.range_add, List.range_succ, List.append_assoc]
    rfl

theorem pageStop_of_first {k : Nat} {code : BitVec 32} (hk : k < a.size)
    (hcode : translate s.cfg.pages s.privilege (s.byteAddr a.la k) = .pageFault code)
    (hlower : ∀ j < k, (translate s.cfg.pages s.privilege (s.byteAddr a.la j)).isPhysical = true) :
    pageStop s a = some (.exception (.pf code (s.byteAddr a.la k))) :=
  findSome?_range_eq_some hk (pageStopAt_of_pageFault hcode) fun j hj => pageStopAt_eq_none (hlower j hj)

theorem pageStop_eq_some {t : Stop} (h : pageStop s a = some t) :
    ∃ k < a.size, ∃ code, translate s.cfg.pages s.privilege (s.byteAddr a.la k) = .pageFault code ∧
      t = .exception (.pf code (s.byteAddr a.la k)) := by
  obtain ⟨k, hk, hstop⟩ := List.exists_of_findSome?_eq_some h
  exact ⟨k, List.mem_range.mp hk, pageStopAt_eq_some hstop⟩

theorem acStop_eq_some {t : Stop} (h : acStop s a = some t) :
    t = .exception .ac ∧ s.alignmentChecking = true ∧
      ∃ k, (a.ac = .always k ∨ a.ac = .perhaps k) ∧ a.la.toNat % k ≠ 0 := by
  unfold acStop at h
  split at h
  · cases h
  · next k hac =>
    split at h
    · next hmis => exact ⟨(Option.some.inj h).symm, hmis.1, k, .inl hac, hmis.2⟩
    · cases h
  · next k hac =>
    split at h
    · next hmis =>
      split at h
      · exact ⟨(Option.some.inj h).symm, hmis.1, k, .inr hac, hmis.2⟩
      · cases h
    · cases h

theorem mappedStop_eq_some {t : Stop} (h : mappedStop s a = some t) : t = .refusal .notMapped := by
  unfold mappedStop at h
  split at h
  · cases h
  · exact (Option.some.inj h).symm

/-! ## What an exception of an operand says -/

theorem memStop_of_segStop {t : Stop} (h : segStop s a = some t) : memStop s a = some t := by
  simp [memStop, h]

theorem memStop_of_pageStop {t : Stop} (hseg : a.InSegment s) (hal : a.Aligned) (ht : pageStop s a = some t) :
    memStop s a = some t := by
  simp [memStop, segStop_eq_none hseg, alignStop_eq_none hal, ht]

/-- What holds of an operand that raises an exception. -/
def Access.Raises (a : Access) (s : State) : Exception → Prop
  | .ss => True
  | .gp => True
  | .pf code address => ∃ k < a.size, address = s.byteAddr a.la k ∧
      translate s.cfg.pages s.privilege address = .pageFault code
  | .ac => a.InSegment s ∧ a.Aligned ∧ a.Translated s ∧ s.alignmentChecking = true ∧
      ∃ k, (a.ac = .always k ∨ a.ac = .perhaps k) ∧ a.la.toNat % k ≠ 0
  | .ud => False
  | .nm => False
  | .mf => False

/-- An operand's exception is that of the first check of R57 that stops; those before it have passed. -/
theorem memStop_eq_exception {x : Exception} (h : memStop s a = some (.exception x)) : a.Raises s x := by
  unfold memStop at h
  rcases hseg : segStop s a with _ | t
  case some =>
    rw [hseg] at h
    obtain rfl := Option.some.inj h
    rcases segStop_eq_exception hseg with rfl | rfl <;> trivial
  rcases hal : alignStop a with _ | t
  case some =>
    rw [hseg, hal] at h
    obtain rfl := Option.some.inj h
    obtain rfl := Stop.exception.inj (alignStop_eq_some hal)
    trivial
  rcases hpage : pageStop s a with _ | t
  case some =>
    rw [hseg, hal, hpage] at h
    obtain rfl := Option.some.inj h
    obtain ⟨k, hk, code, hcode, hx⟩ := pageStop_eq_some hpage
    obtain rfl := Stop.exception.inj hx
    exact ⟨k, hk, rfl, hcode⟩
  rcases hac : acStop s a with _ | t
  case some =>
    rw [hseg, hal, hpage, hac] at h
    obtain rfl := Option.some.inj h
    obtain ⟨hx, hcheck, hmis⟩ := acStop_eq_some hac
    obtain rfl := Stop.exception.inj hx
    exact ⟨inSegment_of_segStop_eq_none hseg, aligned_of_alignStop_eq_none hal,
      translated_of_pageStop_eq_none hpage, hcheck, hmis⟩
  rw [hseg, hal, hpage, hac] at h
  cases mappedStop_eq_some h

end

/-- Settles O37: the first check of R57 stops, with the exception of the operand's segment. -/
theorem segmentFaults : Obligations.SegmentFaults := by
  unfold Obligations.SegmentFaults
  intro i s a hready ha hvm
  have raises (h : segStop s a = some (.exception (segException s a))) :
      exec i s = .fault ((segException s a).fault s.rip) :=
    exec_stop_of_ready (t := .exception _) hready ha (memStop_of_segStop h)
  have fault : (if a.seg = .ss then Exception.ss else .gp).fault s.rip =
      if a.seg = .ss then .ss s.rip else .gp s.rip := apply_ite (Exception.fault · s.rip) ..
  refine ⟨fun hmode hout => ?mode64, fun hmode hout => ?mode32⟩
  case mode64 =>
    have raised := raises (segStop_of_nonCanonical hvm hmode hout)
    split
    · rcases segException_eq s a with hx | hx
      · exact .inl (by rw [raised, hx]; rfl)
      · exact .inr (by rw [raised, hx]; rfl)
    · next hover => rw [raised, segException_mode64 hmode (Bool.eq_false_iff.mpr hover), fault]
  case mode32 => rw [raises (segStop_of_outside hvm hmode hout), segException_mode32 hmode, fault]

/-- Settles O39: the search through the operand's bytes ends at the first that faults. -/
theorem pageFaultOfTheFirstByte : Obligations.PageFaultOfTheFirstByte := by
  unfold Obligations.PageFaultOfTheFirstByte
  intro i s a k code hready ha hseg hal hk hlower hcode
  exact exec_stop_of_ready (t := .exception _) hready ha
    (memStop_of_pageStop hseg hal (pageStop_of_first hk hcode hlower))

end Sys2Proof.Machine
end

