-- ==== Sys2Proof/Proofs/FaultsOfForms.lean ====
section
/-!
What any fault of a form says (60_exceptions.md R210, R231): it comes from the checks of the class or, after them,
from the memory operand.
-/
namespace Sys2Proof.Machine

open Sys2Proof Sys2Proof.Laws

/-! ## Where a fault comes from -/

@[simp] theorem fault_rip (x : Exception) (rip : Addr) : (x.fault rip).rip = rip := by cases x <;> rfl

/-- Without a memory operand only the checks can stop a form. -/
theorem execShape_completes_of_register {sh : Shape} {s : State} (hchecks : shapeChecks sh s = none)
    (ha : sh.access s = none) : ∃ t, execShape sh s = .next t := by
  match sh, ha with
  | .legacy false _ _ _ (.reg _), _ | .legacy true _ _ _ (.reg _), _ | .vex false _ _ _ _ (.reg _), _
  | .vex true _ _ _ _ (.reg _), _ | .evex _ _ _ _ _ (.reg _), _ => exact ⟨_, perform_ok hchecks rfl⟩
  | .legacy false _ _ _ (.mem _), ha | .legacy true _ _ _ (.mem _), ha | .vex false _ _ _ _ (.mem _), ha
  | .vex true _ _ _ _ (.mem _), ha | .evex _ _ _ _ _ (.mem _), ha => cases ha

/-- A fault is the first exception of the class's checks or, when they pass, of the operand. -/
theorem exec_fault {i : Instr} {s : State} {f : Fault} (h : exec i s = .fault f) :
    ∃ x : Exception, f = x.fault s.rip ∧ (shapeChecks i.shape s = some x ∨
      (shapeChecks i.shape s = none ∧ ∃ a, i.access s = some a ∧ a.Raises s x)) := by
  rw [exec_eq_execShape] at h
  rcases hchecks : shapeChecks i.shape s with _ | x
  case some =>
    rw [execShape_raise hchecks] at h
    exact ⟨x, (Host.Outcome.fault.inj h).symm, .inl rfl⟩
  rcases ha : i.shape.access s with _ | a
  case none =>
    obtain ⟨t, ht⟩ := execShape_completes_of_register hchecks ha
    cases ht.symm.trans h
  rcases hstop : memStop s a with _ | ⟨x | r⟩
  · obtain ⟨t, ht⟩ := execShape_completes hchecks ha hstop
    cases ht.symm.trans h
  · rw [execShape_stop hchecks ha hstop] at h
    exact ⟨x, (Host.Outcome.fault.inj h).symm, .inr ⟨rfl, a, ha, memStop_eq_exception hstop⟩⟩
  · rw [execShape_stop hchecks ha hstop] at h
    cases h

/-! ## Which operands the alignment check looks at (20_memory.md R61) -/

theorem acRule_eq_always {sh : Shape} {k : Nat} (h : sh.acRule = .always k) : sh.cls = .mmx ∧ k = 8 := by
  match sh, h with
  | .legacy false .., h => exact ⟨rfl, (AcRule.always.inj h).symm⟩
  | .legacy true .., h | .vex .., h => cases h
  | .evex .., h => simp only [Shape.acRule] at h; split at h <;> cases h

theorem acRule_eq_perhaps {sh : Shape} {k : Nat} (h : sh.acRule = .perhaps k) :
    ∃ vl l lead e reg rm, sh = .evex vl l lead e reg rm ∧ e.bcst = true ∧ k = l.bits / 8 := by
  match sh, h with
  | .legacy false .., h | .legacy true .., h | .vex .., h => cases h
  | .evex vl l lead e reg rm, h =>
    simp only [Shape.acRule] at h
    split at h
    · next hb => exact ⟨vl, l, lead, e, reg, rm, rfl, hb, (AcRule.perhaps.inj h).symm⟩
    · cases h

/-! ## R210 -/

/-- Settles O36: exception by exception, from the checks by `shapeChecks_eq_some`, from the operand by
`Access.Raises`. -/
theorem faultsOfTheForms : Obligations.FaultsOfTheForms := by
  unfold Obligations.FaultsOfTheForms
  intro i s f hf
  obtain ⟨x, rfl, hx⟩ := exec_fault hf
  refine ⟨fault_rip x s.rip, ?_⟩
  rcases hx with hchecks | ⟨-, a, ha, hraises⟩
  · have hlength : (encode i).length = i.shape.length := shape_encode_length i.shape
    rcases shapeChecks_eq_some hchecks with rfl | ⟨rfl, hlong⟩ | rfl | ⟨rfl, hcls⟩
    · exact ⟨rfl, rfl⟩
    · exact ⟨rfl, rfl, .inr (hlength ▸ hlong)⟩
    · exact ⟨rfl, rfl⟩
    · exact ⟨rfl, rfl, hcls⟩
  have memory : (i.access s).isSome = true := Option.isSome_of_eq_some ha
  cases x with
  | ud | nm | mf => exact hraises.elim
  | ss => exact ⟨rfl, rfl, memory⟩
  | gp => exact ⟨rfl, rfl, .inl memory⟩
  | pf code address =>
    obtain ⟨k, hk, haddress, htranslate⟩ := hraises
    obtain ⟨present, other, rfl, hrange, hnone⟩ := translate_eq_pageFault htranslate
    obtain ⟨hpresent, hwrite, huser, hother⟩ := pfCode_fields present s.privilege other
    refine ⟨rfl, rfl, rfl, ⟨a, ha, k, hk, haddress⟩, htranslate, hwrite, ?user, ?rest⟩
    case user => rw [huser, decide_eq_true_eq, privilege_eq_user_iff]
    case rest =>
      rw [hpresent, hother]
      split
      · next r hr => exact (action_privilege r s).symm.trans (hrange r hr)
      · next hr => exact hnone hr
  | ac =>
    obtain ⟨-, -, -, -, k, hrule, -⟩ := hraises
    rw [Shape.access_ac ha] at hrule
    refine ⟨rfl, rfl, memory, ?_⟩
    rcases hrule with hrule | hrule
    · exact .inl (acRule_eq_always hrule).1
    · obtain ⟨vl, l, lead, e, reg, rm, hshape, hb, -⟩ := acRule_eq_perhaps hrule
      exact .inr ⟨vl, l, lead, e, reg, rm, hshape, hb⟩

/-! ## R231 -/

/-- The checks of a class raise no #AC, so it comes from the operand, after them. -/
theorem exec_fault_ac {i : Instr} {s : State} {r : Addr} (h : exec i s = .fault (.ac r)) :
    shapeChecks i.shape s = none ∧ ∃ a, i.access s = some a ∧ a.Raises s .ac := by
  obtain ⟨x, hx, hsource⟩ := exec_fault h
  cases x with
  | ac =>
    rcases hsource with hchecks | operand
    · rcases shapeChecks_eq_some hchecks with hx | ⟨hx, -⟩ | hx | ⟨hx, -⟩ <;> cases hx
    · exact operand
  | _ => cases hx

theorem alignmentChecking_iff {s : State} :
    s.alignmentChecking = true ↔ s.cr0Am = true ∧ s.eflagsAc = true ∧ s.cpl = 3 := by
  simp [State.alignmentChecking, and_assoc]

/-- The operand of a form that passes its bit checks under a broadcast is an element of 4 or 8 bytes. -/
theorem broadcast_lane {l : Lane} {lead : List LeadByte} {e : Evex} {rm : RmOperand}
    (hbits : evexBitsOk l lead e rm = true) (hb : e.bcst = true) : l = .dword ∨ l = .qword := by
  obtain ⟨-, -, -, hnb, -⟩ := evexBitsOk_iff.mp hbits
  cases l with
  | byte | word => simp [Evex.nbOk, hb] at hnb
  | dword => exact .inl rfl
  | qword => exact .inr rfl

/-- Settles O40: the checks have passed, the operand's earlier checks too, and only an MMX operand or a broadcast
has an alignment rule. -/
theorem alignmentCheckOnlyWhen : Obligations.AlignmentCheckOnlyWhen := by
  unfold Obligations.AlignmentCheckOnlyWhen
  intro i s r hfault
  obtain ⟨hchecks, a, ha, hseg, hal, htr, hchecking, k, hrule, hmis⟩ := exec_fault_ac hfault
  obtain ⟨ham, hac, hcpl⟩ := alignmentChecking_iff.mp hchecking
  obtain ⟨hbits, hlen, havailable, hcontrols⟩ := shapeChecks_eq_none_iff.mp hchecks
  have hlength : (encode i).length = i.shape.length := shape_encode_length i.shape
  refine ⟨ham, hac, hcpl, hbits, hlength ▸ hlen, havailable, hcontrols, a, ha, hseg, hal, htr, ?operand⟩
  case operand =>
    rw [Shape.access_ac ha] at hrule
    rcases hrule with hrule | hrule
    · obtain ⟨hcls, rfl⟩ := acRule_eq_always hrule
      exact .inl ⟨hcls, hmis⟩
    · obtain ⟨vl, l, lead, e, reg, rm, hshape, hb, rfl⟩ := acRule_eq_perhaps hrule
      obtain ⟨m, hm, -⟩ := Shape.access_eq ha
      rw [hshape] at hm hbits
      obtain rfl : rm = .mem m := hm
      refine .inr ⟨vl, l, lead, e, reg, m, hshape, hb, ?_⟩
      rcases broadcast_lane hbits hb with rfl | rfl
      · exact .inl ⟨rfl, hmis⟩
      · exact .inr ⟨rfl, hmis⟩

end Sys2Proof.Machine
end

