-- ==== Sys2Proof/Proofs/IgnoredState.lean ====
section
/-!
State that takes no part in a form (60_exceptions.md R215, R216, R221, R234, R250): the form commutes with a change of
it, because its class's checks, its source and its effect do not see the change.
-/
namespace Sys2Proof.Machine

open Sys2Proof

/-- An instruction whose checks and source are the same after a change `g` of the state, which keeps `rip`, and whose
effect commutes with it, commutes with it. -/
theorem perform_mapNext_of_eq {α : Type} {checks checks' : Option Exception} {source source' : Except Stop α}
    {effect effect' : α → State} {s s' : State} {g : State → State} (hrip : s'.rip = s.rip)
    (hchecks : checks' = checks) (hsource : source' = source) (heffect : ∀ v, effect' v = g (effect v)) :
    perform checks' source' effect' s' = mapNext g (perform checks source effect s) := by
  rw [hchecks, hsource]
  exact perform_mapNext hrip heffect

/-! ## `CR0.EM` and the forms that do not look at it -/

/-- `CR0` with `EM`, bit 2, inverted (10_state.md R35). -/
def State.flipEm (s : State) : State := { s with cr0 := s.cr0 ^^^ 4#32 }

theorem cr0_flipEm (s : State) {n : Nat} (h : (4#32).getLsbD n = false) :
    s.flipEm.cr0.getLsbD n = s.cr0.getLsbD n := by
  rw [State.flipEm, BitVec.getLsbD_xor, h, Bool.xor_false]

theorem cr0Ts_flipEm (s : State) : s.flipEm.cr0Ts = s.cr0Ts := cr0_flipEm s (by decide)

theorem alignmentChecking_flipEm (s : State) : s.flipEm.alignmentChecking = s.alignmentChecking := by
  have am : s.flipEm.cr0Am = s.cr0Am := cr0_flipEm s (by decide)
  rw [State.alignmentChecking, am]
  rfl

/-- Of `CR0` an operand sees `AM` alone. -/
theorem memRead_flipEm {N : Nat} (s : State) (a : Access) :
    (memRead s.flipEm a : Except Stop (BitVec N)) = memRead s a := by
  have ac : acStop s.flipEm a = acStop s a := by
    simp only [acStop, alignmentChecking_flipEm]
    rfl
  have stop : memStop s.flipEm a = memStop s a := by
    rw [memStop, ac]
    rfl
  rw [memRead, stop]
  rfl

theorem vexSource_flipEm (s : State) (n : Nat) (lead : List LeadByte) (v : Vex) (rm : RmOperand) :
    s.flipEm.vexSource n lead v rm = s.vexSource n lead v rm := by
  cases rm with
  | reg f => rfl
  | mem m => exact memRead_flipEm s (s.vexAccess n lead v (.mem m) m)

theorem evexSource_flipEm (s : State) (w n : Nat) (lead : List LeadByte) (e : Evex) (rm : RmOperand) :
    s.flipEm.evexSource w n lead e rm = s.evexSource w n lead e rm := by
  cases rm with
  | reg f => rfl
  | mem m =>
    have access : s.flipEm.evexAccess w n lead e (.mem m) m = s.evexAccess w n lead e (.mem m) m := rfl
    simp only [State.evexSource, access, memRead_flipEm]

theorem shapeChecks_flipEm {sh : Shape} (hcls : sh.cls = .vex ∨ sh.cls = .evex) (s : State) :
    shapeChecks sh s.flipEm = shapeChecks sh s := by
  have noUd : sh.noUd s.flipEm = sh.noUd s := by
    rcases hcls with hcls | hcls
    · simp only [Shape.noUd, hcls]
      rfl
    · simp only [Shape.noUd, hcls]
      rfl
  exact shapeChecks_congr noUd (cr0Ts_flipEm s) rfl

theorem execShape_flipEm {sh : Shape} (hcls : sh.cls = .vex ∨ sh.cls = .evex) (s : State) :
    execShape sh s.flipEm = mapNext State.flipEm (execShape sh s) := by
  have checks := shapeChecks_flipEm hcls s
  match sh, hcls, checks with
  | .legacy false .., hcls, _ | .legacy true .., hcls, _ => rcases hcls with hcls | hcls <;> cases hcls
  | .vex false .., _, checks | .vex true .., _, checks =>
    exact perform_mapNext_of_eq rfl checks (vexSource_flipEm ..) fun _ => rfl
  | .evex .., _, checks => exact perform_mapNext_of_eq rfl checks (evexSource_flipEm ..) fun _ => rfl

/-! ## `CR4.OSFXSR` and the forms that do not look at it -/

/-- `CR4` with `OSFXSR`, bit 9, inverted (10_state.md R36). -/
def State.flipOsfxsr (s : State) : State := { s with cr4 := s.cr4 ^^^ 0x200#32 }

theorem cr4Osxsave_flipOsfxsr (s : State) : s.flipOsfxsr.cr4Osxsave = s.cr4Osxsave := by
  have bit : (0x200#32).getLsbD 18 = false := by decide
  rw [State.cr4Osxsave, State.flipOsfxsr, BitVec.getLsbD_xor, bit, Bool.xor_false]
  rfl

theorem shapeChecks_flipOsfxsr {sh : Shape} (hcls : sh.cls ≠ .sse) (s : State) :
    shapeChecks sh s.flipOsfxsr = shapeChecks sh s := by
  have noUd : sh.noUd s.flipOsfxsr = sh.noUd s := by
    cases h : sh.cls with
    | sse => exact absurd h hcls
    | _ =>
      simp only [Shape.noUd, h, cr4Osxsave_flipOsfxsr]
      rfl
  exact shapeChecks_congr noUd rfl rfl

theorem execShape_flipOsfxsr {sh : Shape} (hcls : sh.cls ≠ .sse) (s : State) :
    execShape sh s.flipOsfxsr = mapNext State.flipOsfxsr (execShape sh s) := by
  have checks := shapeChecks_flipOsfxsr hcls s
  match sh, hcls, checks with
  | .legacy true .., hcls, _ => exact absurd rfl hcls
  | .legacy false .., _, checks | .vex false .., _, checks | .vex true .., _, checks | .evex .., _, checks =>
    exact perform_mapNext_of_eq rfl checks rfl fun _ => rfl

/-- Settles O33: each bit is a #UD condition of its classes, and the other classes commute with inverting it. -/
theorem emAndOsfxsr : Obligations.EmAndOsfxsr := by
  unfold Obligations.EmAndOsfxsr
  intro i s hwf hfits
  have ud (h : ¬ i.shape.noUd s = true) : exec i s = .fault (.ud s.rip) :=
    exec_ud_of_noUd_eq_false hwf hfits (Bool.eq_false_iff.mpr h)
  refine ⟨fun hem hcls => ud fun h => ?em, fun hcls => ?ignoresEm, fun hoff hcls => ud fun h => ?osfxsr,
    fun hcls => ?ignoresOsfxsr⟩
  case em => exact Bool.false_ne_true ((cr0Em_of_noUd hcls h).symm.trans hem)
  case osfxsr => exact Bool.false_ne_true (hoff.symm.trans (cr4Osfxsr_of_noUd hcls h))
  case ignoresEm =>
    rw [exec_eq_execShape, exec_eq_execShape]
    exact execShape_flipEm hcls s
  case ignoresOsfxsr =>
    rw [exec_eq_execShape, exec_eq_execShape]
    exact execShape_flipOsfxsr hcls s

/-! ## The x87 status word -/

/-- Another x87 status word. -/
def State.withFsw (s : State) (w : BitVec 16) : State := { s with fsw := w }

theorem execShape_withFsw {sh : Shape} (hcls : sh.cls ≠ .mmx) (s : State) (w : BitVec 16) :
    execShape sh (s.withFsw w) = mapNext (State.withFsw · w) (execShape sh s) := by
  match sh, hcls with
  | .legacy false .., hcls => exact absurd rfl hcls
  | .legacy true .., _ | .vex false .., _ | .vex true .., _ | .evex .., _ =>
    exact perform_mapNext rfl fun _ => rfl

/-- Settles O35: `ES` is the last check of the MMX class, before any operand, and no other class reads the status
word. -/
theorem pendingX87RaisesMf : Obligations.PendingX87RaisesMf := by
  unfold Obligations.PendingX87RaisesMf
  intro i s
  refine ⟨fun hcls hwf hfits hud hts hes => ?mmx, fun hcls w => ?others⟩
  case mmx =>
    have mf : shapeChecks i.shape s = some .mf := by
      rw [shapeChecks_of_wellFormed hwf hfits, hud, State.cr0Ts, hts, hcls, State.fswEs, hes]
      rfl
    exact exec_of_shapeChecks mf
  case others =>
    rw [exec_eq_execShape, exec_eq_execShape]
    exact execShape_withFsw hcls s w

/-! ## `MXCSR` -/

/-- Another `MXCSR`. -/
def State.withMxcsr (s : State) (v : BitVec 32) : State := { s with mxcsr := v }

theorem execShape_withMxcsr (sh : Shape) (s : State) (v : BitVec 32) :
    execShape sh (s.withMxcsr v) = mapNext (State.withMxcsr · v) (execShape sh s) := by
  match sh with
  | .legacy false .. | .legacy true .. | .vex false .. | .vex true .. | .evex .. =>
    exact perform_mapNext rfl fun _ => rfl

/-- No fault of the machine is a SIMD floating-point exception, vector 19 (60_exceptions.md R234). -/
theorem vector_ne_simd (f : Fault) : f.vector ≠ 19 := by
  cases f <;> simp [Fault.vector]

/-- Settles O58: nothing reads `MXCSR`, and it is in the frame of a form that completes. -/
theorem mxcsrTakesNoPart : Obligations.MxcsrTakesNoPart := by
  unfold Obligations.MxcsrTakesNoPart
  intro i s v
  refine ⟨?unread, fun t ht => (exec_keepsAllButData ht).mxcsr, fun f _ => vector_ne_simd f⟩
  case unread =>
    rw [exec_eq_execShape, exec_eq_execShape]
    exact execShape_withMxcsr i.shape s v

/-! ## What only a memory operand sees -/

/-- Another privilege level, other general registers and segments, another translation and map. -/
def State.withMemoryContext (s : State) (c : Fin 4) (g : Vector Quad 16) (sg : Segments) (p : List PageRange)
    (m : List AddrRange) : State :=
  { s with cpl := c, gpr := g, segs := sg, cfg := { s.cfg with pages := p, mapped := m } }

theorem isMem_eq_false_of_access {sh : Shape} {s : State} (h : sh.access s = none) : sh.rm.isMem = false := by
  match sh, h with
  | .legacy _ _ _ _ (.reg _), _ | .vex _ _ _ _ _ (.reg _), _ | .evex _ _ _ _ _ (.reg _), _ => rfl
  | .legacy false _ _ _ (.mem _), h | .legacy true _ _ _ (.mem _), h | .vex false _ _ _ _ (.mem _), h
  | .vex true _ _ _ _ (.mem _), h | .evex _ _ _ _ _ (.mem _), h => cases h

section
variable {rm : RmOperand} (h : rm.isMem = false) (s : State) (c : Fin 4) (g : Vector Quad 16) (sg : Segments)
  (p : List PageRange) (m : List AddrRange) (lead : List LeadByte)
include h

theorem mmxSource_withMemoryContext :
    (s.withMemoryContext c g sg p m).mmxSource lead rm = s.mmxSource lead rm := by
  cases rm with
  | reg f => rfl
  | mem o => cases h

theorem sseSource_withMemoryContext :
    (s.withMemoryContext c g sg p m).sseSource lead rm = s.sseSource lead rm := by
  cases rm with
  | reg f => rfl
  | mem o => cases h

theorem vexSource_withMemoryContext (n : Nat) (v : Vex) :
    (s.withMemoryContext c g sg p m).vexSource n lead v rm = s.vexSource n lead v rm := by
  cases rm with
  | reg f => rfl
  | mem o => cases h

theorem evexSource_withMemoryContext (w n : Nat) (e : Evex) :
    (s.withMemoryContext c g sg p m).evexSource w n lead e rm = s.evexSource w n lead e rm := by
  cases rm with
  | reg f => rfl
  | mem o => cases h

end

/-- The checks and the effect of a form do not see them, and neither does a source that is a register. -/
theorem execShape_withMemoryContext {sh : Shape} {s : State} (ha : sh.access s = none) (c : Fin 4)
    (g : Vector Quad 16) (sg : Segments) (p : List PageRange) (m : List AddrRange) :
    execShape sh (s.withMemoryContext c g sg p m) =
      mapNext (State.withMemoryContext · c g sg p m) (execShape sh s) := by
  have register := isMem_eq_false_of_access ha
  match sh, register with
  | .legacy false .., register =>
    exact perform_mapNext_of_eq rfl rfl (mmxSource_withMemoryContext register ..) fun _ => rfl
  | .legacy true .., register =>
    exact perform_mapNext_of_eq rfl rfl (sseSource_withMemoryContext register ..) fun _ => rfl
  | .vex false .., register | .vex true .., register =>
    exact perform_mapNext_of_eq rfl rfl (vexSource_withMemoryContext register ..) fun _ => rfl
  | .evex .., register =>
    exact perform_mapNext_of_eq rfl rfl (evexSource_withMemoryContext register ..) fun _ => rfl

/-- Settles O59, by `execShape_withMemoryContext`. -/
theorem registerFormsAreLocal : Obligations.RegisterFormsAreLocal := by
  unfold Obligations.RegisterFormsAreLocal
  intro i s c g sg p m ha
  rw [exec_eq_execShape, exec_eq_execShape]
  exact execShape_withMemoryContext ha c g sg p m

end Sys2Proof.Machine
end

