-- ==== Sys2Proof/Proofs/LaunchedStep.lean ====
section
/-!
What a step runs (30_encoding.md R114; 70_reset_and_hazards.md R266): the instruction that the bytes at `rip` decode
to. After a launch that is the one placed there: the program is fetched as far as the window reaches, and the window
holds the whole first instruction.
-/
namespace Sys2Proof

open Sys2Proof.Machine

/-! ## Lead bytes and length of an encoding -/

theorem RmOperand.length_le (rm : RmOperand) : rm.length ≤ 6 := by
  have disp (d : Disp) : d.length ≤ 4 := by cases d <;> simp [Disp.length]
  match rm with
  | .reg _ | .mem (.relative _) | .mem (.sibNoBase ..) => simp [RmOperand.length]
  | .mem (.base _ d) | .mem (.sib _ _ _ d) =>
    have := disp d
    simp only [RmOperand.length]
    omega

/-- A form has at most `tailLimit` bytes after its lead bytes (30_encoding.md R113). -/
theorem Shape.length_le (sh : Shape) : sh.length ≤ sh.lead.length + tailLimit := by
  match sh with
  | .legacy _ _ _ _ rm | .vex _ _ _ (.two ..) _ rm | .vex _ _ _ (.three ..) _ rm | .evex _ _ _ _ _ rm =>
    have := RmOperand.length_le rm
    simp only [Shape.length, Shape.lead, legacyLength, vexLength, evexLength, tailLimit]
    omega

theorem encode_getElem_lead {i : Instr} {rest : List Byte} {j : Nat} (hj : j < i.shape.lead.length)
    (hlen : j < (encode i ++ rest).length) :
    (encode i ++ rest)[j] = i.shape.lead[j].byte := by
  simp [encode, Shape.encode_eq, List.getElem_append_left, hj]

theorem lead_length_le_encode (i : Instr) : i.shape.lead.length ≤ (encode i).length := by
  rw [encode, Shape.encode_eq, List.length_append, List.length_map]
  exact Nat.le_add_right ..

end Sys2Proof

namespace Sys2Proof.Machine

open Sys2Proof Sys2Proof.Laws

/-! ## The step on a form -/

theorem step_of_form {s : State} {i : Instr} {rest : List Byte} (hrun : s.Runnable)
    (hd : decode s.mode s.fetch = .form i rest) :
    step s = if s.landingOk i.length then exec i s else .refused .nextRipNotCanonical := by
  rw [step_of_runnable hrun, hd]
  rfl

/-- Settles O14: the two branches of `step_of_form`. -/
theorem stepRunsTheDecodedInstruction : Obligations.StepRunsTheDecodedInstruction := by
  unfold Obligations.StepRunsTheDecodedInstruction
  intro s i rest hrun hd
  rw [step_of_form hrun hd]
  exact ⟨fun hland => if_pos hland, fun hland => if_neg (Bool.eq_false_iff.mp hland)⟩

/-! ## The bytes of a launched program -/

theorem Memory.get_setBytes_of_lt {m : Memory} (h : m.wf = true) {a b : Nat} (hb : b < a) (bs : List Byte) :
    (m.setBytes a bs).get b = m.get b := by
  induction bs generalizing m a with
  | nil => rfl
  | cons x t ih => rw [Memory.setBytes, ih (Memory.wf_set h a x) (by omega), Memory.get_set h, if_neg hb.ne]

/-- Byte `j` of a run that was written at `a` is read back at `a + j`. -/
theorem Memory.get_setBytes {m : Memory} (h : m.wf = true) (a : Nat) {bs : List Byte} {j : Nat}
    (hj : j < bs.length) : (m.setBytes a bs).get (a + j) = bs[j] := by
  induction bs generalizing m a j with
  | nil => exact absurd hj (Nat.not_lt_zero j)
  | cons x t ih =>
    have hset := Memory.wf_set h a x
    rw [Memory.setBytes]
    cases j with
    | zero =>
      calc ((m.set a x).setBytes (a + 1) t).get a
        _ = (m.set a x).get a := Memory.get_setBytes_of_lt hset (Nat.lt_succ_self a) t
        _ = x := (Memory.get_set h a a x).trans (if_pos rfl)
    | succ j =>
      rw [show a + (j + 1) = a + 1 + j by omega]
      exact ih hset (a + 1) (Nat.lt_of_succ_lt_succ hj)

section
variable {s : State} {program : List Byte}

theorem launch_codeByte (hmem : s.mem.wf = true) (htop : s.rip.toNat + program.length ≤ 2 ^ 64) {j : Nat}
    (hj : j < program.length) : (s.launch program).codeByte j = program[j] := by
  have address : ((s.launch program).codeAddr j).toNat = s.rip.toNat + j := by
    rw [codeAddr_mode64 (State.launch_mode s program), State.launch_rip, BitVec.toNat_add, BitVec.toNat_ofNat]
    omega
  rw [State.codeByte, address]
  exact Memory.get_setBytes hmem _ hj

theorem launch_window (s : State) (program : List Byte) :
    (s.launch program).window = min (s.launch program).reach program.length := by
  have bytes : s.rip.toNat + program.length - s.rip.toNat = program.length := Nat.add_sub_cancel_left ..
  exact congrArg (min _) bytes

/-- A launched program is fetched from its first byte on. -/
theorem launch_fetch (hmem : s.mem.wf = true) (htop : s.rip.toNat + program.length ≤ 2 ^ 64) :
    (s.launch program).fetch = program.take (s.launch program).window := by
  have hwin : (s.launch program).window ≤ program.length := launch_window s program ▸ Nat.min_le_right ..
  refine List.ext_getElem? fun j => ?_
  rw [List.getElem?_take]
  split
  · next hj => rw [fetch_getElem? hj, launch_codeByte hmem htop (hj.trans_le hwin), List.getElem?_eq_getElem]
  · next hj => exact List.getElem?_eq_none (by rw [fetch_length]; omega)

end

/-! ## The window of a launched instruction -/

section
variable {s : State} {i : Instr} {rest : List Byte}

/-- Every lead byte of a launched instruction is counted. -/
theorem lead_le_launch_leadRun (hmem : s.mem.wf = true)
    (htop : s.rip.toNat + (encode i ++ rest).length ≤ 2 ^ 64) :
    i.shape.lead.length ≤ (s.launch (encode i ++ rest)).leadRun addressCount 0 := by
  have inside : i.shape.lead.length ≤ (encode i ++ rest).length := by
    rw [List.length_append]
    exact (lead_length_le_encode i).trans (Nat.le_add_right ..)
  refine le_leadRun (by simp only [addressCount]; omega) fun j hj => ?_
  rw [Nat.zero_add, launch_codeByte hmem htop (hj.trans_le inside), encode_getElem_lead hj, State.launch_mode,
    leadByte_byte (LeadByte.inMode_mode64 _)]
  rfl

/-- A step after the launch looks at every byte of the first instruction. -/
theorem encode_le_launch_window (hmem : s.mem.wf = true)
    (htop : s.rip.toNat + (encode i ++ rest).length ≤ 2 ^ 64) :
    (encode i).length ≤ (s.launch (encode i ++ rest)).window := by
  have reach : (encode i).length ≤ (s.launch (encode i ++ rest)).reach := calc
    (encode i).length = i.shape.length := shape_encode_length _
    _ ≤ i.shape.lead.length + tailLimit := i.shape.length_le
    _ ≤ (s.launch (encode i ++ rest)).reach := Nat.add_le_add_right (lead_le_launch_leadRun hmem htop) _
  have program : (encode i).length ≤ (encode i ++ rest).length := by
    rw [List.length_append]
    exact Nat.le_add_right ..
  exact launch_window s _ ▸ Nat.le_min.mpr ⟨reach, program⟩

theorem launch_decode (hmem : s.mem.wf = true) (hwf : i.wellFormed = true) (hfits : i.fits = true)
    (htop : s.rip.toNat + (encode i ++ rest).length ≤ 2 ^ 64) :
    ∃ rest', decode .mode64 (s.launch (encode i ++ rest)).fetch = .form i rest' := by
  refine ⟨rest.take ((s.launch (encode i ++ rest)).window - (encode i).length), ?_⟩
  rw [launch_fetch hmem htop, List.take_append, List.take_of_length_le (encode_le_launch_window hmem htop),
    decode_encode hwf rfl, finish_of_fits hfits]

end

/-! ## The first step of a launch -/

theorem launch_runnable {s : State} {program : List Byte} (hrip : canonical s.cfg.vaBits s.rip = true)
    (hne : 0 < program.length) : (s.launch program).Runnable := by
  have hend : (s.launch program).runEnd ≠ some (s.launch program).ip.toNat := fun h => by
    have : s.rip.toNat + program.length = s.rip.toNat := Option.some.inj h
    omega
  exact ⟨by simp, launch_eflagsVm s program, launch_eflagsTf s program, hend, hrip⟩

/-- Settles O20: the launched state is runnable, its bytes decode to `i`, and `i` ends where an instruction can
begin. -/
theorem launchedInstructionRuns : Obligations.LaunchedInstructionRuns := by
  unfold Obligations.LaunchedInstructionRuns
  intro s i rest hmem hwf hfits hrip hnext hend htop
  have hne : 0 < (encode i ++ rest).length := by
    have hthree : 3 ≤ (encode i).length := (shape_encode_length i.shape).symm ▸ three_le_length i
    rw [List.length_append]
    omega
  obtain ⟨rest', hd⟩ := launch_decode hmem hwf hfits htop
  have hland : (s.launch (encode i ++ rest)).landingOk i.length = true :=
    Bool.and_eq_true_iff.mpr ⟨decide_eq_true hend, hnext⟩
  rw [step_of_form (launch_runnable hrip hne) hd, if_pos hland]

end Sys2Proof.Machine
end

