-- ==== Sys2Proof/Proofs/RunBound.lean ====
section
/-!
How long a run can be (70_reset_and_hazards.md R266): a step that completes takes at least three of the bytes left
before the end address, and those it takes lie before it.
-/
namespace Sys2Proof.Machine

open Sys2Proof

/-- A step that completes leaves at least three bytes fewer before the end address. -/
theorem step_consumes {s u : State} {e : Nat} (he : s.runEnd = some e) (h : step s = .next u) :
    u.runEnd = some e ∧ (e - u.ip.toNat) + 3 ≤ e - s.ip.toNat := by
  obtain ⟨i, hran⟩ := exists_stepRan h
  have keep := step_keepsAllButData h
  have hip : u.ip.toNat = s.ip.toNat + i.length :=
    (congrArg BitVec.toNat (ip_congr (s := s.advance i.length) keep.mode (exec_rip hran.ran))).trans
      (advance_ip_toNat hran.landing)
  have hthree := three_le_length i
  have hinside : i.length ≤ e - s.ip.toNat := hran.inWindow.trans (window_le he)
  exact ⟨keep.runEnd.trans he, by omega⟩

theorem three_mul_le_of_run {k : Nat} {s t : State} {e : Nat} (he : s.runEnd = some e)
    (h : Sys2Proof.core.run k s = .next t) : 3 * k ≤ e - s.ip.toNat := by
  induction k generalizing s with
  | zero => exact Nat.zero_le _
  | succ k ih =>
    obtain ⟨u, hstep, hrun⟩ := run_succ_next h
    obtain ⟨hend, hbytes⟩ := step_consumes he hstep
    have := ih hend hrun
    omega

/-- Settles O22, by induction on the number of steps. -/
theorem runLengthIsBounded : Obligations.RunLengthIsBounded := by
  unfold Obligations.RunLengthIsBounded
  intro s t e k he hshort hrun
  exact absurd (three_mul_le_of_run he hrun) (Nat.not_le.mpr hshort)

end Sys2Proof.Machine
end

