-- ==== Sys2Proof/Proofs/CompletesOnlyWhen.lean ====
section
/-!
R262 read forwards (70_reset_and_hazards.md; 20_memory.md R57, R61): a form that completes has passed the checks of
its class, and its memory operand, if it has one, is readable.
-/
namespace Sys2Proof.Machine

open Sys2Proof Sys2Proof.Laws

/-! ## What an operand that no check stops has passed -/

section
variable {s : State} {a : Access}

theorem passes_of_acStop_eq_none (h : acStop s a = none) : a.ac.Passes s a.la := by
  cases hac : a.ac with
  | never => trivial
  | always k =>
    refine or_iff_not_imp_left.mpr fun hon => by_contra fun hmis => ?_
    cases (acStop_always hac (Bool.eq_true_of_not_eq_false hon) hmis).symm.trans h
  | perhaps k =>
    refine or_iff_not_imp_left.mpr fun hon => or_iff_not_imp_left.mpr fun hmis =>
      Bool.eq_false_of_not_eq_true fun hchoice => ?_
    cases (acStop_perhaps hac (Bool.eq_true_of_not_eq_false hon) hmis hchoice).symm.trans h

theorem mapped_of_mappedStop_eq_none (h : mappedStop s a = none) : a.Mapped s := by
  intro k hk
  by_contra hout
  have outside : ∀ r ∈ s.cfg.mapped, r.contains (s.byteAddr a.la k).toNat = false := by
    simpa only [not_exists, not_and, Bool.not_eq_true] using hout
  cases (mappedStop_of_outside ⟨k, hk, outside⟩).symm.trans h

/-- No check of R57 stops an operand exactly when it is readable. -/
theorem memStop_eq_none_iff : memStop s a = none ↔ a.Readable s := by
  refine ⟨fun h => ?_, memStop_of_readable⟩
  simp only [memStop, Option.or_eq_none_iff] at h
  obtain ⟨⟨⟨hseg, hal⟩, hpage⟩, hac, hmap⟩ := h
  exact ⟨inSegment_of_segStop_eq_none hseg, aligned_of_alignStop_eq_none hal,
    translated_of_pageStop_eq_none hpage, passes_of_acStop_eq_none hac, mapped_of_mappedStop_eq_none hmap⟩

end

/-! ## What a form that completes has passed -/

theorem stop_result_ne_next (t : Stop) (s u : State) : t.result s ≠ .next u := by
  cases t <;> exact fun h => by cases h

section
variable {i : Instr} {s t : State}

theorem shapeChecks_of_exec_next (h : exec i s = .next t) : shapeChecks i.shape s = none := by
  rw [exec_eq_execShape] at h
  exact (execShape_next h).1

theorem readable_of_exec_next {a : Access} (h : exec i s = .next t) (ha : i.access s = some a) :
    a.Readable s := by
  refine memStop_eq_none_iff.mp (Option.eq_none_iff_forall_ne_some.mpr fun stop hstop => ?_)
  have stopped := execShape_stop (shapeChecks_of_exec_next h) ha hstop
  rw [← exec_eq_execShape, h] at stopped
  exact stop_result_ne_next stop s t stopped.symm

end

/-- Settles O43: the table of the class by `shapeChecks_eq_none_iff`, the operand by `readable_of_exec_next`, whose
alignment check is the one its class has. -/
theorem completesOnlyWhenAllowed : Obligations.CompletesOnlyWhenAllowed := by
  unfold Obligations.CompletesOnlyWhenAllowed
  intro i s t h
  obtain ⟨hbits, hlen, havailable, hcontrols⟩ := shapeChecks_eq_none_iff.mp (shapeChecks_of_exec_next h)
  have hlength : (encode i).length = i.shape.length := shape_encode_length i.shape
  refine ⟨hbits, hlength ▸ hlen, havailable, hcontrols, fun a ha => ?operand⟩
  case operand =>
    obtain ⟨hseg, hal, htr, hac, hmap⟩ := readable_of_exec_next h ha
    rw [Shape.access_ac ha] at hac
    refine ⟨hseg, hal, htr, hmap, fun hcls => ?mmx, fun vl l lead e reg m hshape hb => ?broadcast⟩
    case mmx => rwa [acRule_of_mmx hcls] at hac
    case broadcast =>
      have perhaps : i.shape.acRule = .perhaps (l.bits / 8) := by rw [hshape, Shape.acRule, hb]; rfl
      rwa [perhaps] at hac

end Sys2Proof.Machine
end

