-- ==== Sys2Proof/Proofs/SampleWords.lean ====
section
/-!
Words of 95_test_vectors.md V5, decoded by way of the encoder: a byte run that the encoder writes for a well-formed
instruction decodes to that instruction (R93 to R114), so for each word only its encoding is computed.
-/
namespace Sys2Proof

/-- A byte run is the word of an instruction: a well-formed one of at most 15 bytes, and all of its encoding. -/
def Instr.HasWord (i : Instr) (bs : List Byte) : Prop :=
  i.wellFormed = true ∧ i.fits = true ∧ encode i = bs

theorem decode_of_hasWord {i : Instr} {bs : List Byte} (h : i.HasWord bs) : decode .mode64 bs = .form i [] := by
  obtain ⟨hwf, hfits, rfl⟩ := h
  simpa only [List.append_nil] using decodeOfEncodeMode64 i [] hwf hfits

/-- Settles O4: each run is the word of its instruction, and a word decodes (`decode_of_hasWord`). -/
theorem sampleWordsDecode : Obligations.SampleWordsDecode := by
  unfold Obligations.SampleWordsDecode
  refine ⟨decode_of_hasWord ?paddb_mm0_mm1, decode_of_hasWord ?paddd_mm3_sib,
    decode_of_hasWord ?paddw_xmm8_xmm15, decode_of_hasWord ?vpaddw_xmm8_xmm9_xmm10,
    decode_of_hasWord ?vpaddq_ymm12_ymm13_base, decode_of_hasWord ?vpaddw_zmm31_zmm30_zmm29,
    decode_of_hasWord ?vpaddq_ymm2_ymm3_bcst⟩
  all_goals exact ⟨by decide, by decide, by decide⟩

end Sys2Proof
end
